-- ==== Sys2Proof/Word.lean ====
section
/-!
DEFINITION. The word types of the core (00_scope.md R3, section 4 "Fixed widths"):
a byte is 8 bits, a word of the MAC engine 32 bits, a token address 16 bits.
-/

namespace Sys2Proof

/-- A byte: 8 bits, bit 0 least significant (R3). -/
abbrev Byte := BitVec 8

/-- A 16-bit target address TA of the token (20_memory.md R62), and the width of STATUS (R22). -/
abbrev Half := BitVec 16

/-- A 32-bit word of the MAC engine; `+` on it is addition modulo 2^32 (R4). -/
abbrev Word := BitVec 32

end Sys2Proof
end

