-- ==== Sys2Proof/Syntax.lean ====
section
/-!
DEFINITION. The operations of the core, the bus events it produces, its host registers,
the positions of its pseudocode and the host script's statements.
-/

namespace Sys2Proof

/-- The twelve operations of the opcode table (30_encoding.md R81). An operation carries no operand
field: its operands are the latched registers (R80, R95). -/
inductive Instr where
  /-- ComputeDigest (R120). -/
  | digest
  /-- SerializeMAC (R123). -/
  | sermac
  /-- WriteScratchpad (R160). -/
  | wspad
  /-- ReadScratchpad (R162). -/
  | rspad
  /-- RefreshScratchpad (R164). -/
  | rfspad
  /-- CopyScratchpad (R166). -/
  | cpspad
  /-- ReadAuthenticatedPage (R168). -/
  | rdauth
  /-- LoadFirstSecret (R170). -/
  | ldsec
  /-- ReadMemory (R172, R174). -/
  | rdmem
  /-- ReadAuthenticatedWithChallenge (R201). -/
  | rdchal
  /-- ProvisionInitialSecret (R203). -/
  | provsec
  /-- WriteAuthenticatedData (R205). -/
  | wrauth
  deriving DecidableEq, Repr

/-- The wire commands of the token (R86). -/
inductive WireCommand where
  | writeScratchpad | readScratchpad | refreshScratchpad | copyScratchpad
  | readAuthenticatedPage | loadFirstSecret | readMemory
  deriving DecidableEq, Repr

/-- One event of the bus trace (41_crc_bus.md R146). -/
inductive BusEvent where
  /-- `RST(p)`: a bus reset answered with presence `p`. -/
  | rst (present : Bool)
  /-- `SEL(rom)`: the token with this 8-byte address is selected. -/
  | sel (rom : Vector Byte 8)
  /-- `W(b)`: one byte written. -/
  | w (b : Byte)
  /-- `R(v)`: one byte read. -/
  | r (v : Byte)
  /-- `PWR_ON`: strong pull-up asserted after the preceding write. -/
  | pwrOn
  /-- `PWR_OFF`: power released. -/
  | pwrOff
  /-- `DLY(t)`: a wait of at least `t` (microseconds, entry 14). -/
  | dly (t : Nat)
  deriving DecidableEq, Repr

/-- The registers of the host register file (10_state.md R20). -/
inductive Reg where
  | cmd | status | rom | addr | esin | data | chal | secret | macin | len | blk
  | rta | res | rdata | page | macrd | mem | h | macout
  deriving DecidableEq, Repr

/-- The two waits of the pseudocode (00_scope.md section 4). -/
inductive WaitParam where
  /-- `P_T_SHA`. -/
  | sha
  /-- `P_T_PROG`. -/
  | prog
  deriving DecidableEq, Repr

/-- Where a written byte comes from: a byte fixed at START (a constant or a latched operand), or the
TA or ES that this operation's own ReadScratchpad step left in the pending buffer (R207). -/
inductive ByteSrc where
  | byte (b : Byte)
  | pendingTaLo
  | pendingTaHi
  | pendingEs
  deriving DecidableEq, Repr

/-- The result registers a success may commit (R226). -/
inductive ResultReg where
  | rta | res | rdata | page | macrd | mem | h | macout
  deriving DecidableEq, Repr

/-- One position of an operation's pseudocode (R44, R49): a bus primitive of 00_scope.md section 5, a
check that may raise, a step of the MAC engine, or the closing `succeed`. `stage` is the composite step
number a failure reports (R24, R200), 0 outside composites. Received bytes are numbered from the last
bus reset. -/
inductive Micro where
  /-- `p <- BusReset(); if not p then raise NO_DEVICE` (R148). -/
  | busReset (stage : BitVec 3)
  /-- `BusSelect(L.ROM)` (R148). -/
  | busSelect
  /-- `BusWrite(b)`. -/
  | busWrite (src : ByteSrc)
  /-- `BusHold()`. -/
  | busHold
  /-- `Wait(t)`. -/
  | wait (p : WaitParam)
  /-- `BusRelease()`. -/
  | busRelease
  /-- `BusRead()`: the byte joins the bytes received in this step. -/
  | busRead
  /-- `if r[at] != 0xFF then raise PROTOCOL` (R168). -/
  | checkTrailer (stage : BitVec 3) (pos : Nat)
  /-- `if not CRC16ok(sent ++ r[start .. start+len-1], r[start+len], r[start+len+1]) then raise INTEGRITY`. -/
  | checkCrc (stage : BitVec 3) (sent : List Byte) (start len : Nat)
  /-- `if r[at] != 0xAA then raise AUTH_FAILED` (R94). -/
  | checkStatus (stage : BitVec 3) (pos : Nat)
  /-- ReadScratchpad's return: TA, ES and data of the received bytes go to the pending buffer (R162). -/
  | keepScratchpad
  /-- ReadAuthenticatedPage's return: page and MAC go to the pending buffer (R168). -/
  | keepPage
  /-- ReadMemory's return: the received bytes go to the pending buffer (R172). -/
  | keepMemory
  /-- The MAC engine takes the latched block and the initial state (R110, R113). -/
  | macLoad
  /-- One round of the MAC engine, its schedule word first (R113, R114). -/
  | macRound
  /-- The digest goes to the pending buffer (R115). -/
  | macKeep
  /-- The serialisation of the latched H goes to the pending buffer (R122). -/
  | macSerialize
  /-- `succeed(results)` (R226). -/
  | succeed (results : List ResultReg)
  deriving DecidableEq, Repr

/-- One item of the schedule of the machine: a host access, or a move of the core alone (entry 3). -/
inductive Input where
  /-- The core advances by one position, the host does nothing. -/
  | tick
  /-- `HostWrite(index, element, value)` (R20). -/
  | write (index : BitVec 8) (element : Nat) (value : Nat)
  /-- `HostRead(index, element)` (R20). -/
  | read (index : BitVec 8) (element : Nat)
  /-- `WAIT` (R98): read STATUS until BUSY = 0, the core advancing by one position between two reads. -/
  | wait
  /-- `RUN` (R98): the CMD byte is written and the operation runs to its completion with no other host
  access in between. -/
  | run (cmd : Byte)
  /-- The core is reset (70_reset_and_hazards.md R250 to R253). -/
  | reset
  deriving DecidableEq, Repr

/-- A statement of the host script (30_encoding.md R97, R98). -/
inductive Stmt where
  /-- `SET r, v0 v1 ... vn`. -/
  | set (r : Reg) (values : List Nat)
  /-- `SET r[e], v`. -/
  | setElement (r : Reg) (element : Nat) (value : Nat)
  /-- `<mnemonic>`: START the operation. -/
  | start (i : Instr)
  /-- `GET r`. -/
  | get (r : Reg)
  /-- `WAIT`. -/
  | wait
  /-- `RUN <mnemonic>`. -/
  | run (i : Instr)
  /-- `JERR label`. -/
  | jerr (label : String)
  /-- `JOK label`. -/
  | jok (label : String)
  /-- `HALT`. -/
  | halt
  deriving DecidableEq, Repr

/-- A line of a host script: an optional label and a statement (R97). -/
structure Line where
  label : Option String
  stmt : Stmt
  deriving DecidableEq, Repr

end Sys2Proof
end

