-- ==== Sys2Proof/Decode.lean ====
section
/-!
DEFINITION. The host encoding (30_encoding.md section 1): the decoder of a CMD byte, total and rejecting by name,
and the encoder.
-/

namespace Sys2Proof

/-- What a CMD byte decodes to. -/
inductive Decoded where
  /-- One of the twelve operations (R81). -/
  | operation (i : Instr)
  /-- CMD[7:4] is not 0 (R82). -/
  | reservedField
  /-- CMD[3:0] is 0xC to 0xF (R83). -/
  | reservedCode
  deriving DecidableEq, Repr

/-- The operation with a code, `none` for the reserved codes 0xC to 0xF (R81). -/
def operationOf (code : BitVec 4) : Option Instr :=
  match code.toNat with
  | 0x0 => some .digest
  | 0x1 => some .sermac
  | 0x2 => some .wspad
  | 0x3 => some .rspad
  | 0x4 => some .rfspad
  | 0x5 => some .cpspad
  | 0x6 => some .rdauth
  | 0x7 => some .ldsec
  | 0x8 => some .rdmem
  | 0x9 => some .rdchal
  | 0xA => some .provsec
  | 0xB => some .wrauth
  | _ => none

/-- `OP` = CMD[3:0] (R21). -/
def cmdOp (cmd : Byte) : BitVec 4 := cmd.extractLsb' 0 4

/-- `RSV` = CMD[7:4] (R21). -/
def cmdRsv (cmd : Byte) : BitVec 4 := cmd.extractLsb' 4 4

/-- The decoder: CMD[7:4] is checked first (R82, 60_exceptions.md R230), then CMD[3:0] (R83). -/
def decode (cmd : Byte) : Decoded :=
  if cmdRsv cmd ≠ 0#4 then .reservedField
  else
    match operationOf (cmdOp cmd) with
    | some i => .operation i
    | none => .reservedCode

/-- The instruction the decoder reads from an opcode-table row's bits. CMD is one byte wide (R21), so a row of
another width is none of this core's. -/
def decodeTableWord (nbits w : Nat) : Option Instr :=
  if nbits ≠ 8 then none
  else
    match decode (BitVec.ofNat 8 w) with
    | .operation i => some i
    | .reservedField => none
    | .reservedCode => none

/-- The operation codes (R81). -/
def Instr.code : Instr → BitVec 4
  | .digest => 0x0
  | .sermac => 0x1
  | .wspad => 0x2
  | .rspad => 0x3
  | .rfspad => 0x4
  | .cpspad => 0x5
  | .rdauth => 0x6
  | .ldsec => 0x7
  | .rdmem => 0x8
  | .rdchal => 0x9
  | .provsec => 0xA
  | .wrauth => 0xB

/-- The CMD byte of an operation: RSV = 0 and OP = its code (30_encoding.md R81, R97). -/
def encode (i : Instr) : Byte := 0#4 ++ i.code

end Sys2Proof
end

