-- ==== Sys2Proof/Machine/Registers.lean ====
section
/-!
DEFINITION. The groups of registers State is made of, as plain data (10_state.md R20, R41, R44 to R47), the
parameters of a machine (00_scope.md section 4), and the bus side of the core (41_crc_bus.md R145 to R147).
-/

namespace Sys2Proof.Machine

/-- The MEM buffer (10_state.md R40): (index, byte) pairs in one canonical form. -/
abbrev Memory := List Host.Cell

/-- The operand registers, written by the host only (10_state.md section 3). -/
structure Operands where
  /-- ROM, the device address (R27). -/
  rom : Vector Byte 8
  /-- ADDR, a token address (R28). -/
  addr : Half
  /-- ESIN (R29). -/
  esin : Byte
  /-- DATA (R30). -/
  data : Vector Byte 8
  /-- CHAL (R31). -/
  chal : Vector Byte 3
  /-- SECRET (R32). -/
  secret : Vector Byte 8
  /-- MACIN (R33). -/
  macin : Vector Byte 20
  /-- LEN (R34). -/
  len : Half
  /-- BLK (R35). -/
  blk : Vector Word 16
  deriving DecidableEq, Repr, Inhabited

/-- The result registers, written by the core only (10_state.md section 4). -/
structure Results where
  /-- RTA (R36). -/
  rta : Half
  /-- RES (R36). -/
  res : Byte
  /-- RDATA (R37). -/
  rdata : Vector Byte 8
  /-- PAGE (R38). -/
  page : Vector Byte 32
  /-- MACRD (R39). -/
  macrd : Vector Byte 20
  /-- MEM (R40). -/
  mem : Memory
  /-- H (R42). -/
  h : Vector Word 5
  /-- MACOUT (R43). -/
  macout : Vector Byte 20
  deriving DecidableEq, Repr, Inhabited

/-- The operand latch L (R41): every operand register and H, as they stood at START. -/
structure Latch where
  operands : Operands
  h : Vector Word 5
  deriving DecidableEq, Repr, Inhabited

/-- The working words a, b, c, d, e of the MAC engine (R46). -/
structure Working where
  a : Word
  b : Word
  c : Word
  d : Word
  e : Word
  deriving DecidableEq, Repr, Inhabited

/-- The MAC engine's working state (R46). -/
structure MacWork where
  /-- The schedule W[0..79]. -/
  w : Vector Word 80
  /-- a, b, c, d, e. -/
  v : Working
  /-- The round counter t, 0 to 80. -/
  t : Fin 81
  deriving DecidableEq, Repr, Inhabited

/-- The sequencer state (R44). -/
inductive Fsm where
  | idle
  /-- `RUN(op, k)`. -/
  | run (op : Instr) (k : Nat)
  deriving DecidableEq, Repr

/-- The pending-result buffer (R47, R207): the bytes received in the running bus step, and the values a
success may commit. -/
structure Pending where
  /-- Bytes received since the last bus reset of the running operation: r, c0, c1, m, c2, c3, s of the
  pseudocode, in the order read. -/
  rx : List Byte
  ta : Half
  es : Byte
  rdata : Vector Byte 8
  page : Vector Byte 32
  mac : Vector Byte 20
  mem : List Byte
  h : Vector Word 5
  macout : Vector Byte 20
  deriving DecidableEq, Repr, Inhabited

/-- Parameter P_CRC16 (D11, U15): the 1-Wire CRC-16 of R141, or another check, named by a number. -/
inductive CrcFunction where
  | oneWire
  | other (id : Nat)
  deriving DecidableEq, Repr

/-- Parameter P_MP (D24, U14): the default formula of R126, or another function, named by a number. -/
inductive MpFunction where
  | standard
  | other (id : Nat)
  deriving DecidableEq, Repr

/-- The parameters of a machine (00_scope.md section 4); fixed while it runs (entry 6). -/
structure Params where
  /-- P_COPY_CMD (R86). -/
  copyCmd : Byte
  /-- P_MEMBUF, bytes (R34, R40). -/
  membuf : Nat
  /-- P_T_SHA, microseconds (R149). -/
  tSha : Nat
  /-- P_T_PROG, microseconds (R149). -/
  tProg : Nat
  /-- P_CRC16 (R141, R142). -/
  crc : CrcFunction
  /-- P_MP (R126). -/
  mp : MpFunction
  deriving DecidableEq, Repr

/-- The bus side of the core: the trace (R146), POWER (R45), and the answers of transport and token already
decided (R145, entry 1). -/
structure Bus where
  /-- The events so far, oldest first. -/
  trace : List BusEvent
  /-- POWER. -/
  power : Bool
  /-- The model's own: presence answers still to be drawn. -/
  presence : List Bool
  /-- The model's own: read bytes still to be drawn. -/
  bytes : List Byte
  deriving DecidableEq, Repr

/-- All operand registers 0 (R20). -/
def Operands.zero : Operands :=
  { rom := .replicate 8 0, addr := 0, esin := 0, data := .replicate 8 0, chal := .replicate 3 0,
    secret := .replicate 8 0, macin := .replicate 20 0, len := 0, blk := .replicate 16 0 }

/-- All result registers 0 (R20). -/
def Results.zero : Results :=
  { rta := 0, res := 0, rdata := .replicate 8 0, page := .replicate 32 0, macrd := .replicate 20 0,
    mem := [], h := .replicate 5 0, macout := .replicate 20 0 }

/-- The latch with every bit 0. -/
def Latch.zero : Latch := { operands := .zero, h := .replicate 5 0 }

/-- The MAC engine's working state with every bit 0. -/
def MacWork.zero : MacWork := { w := .replicate 80 0, v := ⟨0, 0, 0, 0, 0⟩, t := 0 }

/-- The pending-result buffer holding nothing (R250). -/
def Pending.empty : Pending :=
  { rx := [], ta := 0, es := 0, rdata := .replicate 8 0, page := .replicate 32 0, mac := .replicate 20 0,
    mem := [], h := .replicate 5 0, macout := .replicate 20 0 }

/-- The spec's defaults for the parameters (00_scope.md section 4). -/
def Params.default : Params :=
  { copyCmd := 0x55, membuf := 256, tSha := 1500, tProg := 10000, crc := .oneWire, mp := .standard }

end Sys2Proof.Machine
end

