-- ==== Sys2Proof/Config.lean ====
section
/-!
DEFINITION. The free values: constants with no body, of which nothing can be proved. What an implementation
fixes by a number or a name is the structure `Params` (00_scope.md section 4).
-/

namespace Sys2Proof

/-- The presence answer of a `BusReset()` past the answers already decided: any Boolean, which may depend on the
whole trace before it (41_crc_bus.md R145, U1; entry 1). -/
opaque Config.devicePresent : List BusEvent → Bool

/-- The byte answered to a `BusRead()` past the answers already decided: any byte, which may depend on the whole
trace before it (41_crc_bus.md R145, R151, U1; entry 1). -/
opaque Config.byteOnBus : List BusEvent → Byte

/-- The operand latch outside an operation and after a reset: any value, a fresh one for each draw
(10_state.md R41, 70_reset_and_hazards.md R250, U6; entry 2). -/
opaque Config.unspecifiedLatch : Nat → Machine.Latch

/-- The MAC engine's working state outside DIGEST and after a reset: any value, a fresh one for each draw
(10_state.md R46, 70_reset_and_hazards.md R250, U6; entry 2). -/
opaque Config.unspecifiedWork : Nat → Machine.MacWork

/-- `CRC16ok(bytes, c0, c1)` of a machine whose P_CRC16 is not the default (D11, U15; entry 6). -/
opaque Config.otherCrcOk : Nat → List Byte → Byte → Byte → Bool

/-- `P_MP(addr)` of a machine whose P_MP is not the default (R126, D24; entry 6). -/
opaque Config.otherMp : Nat → Half → Byte

end Sys2Proof
end

