-- ==== Sys2Proof/Machine/State.lean ====
section
/-!
DEFINITION. The state of the core, the reasons a step can stop, and the state after reset.
-/

namespace Sys2Proof.Machine

/-- Why a step stops. The core has no traps (60_exceptions.md R232): its errors are next states. -/
inductive Fault where
  /-- Raised by a move of the core, or by `RUN` while BUSY, in a state whose FSM names a position that its operation's
  pseudocode does not have (entry 13). No rule gives such a state an effect and no run from reset reaches one.
  Safe. -/
  | noSuchPosition
  deriving DecidableEq, Repr

/-- Why a step is refused. -/
inductive Refusal where
  /-- Raised by an arm of `exec` for an instruction that has no meaning yet; no arm of this model raises it. Safe. -/
  | notModelled (mnemonic : String)
  deriving DecidableEq, Repr

/-- Everything the spec gives the core (10_state.md), its parameters, and the model's own fields `inputs`,
`reads`, `free` (entries 2, 3, 11). -/
structure State where
  /-- The parameters of this machine (00_scope.md section 4); no step changes them. -/
  params : Params
  /-- CMD: the byte of the most recent START; reads as 0 (R21, entry 8). -/
  cmd : Byte
  /-- STATUS (R22). -/
  status : Half
  /-- ROM to BLK (10_state.md section 3). -/
  operands : Operands
  /-- RTA to MACOUT (10_state.md section 4). -/
  results : Results
  /-- L (R41). -/
  latch : Latch
  /-- FSM (R44). -/
  fsm : Fsm
  /-- The pending-result buffer (R47). -/
  pending : Pending
  /-- The MAC engine's working state (R46). -/
  work : MacWork
  /-- The trace (R146), POWER (R45) and the answers to come (R145). -/
  bus : Bus
  /-- The model's own: host accesses and core moves still to come. -/
  inputs : List Input
  /-- The model's own: the values host reads returned, oldest first. -/
  reads : List Word
  /-- The model's own: how many unspecified values have been drawn. -/
  free : Nat
  deriving DecidableEq, Repr

/-- The core right after reset (70_reset_and_hazards.md R250): every register 0, FSM idle, POWER 0, the pending
buffer empty, no bus event. The latch and the MAC engine's working state are unspecified there: zero is a DESIGN
CHOICE (entry 2). The parameters are the spec's defaults (entry 6); no input is placed (entry 3). -/
def State.reset : State :=
  { params := .default
    cmd := 0x00
    status := 0x0000
    operands := .zero
    results := .zero
    latch := .zero
    fsm := .idle
    pending := .empty
    work := .zero
    bus := { trace := [], power := false, presence := [], bytes := [] }
    inputs := []
    reads := []
    free := 0 }

end Sys2Proof.Machine
end

