-- ==== Sys2Proof/Machine/Crc.lean ====
section
/-!
DEFINITION. The CRC-16 validator (41_crc_bus.md section 1).
-/

namespace Sys2Proof.Machine

/-- One bit of the CRC: shift right, and XOR 0xA001 if the bit shifted out is 1 (R141). -/
def crcBit (crc : Half) : Half :=
  if crc.getLsbD 0 then (crc >>> 1) ^^^ 0xA001#16 else crc >>> 1

/-- One byte of the CRC: XOR it in and take eight bits (R141). -/
def crcByte (crc : Half) (b : Byte) : Half :=
  crcBit (crcBit (crcBit (crcBit (crcBit (crcBit (crcBit (crcBit (crc ^^^ b.setWidth 16))))))))

/-- `CRC16(bytes)`, from the initial value 0 (R141). -/
def crc16 (bytes : List Byte) : Half := bytes.foldl crcByte 0#16

/-- The default `CRC16ok(bytes, c0, c1)`: the complement of the CRC, low byte first (R142). -/
def crc16Ok (bytes : List Byte) (c0 c1 : Byte) : Bool :=
  c0 == (~~~ crc16 bytes).extractLsb' 0 8 && c1 == (~~~ crc16 bytes).extractLsb' 8 8

/-- `CRC16ok` of a machine: the default, or the other function that P_CRC16 names (D11, U15). -/
def crcOk (p : Params) (bytes : List Byte) (c0 c1 : Byte) : Bool :=
  match p.crc with
  | .oneWire => crc16Ok bytes c0 c1
  | .other id => Config.otherCrcOk id bytes c0 c1

end Sys2Proof.Machine
end

