-- ==== Sys2Proof/Machine/Flags.lean ====
section
/-!
DEFINITION. STATUS (10_state.md R22 to R25): its fields, the error kinds, and its value at START, at success and at
failure.
-/

namespace Sys2Proof.Machine

/-- The error kinds (R23, 60_exceptions.md R220). -/
inductive Kind where
  | none
  /-- A `BusReset()` found no device. -/
  | noDevice
  /-- A CRC-16 check failed. -/
  | integrity
  /-- The ReadAuthenticatedPage trailer is not 0xFF. -/
  | protocol
  /-- A status byte is not 0xAA. -/
  | authFailed
  /-- A START the core refuses (60_exceptions.md R225). -/
  | illegalOp
  deriving DecidableEq, Repr

/-- STATUS.KIND codes (R23). -/
def Kind.code : Kind → BitVec 3
  | .none => 0
  | .noDevice => 1
  | .integrity => 2
  | .protocol => 3
  | .authFailed => 4
  | .illegalOp => 5

/-- BUSY, bit 0 (R22). -/
def busy (st : Half) : Bool := st.getLsbD 0

/-- DONE, bit 1 (R22). -/
def done (st : Half) : Bool := st.getLsbD 1

/-- ERR, bit 2 (R22). -/
def err (st : Half) : Bool := st.getLsbD 2

/-- KIND, bits 5:3 (R22). -/
def kindField (st : Half) : BitVec 3 := st.extractLsb' 3 3

/-- STAGE, bits 8:6 (R22). -/
def stageField (st : Half) : BitVec 3 := st.extractLsb' 6 3

/-- OPC, bits 12:9 (R22). -/
def opcField (st : Half) : BitVec 4 := st.extractLsb' 9 4

/-- RSV, bits 15:13 (R22). -/
def rsvField (st : Half) : BitVec 3 := st.extractLsb' 13 3

/-- A STATUS word from its fields, `BUSY | DONE<<1 | ERR<<2 | KIND<<3 | STAGE<<6 | OPC<<9`, RSV = 0 (R22,
95_test_vectors.md). -/
def statusWord (busyBit doneBit errBit : Bool) (kind stage : BitVec 3) (opc : BitVec 4) : Half :=
  (BitVec.ofBool busyBit).setWidth 16 ||| (BitVec.ofBool doneBit).setWidth 16 <<< 1
    ||| (BitVec.ofBool errBit).setWidth 16 <<< 2 ||| kind.setWidth 16 <<< 3 ||| stage.setWidth 16 <<< 6
    ||| opc.setWidth 16 <<< 9

/-- STATUS at a START with OP = `op`: BUSY = 1, OPC = `op`, the rest 0 (R44). -/
def statusStarted (op : BitVec 4) : Half := statusWord true false false 0 0 op

/-- STATUS at success: DONE = 1, OPC unchanged, the rest 0 (60_exceptions.md R226). -/
def statusSucceeded (st : Half) : Half := statusWord false true false 0 0 (opcField st)

/-- STATUS at a failure: DONE = ERR = 1, the kind and the stage, OPC unchanged (60_exceptions.md R221). -/
def statusFailed (st : Half) (kind : Kind) (stage : BitVec 3) : Half :=
  statusWord false true true kind.code stage (opcField st)

end Sys2Proof.Machine
end

