-- ==== Sys2Proof/Machine/Operands.lean ====
section
/-!
DEFINITION. How multi-byte values are assembled and split (20_memory.md section 2), where the bytes of a wire frame
come from (30_encoding.md R95), and the wire command bytes and frames (R86 to R93).
-/

namespace Sys2Proof.Machine

/-- `lo(a)`: the low byte of a 16-bit value (00_scope.md section 5). -/
def lo (a : Half) : Byte := a.extractLsb' 0 8

/-- `hi(a)`: the high byte of a 16-bit value (00_scope.md section 5). -/
def hi (a : Half) : Byte := a.extractLsb' 8 8

/-- A 16-bit value from its low and high byte: `zext_16(high) << 8 OR zext_16(low)` (10_state.md R36, 20_memory.md R66). -/
def half (low high : Byte) : Half := high.setWidth 16 <<< 8 ||| low.setWidth 16

/-- `be32(b0, b1, b2, b3)`: the first byte most significant (00_scope.md section 5, 20_memory.md R65). -/
def be32 (b0 b1 b2 b3 : Byte) : Word :=
  b0.setWidth 32 <<< 24 ||| b1.setWidth 32 <<< 16 ||| b2.setWidth 32 <<< 8 ||| b3.setWidth 32

/-- `le_bytes(w)`: the bytes of a word, least significant first (00_scope.md section 5). -/
def leBytes (w : Word) : List Byte :=
  [w.extractLsb' 0 8, w.extractLsb' 8 8, w.extractLsb' 16 8, w.extractLsb' 24 8]

/-- The `n` bytes of `l` from position `start`, as an array register holds them, first byte in element 0
(00_scope.md R5). -/
def bytesAt (n start : Nat) (l : List Byte) : Vector Byte n :=
  Vector.ofFn fun j => l.getD (start + j.val) 0

/-- Byte `i` of the bytes received in the running bus step. -/
def rxByte (p : Pending) (i : Nat) : Byte := p.rx.getD i 0

/-- The byte a `BusWrite` sends. -/
def srcByte (p : Pending) : ByteSrc → Byte
  | .byte b => b
  | .pendingTaLo => lo p.ta
  | .pendingTaHi => hi p.ta
  | .pendingEs => p.es

/-- The wire command bytes (R86). -/
def wireByte (p : Params) : WireCommand → Byte
  | .writeScratchpad => 0x0F
  | .readScratchpad => 0xAA
  | .refreshScratchpad => 0xA3
  | .copyScratchpad => p.copyCmd
  | .readAuthenticatedPage => 0xA5
  | .loadFirstSecret => 0x5A
  | .readMemory => 0xF0

/-- The three bytes every addressed frame begins with: command, address low byte, address high byte (R87, R91, R93;
20_memory.md R64). -/
def commandFrame (cmd : Byte) (addr : Half) : List Byte := [cmd, lo addr, hi addr]

/-- The eleven bytes WriteScratchpad and RefreshScratchpad send (R87, R89). -/
def scratchpadFrame (cmd : Byte) (addr : Half) (d : Vector Byte 8) : List Byte :=
  commandFrame cmd addr ++ d.toList

/-- The scratchpad buffer of ReadAuthenticatedWithChallenge: four zeros, the challenge, a zero (R96). -/
def challengeBuffer (chal : Vector Byte 3) : Vector Byte 8 :=
  #v[0x00, 0x00, 0x00, 0x00, chal[0], chal[1], chal[2], 0x00]

/-- The success value of a status byte (R94). -/
def statusSuccess : Byte := 0xAA

/-- The required value of the ReadAuthenticatedPage trailer (R94). -/
def trailerRequired : Byte := 0xFF

/-- The address ProvisionInitialSecret writes the secret to (20_memory.md R73). -/
def secretAddress : Half := 0x0080

/-- The duration parameter of a wait (00_scope.md section 4). -/
def waitTime (p : Params) : WaitParam → Nat
  | .sha => p.tSha
  | .prog => p.tProg

end Sys2Proof.Machine
end

