-- ==== Sys2Proof/Machine/Sha.lean ====
section
/-!
DEFINITION. The functions of the MAC engine (40_mac_engine.md sections 1 and 2): ComputeDigest and SerializeMAC as pure
functions, and the same round as one step of the engine's working state (10_state.md R46).
-/

namespace Sys2Proof.Machine

/-- `rotl_n(x)` (00_scope.md R4). -/
def rotl (n : Nat) (x : Word) : Word := (x <<< n) ||| (x >>> (32 - n))

/-- The initial state (R110). -/
def sha1Iv : Working :=
  { a := 0x67452301, b := 0xEFCDAB89, c := 0x98BADCFE, d := 0x10325476, e := 0xC3D2E1F0 }

/-- The round constant K(t) (R111). -/
def roundConstant (t : Nat) : Word :=
  if t < 20 then 0x5A827999
  else if t < 40 then 0x6ED9EBA1
  else if t < 60 then 0x8F1BBCDC
  else 0xCA62C1D6

/-- "choose" (R112). -/
def chooseFn (x y z : Word) : Word := (x &&& y) ||| (~~~x &&& z)

/-- "parity" (R112). -/
def parityFn (x y z : Word) : Word := x ^^^ y ^^^ z

/-- "majority" (R112). -/
def majorityFn (x y z : Word) : Word := (x &&& y) ||| (x &&& z) ||| (y &&& z)

/-- The nonlinear function of round t (R112). -/
def roundFn (t : Nat) (x y z : Word) : Word :=
  if t < 20 then chooseFn x y z
  else if t < 40 then parityFn x y z
  else if t < 60 then majorityFn x y z
  else parityFn x y z

/-- Round t with schedule word `w` (R114). -/
def shaRound (t : Nat) (w : Word) (v : Working) : Working :=
  { a := rotl 5 v.a + roundFn t v.b v.c v.d + v.e + roundConstant t + w
    b := v.a
    c := rotl 30 v.b
    d := v.c
    e := v.d }

/-- The next schedule word from the words before it, newest first: `rotl_1(W[t-3] XOR W[t-8] XOR W[t-14] XOR W[t-16])`
(R113). -/
def nextScheduleWord (recent : List Word) : Word :=
  rotl 1 (recent.getD 2 0 ^^^ recent.getD 7 0 ^^^ recent.getD 13 0 ^^^ recent.getD 15 0)

/-- `n` more schedule words in front of those given, newest first (R113). -/
def extendSchedule : Nat → List Word → List Word
  | 0, recent => recent
  | n + 1, recent => extendSchedule n (nextScheduleWord recent :: recent)

/-- The message schedule W[0..79] of a block (R113). -/
def schedule (block : Vector Word 16) : List Word :=
  (extendSchedule 64 block.toList.reverse).reverse

/-- The rounds from round `t` on, one for each schedule word given (R114). -/
def shaRounds : Nat → List Word → Working → Working
  | _, [], v => v
  | t, w :: ws, v => shaRounds (t + 1) ws (shaRound t w v)

/-- The working words as the five words of H, the "a" word first (10_state.md R42). -/
def digestWords (v : Working) : Vector Word 5 := #v[v.a, v.b, v.c, v.d, v.e]

/-- `ComputeDigest`: the working state after round 79, with no final addition (R115). -/
def computeDigest (block : Vector Word 16) : Vector Word 5 :=
  digestWords (shaRounds 0 (schedule block) sha1Iv)

/-- `SerializeMAC`: word 4 first, each word least significant byte first (R122). -/
def serializeMac (h : Vector Word 5) : Vector Byte 20 :=
  bytesAt 20 0 (leBytes h[4] ++ leBytes h[3] ++ leBytes h[2] ++ leBytes h[1] ++ leBytes h[0])

/-- W[i] of the engine's schedule store (10_state.md R46). -/
def scheduleWordAt (w : Vector Word 80) (i : Nat) : Word := w[i]?.getD 0

/-- The engine takes a block: W[0..15] from the block, the working words from the initial state, t = 0
(R110, R113). -/
def macLoad (block : Vector Word 16) (m : MacWork) : MacWork :=
  { w := Vector.ofFn fun i => if h : i.val < 16 then block[i.val] else m.w[i]
    v := sha1Iv
    t := 0 }

/-- The engine makes W[t] if t is at least 16 (R113), takes round t (R114) and counts it; with 80 rounds counted it
does nothing more. -/
def macRound (m : MacWork) : MacWork :=
  if h : m.t.val < 80 then
    let t := m.t.val
    let w :=
      if t < 16 then m.w
      else
        m.w.set t (rotl 1 (scheduleWordAt m.w (t - 3) ^^^ scheduleWordAt m.w (t - 8)
          ^^^ scheduleWordAt m.w (t - 14) ^^^ scheduleWordAt m.w (t - 16)))
    { w := w, v := shaRound t (scheduleWordAt w t) m.v, t := ⟨t + 1, by omega⟩ }
  else m

end Sys2Proof.Machine
end

