-- ==== Sys2Proof/Machine/Ops.lean ====
section
/-!
DEFINITION. The shared operations: the MEM buffer, the bus primitives, the two ends of an operation (`raise`,
60_exceptions.md R221, and `succeed`, R226; there is no return from an error, R233), one position of pseudocode, START,
running an operation to its end, and reset.
-/

namespace Sys2Proof.Machine

/-! ### The MEM buffer -/

/-- What an index that is not listed reads as: MEM resets to all 0x00 (10_state.md R20). -/
def memDefault : Byte := 0x00

/-- MEM[a]. -/
def memRead : Memory → Nat → Byte
  | [], _ => memDefault
  | (b, v) :: m, a => if a = b then v else memRead m a

/-- MEM[a] <- v, keeping the canonical form. -/
def memWrite : Memory → Nat → Byte → Memory
  | [], a, v => if v = memDefault then [] else [(a, v)]
  | (b, w) :: m, a, v =>
    if a < b then (if v = memDefault then (b, w) :: m else (a, v) :: (b, w) :: m)
    else if a = b then (if v = memDefault then m else (a, v) :: m)
    else (b, w) :: memWrite m a v

/-- MEM[a], MEM[a+1], ... <- the bytes given. -/
def memWriteBytes : Memory → Nat → List Byte → Memory
  | m, _, [] => m
  | m, a, v :: vs => memWriteBytes (memWrite m a v) (a + 1) vs

/-- The canonical form: indices strictly rising, and no entry equal to what an unlisted index reads as. -/
abbrev Memory.wf (m : Memory) : Prop :=
  m.Pairwise (fun x y => x.1 < y.1) ∧ ∀ c ∈ m, c.2 ≠ memDefault

/-! ### The bus primitives (00_scope.md section 5, 41_crc_bus.md section 2) -/

/-- An event joins the trace (R146). -/
def Bus.append (b : Bus) (e : BusEvent) : Bus := { b with trace := b.trace ++ [e] }

/-- `BusReset()`: the presence answer is a draw (R145), event `RST(p)`. -/
def busReset (b : Bus) : Bool × Bus :=
  match b.presence with
  | p :: ps => (p, Bus.append { b with presence := ps } (.rst p))
  | [] => (Config.devicePresent b.trace, b.append (.rst (Config.devicePresent b.trace)))

/-- `BusSelect(rom)`: event `SEL(rom)`. -/
def busSelect (rom : Vector Byte 8) (b : Bus) : Bus := b.append (.sel rom)

/-- `BusWrite(v)`: event `W(v)`; it ends a power hold (R147). -/
def busWrite (v : Byte) (b : Bus) : Bus := Bus.append { b with power := false } (.w v)

/-- `BusHold()`: event `PWR_ON`, POWER = 1 (10_state.md R45). -/
def busHold (b : Bus) : Bus := Bus.append { b with power := true } .pwrOn

/-- `BusRelease()`: event `PWR_OFF`, POWER = 0 (10_state.md R45). -/
def busRelease (b : Bus) : Bus := Bus.append { b with power := false } .pwrOff

/-- `Wait(t)`: event `DLY(t)` (R149). -/
def busWait (t : Nat) (b : Bus) : Bus := b.append (.dly t)

/-- `BusRead()`: the byte is a draw (R145), event `R(v)`; it ends a power hold (R147). -/
def busRead (b : Bus) : Byte × Bus :=
  match b.bytes with
  | v :: vs => (v, Bus.append { b with power := false, bytes := vs } (.r v))
  | [] =>
    (Config.byteOnBus b.trace, Bus.append { b with power := false } (.r (Config.byteOnBus b.trace)))

/-- What a reset of the core does on the bus: `PWR_OFF` if a hold is active, nothing else
(70_reset_and_hazards.md R251). -/
def busOnCoreReset (b : Bus) : Bus := if b.power then busRelease b else b

/-! ### The ends of an operation -/

/-- The latch and the MAC engine's working state become unspecified: fresh free values (10_state.md R46,
70_reset_and_hazards.md R250, U6; entry 2). -/
def State.forget (s : State) : State :=
  { s with
    latch := Config.unspecifiedLatch s.free
    work := Config.unspecifiedWork s.free
    free := s.free + 1 }

/-- `raise K` with the composite step number, or 0: the operation ends in one step, pending results are discarded, STATUS
records kind and stage, FSM is idle; the result registers and the bus are as they were (60_exceptions.md R221, R224). -/
def State.raise (kind : Kind) (stage : BitVec 3) (s : State) : State :=
  State.forget
    { s with status := statusFailed s.status kind stage, fsm := .idle, pending := .empty }

/-- One result register takes its value from the pending buffer. A successful RDMEM writes as many bytes of MEM as it
read, the other bytes stay, and MEM has P_MEMBUF bytes (10_state.md R40). -/
def commitOne (membuf : Nat) (p : Pending) (res : Results) : ResultReg → Results
  | .rta => { res with rta := p.ta }
  | .res => { res with res := p.es }
  | .rdata => { res with rdata := p.rdata }
  | .page => { res with page := p.page }
  | .macrd => { res with macrd := p.mac }
  | .mem => { res with mem := memWriteBytes res.mem 0 (p.mem.take membuf) }
  | .h => { res with h := p.h }
  | .macout => { res with macout := p.macout }

/-- The listed result registers take their values from the pending buffer, all in one step (20_memory.md R71,
60_exceptions.md R226). -/
def commit (membuf : Nat) (p : Pending) (regs : List ResultReg) (res : Results) : Results :=
  regs.foldl (commitOne membuf p) res

/-- `succeed(results)`: the operation ends in one step, the listed registers are committed, STATUS shows success, FSM is
idle (60_exceptions.md R226). -/
def State.succeed (regs : List ResultReg) (s : State) : State :=
  State.forget
    { s with
      status := statusSucceeded s.status
      results := commit s.params.membuf s.pending regs s.results
      fsm := .idle
      pending := .empty }

/-! ### One position of pseudocode -/

/-- The operation goes on at its next position (R44). -/
def Fsm.next : Fsm → Fsm
  | .idle => .idle
  | .run op k => .run op (k + 1)

/-- The operation goes on at its next position with this bus. -/
def State.advanceBus (b : Bus) (s : State) : State := { s with bus := b, fsm := s.fsm.next }

/-- The operation goes on at its next position with this bus and this pending buffer. -/
def State.advanceBusPending (b : Bus) (p : Pending) (s : State) : State :=
  { s with bus := b, pending := p, fsm := s.fsm.next }

/-- The operation goes on at its next position with this pending buffer. -/
def State.advancePending (p : Pending) (s : State) : State := { s with pending := p, fsm := s.fsm.next }

/-- The operation goes on at its next position with this working state of the MAC engine. -/
def State.advanceWork (m : MacWork) (s : State) : State := { s with work := m, fsm := s.fsm.next }

/-- The operation goes on at its next position. -/
def State.advance (s : State) : State := { s with fsm := s.fsm.next }

/-- What one position of pseudocode does. -/
def microStep (m : Micro) (s : State) : State :=
  match m with
  | .busReset stage =>
    if (busReset s.bus).1 then
      s.advanceBusPending (busReset s.bus).2 { s.pending with rx := [] }
    else State.raise .noDevice stage { s with bus := (busReset s.bus).2 }
  | .busSelect => s.advanceBus (busSelect s.latch.operands.rom s.bus)
  | .busWrite src => s.advanceBus (busWrite (srcByte s.pending src) s.bus)
  | .busHold => s.advanceBus (busHold s.bus)
  | .wait p => s.advanceBus (busWait (waitTime s.params p) s.bus)
  | .busRelease => s.advanceBus (busRelease s.bus)
  | .busRead =>
    s.advanceBusPending (busRead s.bus).2 { s.pending with rx := s.pending.rx ++ [(busRead s.bus).1] }
  | .checkTrailer stage pos =>
    if rxByte s.pending pos = trailerRequired then s.advance else s.raise .protocol stage
  | .checkCrc stage sent start len =>
    if crcOk s.params (sent ++ (s.pending.rx.drop start).take len) (rxByte s.pending (start + len))
        (rxByte s.pending (start + len + 1)) then s.advance
    else s.raise .integrity stage
  | .checkStatus stage pos =>
    if rxByte s.pending pos = statusSuccess then s.advance else s.raise .authFailed stage
  | .keepScratchpad =>
    s.advancePending
      { s.pending with
        ta := half (rxByte s.pending 0) (rxByte s.pending 1)
        es := rxByte s.pending 2
        rdata := bytesAt 8 3 s.pending.rx }
  | .keepPage =>
    s.advancePending
      { s.pending with page := bytesAt 32 0 s.pending.rx, mac := bytesAt 20 35 s.pending.rx }
  | .keepMemory => s.advancePending { s.pending with mem := s.pending.rx }
  | .macLoad => s.advanceWork (macLoad s.latch.operands.blk s.work)
  | .macRound => s.advanceWork (macRound s.work)
  | .macKeep => s.advancePending { s.pending with h := digestWords s.work.v }
  | .macSerialize => s.advancePending { s.pending with macout := serializeMac s.latch.h }
  | .succeed regs => s.succeed regs

/-- Positions of pseudocode one after another until the operation ends (60_exceptions.md R221: no statement after a
`raise` runs). -/
def runMicro : List Micro → State → State
  | [], s => s
  | m :: ms, s =>
    match (microStep m s).fsm with
    | .idle => microStep m s
    | .run _ _ => runMicro ms (microStep m s)

/-! ### START -/

/-- A START is made with the CMD byte `cmd`: STATUS shows BUSY and the OP field, the operands and H are latched
(10_state.md R41, R44). -/
def State.latchOperands (cmd : Byte) (s : State) : State :=
  { s with
    cmd := cmd
    status := statusStarted (cmdOp cmd)
    latch := { operands := s.operands, h := s.results.h }
    pending := .empty }

/-- A START the core refuses: it completes at once with ILLEGAL_OP, no bus event and no result (30_encoding.md R82, R83,
42_bus_commands.md R174; entry 9). -/
def State.refuseStart (cmd : Byte) (s : State) : State :=
  State.raise .illegalOp 0 (s.latchOperands cmd)

/-- A START of operation `i`: the latch is taken and FSM is RUN(i, 0) (10_state.md R44). -/
def State.start (i : Instr) (s : State) : State :=
  { s.latchOperands (encode i) with fsm := .run i 0 }

/-- The START check that concerns an operand: RDMEM with LEN > P_MEMBUF (60_exceptions.md R225). -/
def State.startRefused (i : Instr) (s : State) : Bool :=
  i == .rdmem && decide (s.params.membuf < s.operands.len.toNat)

/-- Operation `i` with pseudocode `program`, from its START to its completion, with no host access in between: a START
while BUSY has no effect at all (10_state.md R21), a refused one completes at once (60_exceptions.md R225), any other runs
to its end (entry 4). -/
def runOperation (i : Instr) (program : Params → Latch → List Micro) (s : State) : State :=
  if busy s.status then s
  else if s.startRefused i then s.refuseStart (encode i)
  else runMicro (program (s.start i).params (s.start i).latch) (s.start i)

/-! ### Reset -/

/-- A reset of the core: every field as after `State.reset`, but that the machine keeps its parameters, the trace records
`PWR_OFF` if a hold was active, the latch and the MAC engine's working state are unspecified, and what is outside the core
(answers to come, the schedule, the host's reads) stays (70_reset_and_hazards.md R250, R251, R253; entries 2, 12). -/
def coreReset (s : State) : State :=
  State.forget
    { State.reset with
      params := s.params
      bus := { busOnCoreReset s.bus with power := false }
      inputs := s.inputs
      reads := s.reads
      free := s.free }

end Sys2Proof.Machine
end

