-- ==== Sys2Proof/Machine/BusCommands.lean ====
section
/-!
DEFINITION. The seven bus primitives (42_bus_commands.md). Each procedure `...P` is the list of positions of the spec's
pseudocode; `stage` is the composite step it runs as, 0 when it runs alone.
-/

namespace Sys2Proof.Machine

/-- `Prologue(rom)` (41_crc_bus.md R148). -/
def prologue (stage : BitVec 3) : List Micro := [.busReset stage, .busSelect]

/-- `WriteAll(bytes)` (41_crc_bus.md R152). -/
def writeAll (bytes : List Byte) : List Micro := bytes.map fun b => .busWrite (.byte b)

/-- `ReadN(n)` (41_crc_bus.md R152). -/
def readN (n : Nat) : List Micro := List.replicate n .busRead

/-- The source of a target address: its low and its high byte. -/
abbrev AddrSrc := ByteSrc × ByteSrc

/-- A target address fixed at START. -/
def givenAddr (addr : Half) : AddrSrc := (.byte (lo addr), .byte (hi addr))

/-- The target address the operation's own ReadScratchpad step returned (43_composite.md R207). -/
def returnedAddr : AddrSrc := (.pendingTaLo, .pendingTaHi)

/-- `WriteAll([cmd, lo(addr), hi(addr), es])` (R166, R170). -/
def writeCommandEs (cmd : Byte) (addr : AddrSrc) (es : ByteSrc) : List Micro :=
  [.busWrite (.byte cmd), .busWrite addr.1, .busWrite addr.2, .busWrite es]

/-- `BusHold(); Wait(P_T_SHA)` (R166). -/
def holdForSha : List Micro := [.busHold, .wait .sha]

/-- `BusHold(); Wait(P_T_PROG); BusRelease()` (R166, R170). -/
def holdForProgramming : List Micro := [.busHold, .wait .prog, .busRelease]

/-- `s <- BusRead(); if s != 0xAA then raise AUTH_FAILED`, where the status is byte `pos` of the bytes received
(R166, R168, R170). -/
def readStatus (stage : BitVec 3) (pos : Nat) : List Micro := [.busRead, .checkStatus stage pos]

/-- `WriteScratchpadP(rom, addr, d, cmd)` (R160). -/
def writeScratchpadP (stage : BitVec 3) (addr : Half) (d : Vector Byte 8) (cmd : Byte) : List Micro :=
  prologue stage
    ++ writeAll (scratchpadFrame cmd addr d)
    ++ readN 2
    ++ [.checkCrc stage (scratchpadFrame cmd addr d) 0 0]

/-- `ReadScratchpadP(rom)` (R162). -/
def readScratchpadP (p : Params) (stage : BitVec 3) : List Micro :=
  prologue stage
    ++ writeAll [wireByte p .readScratchpad]
    ++ readN 11
    ++ readN 2
    ++ [.checkCrc stage [wireByte p .readScratchpad] 0 11, .keepScratchpad]

/-- `RefreshScratchpadP(rom, addr, d)` (R164). -/
def refreshScratchpadP (p : Params) (stage : BitVec 3) (addr : Half) (d : Vector Byte 8) : List Micro :=
  writeScratchpadP stage addr d (wireByte p .refreshScratchpad)

/-- `CopyScratchpadP(rom, addr, es, mac)` (R166). -/
def copyScratchpadP (p : Params) (stage : BitVec 3) (addr : AddrSrc) (es : ByteSrc) (mac : Vector Byte 20) :
    List Micro :=
  prologue stage
    ++ writeCommandEs (wireByte p .copyScratchpad) addr es
    ++ holdForSha
    ++ writeAll mac.toList
    ++ holdForProgramming
    ++ readStatus stage 0

/-- `ReadAuthenticatedPageP(rom, addr)` (R168): trailer, then crc1, then the wait, crc2 and the status. -/
def readAuthenticatedPageP (p : Params) (stage : BitVec 3) (addr : Half) : List Micro :=
  prologue stage
    ++ writeAll (commandFrame (wireByte p .readAuthenticatedPage) addr)
    ++ readN 33
    ++ readN 2
    ++ ([.checkTrailer stage 32, .checkCrc stage (commandFrame (wireByte p .readAuthenticatedPage) addr) 0 33,
        .wait .sha] : List Micro)
    ++ readN 20
    ++ readN 2
    ++ [.checkCrc stage [] 35 20]
    ++ readStatus stage 57
    ++ ([.keepPage] : List Micro)

/-- `LoadFirstSecretP(rom, addr, es)` (R170). -/
def loadFirstSecretP (p : Params) (stage : BitVec 3) (addr : AddrSrc) (es : ByteSrc) : List Micro :=
  prologue stage
    ++ writeCommandEs (wireByte p .loadFirstSecret) addr es
    ++ holdForProgramming
    ++ readStatus stage 0

/-- `ReadMemoryP(rom, addr, n)` (R172). -/
def readMemoryP (p : Params) (stage : BitVec 3) (addr : Half) (n : Nat) : List Micro :=
  prologue stage
    ++ writeAll (commandFrame (wireByte p .readMemory) addr)
    ++ readN n
    ++ [.keepMemory]

/-- WSPAD's pseudocode (R160). -/
def wspadProgram (p : Params) (l : Latch) : List Micro :=
  writeScratchpadP 0 l.operands.addr l.operands.data (wireByte p .writeScratchpad) ++ [.succeed []]

/-- RSPAD's pseudocode (R162). -/
def rspadProgram (p : Params) (_ : Latch) : List Micro :=
  readScratchpadP p 0 ++ [.succeed [.rta, .res, .rdata]]

/-- RFSPAD's pseudocode (R164). -/
def rfspadProgram (p : Params) (l : Latch) : List Micro :=
  refreshScratchpadP p 0 l.operands.addr l.operands.data ++ [.succeed []]

/-- CPSPAD's pseudocode (R166). -/
def cpspadProgram (p : Params) (l : Latch) : List Micro :=
  copyScratchpadP p 0 (givenAddr l.operands.addr) (.byte l.operands.esin) l.operands.macin ++ [.succeed []]

/-- RDAUTH's pseudocode (R168). -/
def rdauthProgram (p : Params) (l : Latch) : List Micro :=
  readAuthenticatedPageP p 0 l.operands.addr ++ [.succeed [.page, .macrd]]

/-- LDSEC's pseudocode (R170). -/
def ldsecProgram (p : Params) (l : Latch) : List Micro :=
  loadFirstSecretP p 0 (givenAddr l.operands.addr) (.byte l.operands.esin) ++ [.succeed []]

/-- RDMEM's pseudocode after its START check on LEN (R172, R174). -/
def rdmemProgram (p : Params) (l : Latch) : List Micro :=
  readMemoryP p 0 l.operands.addr l.operands.len.toNat ++ [.succeed [.mem]]

/-- WSPAD (R160). -/
def execWspad (s : State) : Host.Outcome State Fault Refusal :=
  .next (runOperation .wspad wspadProgram s)

/-- RSPAD (R162). -/
def execRspad (s : State) : Host.Outcome State Fault Refusal :=
  .next (runOperation .rspad rspadProgram s)

/-- RFSPAD (R164). -/
def execRfspad (s : State) : Host.Outcome State Fault Refusal :=
  .next (runOperation .rfspad rfspadProgram s)

/-- CPSPAD (R166). -/
def execCpspad (s : State) : Host.Outcome State Fault Refusal :=
  .next (runOperation .cpspad cpspadProgram s)

/-- RDAUTH (R168). -/
def execRdauth (s : State) : Host.Outcome State Fault Refusal :=
  .next (runOperation .rdauth rdauthProgram s)

/-- LDSEC (R170). -/
def execLdsec (s : State) : Host.Outcome State Fault Refusal :=
  .next (runOperation .ldsec ldsecProgram s)

/-- RDMEM (R172); a LEN above P_MEMBUF is refused at START (R174). -/
def execRdmem (s : State) : Host.Outcome State Fault Refusal :=
  .next (runOperation .rdmem rdmemProgram s)

end Sys2Proof.Machine
end

