-- ==== Sys2Proof/Machine/Composite.lean ====
section
/-!
DEFINITION. The three composite operations (43_composite.md): steps are primitive procedures in a fixed order, each with
its own prologue, and the first failure ends the operation with its step number (R200).
-/

namespace Sys2Proof.Machine

/-- RDCHAL's pseudocode (R201). -/
def rdchalProgram (p : Params) (l : Latch) : List Micro :=
  writeScratchpadP 1 l.operands.addr (challengeBuffer l.operands.chal) (wireByte p .writeScratchpad)
    ++ readAuthenticatedPageP p 2 l.operands.addr
    ++ [.succeed [.page, .macrd]]

/-- PROVSEC's pseudocode (R203): step 3 sends the TA and ES that step 2 returned. -/
def provsecProgram (p : Params) (l : Latch) : List Micro :=
  writeScratchpadP 1 secretAddress l.operands.secret (wireByte p .writeScratchpad)
    ++ readScratchpadP p 2
    ++ loadFirstSecretP p 3 returnedAddr .pendingEs
    ++ [.succeed [.rta, .res, .rdata]]

/-- WRAUTH's pseudocode (R205): step 3 sends the returned TA and ES, step 5 the host's ADDR and the returned ES
(conflict C7). -/
def wrauthProgram (p : Params) (l : Latch) : List Micro :=
  writeScratchpadP 1 l.operands.addr l.operands.data (wireByte p .writeScratchpad)
    ++ readScratchpadP p 2
    ++ copyScratchpadP p 3 returnedAddr .pendingEs l.operands.macin
    ++ refreshScratchpadP p 4 l.operands.addr l.operands.data
    ++ loadFirstSecretP p 5 (givenAddr l.operands.addr) .pendingEs
    ++ [.succeed [.rta, .res, .rdata]]

/-- RDCHAL (R201). -/
def execRdchal (s : State) : Host.Outcome State Fault Refusal :=
  .next (runOperation .rdchal rdchalProgram s)

/-- PROVSEC (R203). -/
def execProvsec (s : State) : Host.Outcome State Fault Refusal :=
  .next (runOperation .provsec provsecProgram s)

/-- WRAUTH (R205). -/
def execWrauth (s : State) : Host.Outcome State Fault Refusal :=
  .next (runOperation .wrauth wrauthProgram s)

end Sys2Proof.Machine
end

