-- ==== Sys2Proof/Machine/MacEngine.lean ====
section
/-!
DEFINITION. The operations of the MAC engine: DIGEST and SERMAC (40_mac_engine.md section 3). Neither touches the bus.
-/

namespace Sys2Proof.Machine

/-- DIGEST's pseudocode: `h <- ComputeDigest(L.BLK); succeed({H <- h})` (R120), the digest taken one round at a position
(10_state.md R46, entry 5). -/
def digestProgram (_ : Params) (_ : Latch) : List Micro :=
  .macLoad :: (List.replicate 80 .macRound ++ [.macKeep, .succeed [.h]])

/-- SERMAC's pseudocode: `m <- SerializeMAC(L.H); succeed({MACOUT <- m})` (R123). -/
def sermacProgram (_ : Params) (_ : Latch) : List Micro :=
  [.macSerialize, .succeed [.macout]]

/-- DIGEST (R120). -/
def execDigest (s : State) : Host.Outcome State Fault Refusal :=
  .next (runOperation .digest digestProgram s)

/-- SERMAC (R123). -/
def execSermac (s : State) : Host.Outcome State Fault Refusal :=
  .next (runOperation .sermac sermacProgram s)

end Sys2Proof.Machine
end

