-- ==== Sys2Proof/Machine/Sequencer.lean ====
section
/-!
DEFINITION. The sequencer (10_state.md R44, R49): the pseudocode of the running operation, and the core's move by one
position of it.
-/

namespace Sys2Proof.Machine

/-- The pseudocode of an operation, from the parameters and the latch. -/
def programOf (i : Instr) (p : Params) (l : Latch) : List Micro :=
  match i with
  | .digest => digestProgram p l
  | .sermac => sermacProgram p l
  | .wspad => wspadProgram p l
  | .rspad => rspadProgram p l
  | .rfspad => rfspadProgram p l
  | .cpspad => cpspadProgram p l
  | .rdauth => rdauthProgram p l
  | .ldsec => ldsecProgram p l
  | .rdmem => rdmemProgram p l
  | .rdchal => rdchalProgram p l
  | .provsec => provsecProgram p l
  | .wrauth => wrauthProgram p l

/-- One move of the core alone: idle, it does nothing (60_exceptions.md R241); running, it takes the position its FSM
names (R44). -/
def coreTick (s : State) : Host.Outcome State Fault Refusal :=
  match s.fsm with
  | .idle => .next s
  | .run op k =>
    match (programOf op s.params s.latch)[k]? with
    | some m => .next (microStep m s)
    | none => .fault .noSuchPosition

/-- The running operation goes on to its completion (30_encoding.md R98, `WAIT`; 70_reset_and_hazards.md R262). -/
def settle (s : State) : Host.Outcome State Fault Refusal :=
  match s.fsm with
  | .idle => .next s
  | .run op k =>
    if k < (programOf op s.params s.latch).length then
      .next (runMicro ((programOf op s.params s.latch).drop k) s)
    else .fault .noSuchPosition

end Sys2Proof.Machine
end

