-- ==== Sys2Proof/Machine/HostPort.lean ====
section
/-!
DEFINITION. The host's side (10_state.md R20, R21, R26): the register file's table, HostRead and HostWrite, and the CMD
write that makes a START.
-/

namespace Sys2Proof.Machine

/-- The index of a register (R20). -/
def regIndex : Reg → BitVec 8
  | .cmd => 0x00
  | .status => 0x01
  | .rom => 0x02
  | .addr => 0x03
  | .esin => 0x04
  | .data => 0x05
  | .chal => 0x06
  | .secret => 0x07
  | .macin => 0x08
  | .len => 0x09
  | .blk => 0x0A
  | .rta => 0x10
  | .res => 0x11
  | .rdata => 0x12
  | .page => 0x13
  | .macrd => 0x14
  | .mem => 0x15
  | .h => 0x16
  | .macout => 0x17

/-- The register with an index; 0x0B to 0x0F and 0x18 to 0xFF are unassigned (R20). -/
def regAt (index : BitVec 8) : Option Reg :=
  match index.toNat with
  | 0x00 => some .cmd
  | 0x01 => some .status
  | 0x02 => some .rom
  | 0x03 => some .addr
  | 0x04 => some .esin
  | 0x05 => some .data
  | 0x06 => some .chal
  | 0x07 => some .secret
  | 0x08 => some .macin
  | 0x09 => some .len
  | 0x0A => some .blk
  | 0x10 => some .rta
  | 0x11 => some .res
  | 0x12 => some .rdata
  | 0x13 => some .page
  | 0x14 => some .macrd
  | 0x15 => some .mem
  | 0x16 => some .h
  | 0x17 => some .macout
  | _ => none

/-- The element count of a register (R20). -/
def regCount (p : Params) : Reg → Nat
  | .cmd | .status | .addr | .esin | .len | .rta | .res => 1
  | .rom | .data | .secret | .rdata => 8
  | .chal => 3
  | .macin | .macrd | .macout => 20
  | .blk => 16
  | .page => 32
  | .mem => p.membuf
  | .h => 5

/-- The element width of a register, in bits (R20). -/
def regWidth : Reg → Nat
  | .status | .addr | .len | .rta => 16
  | .blk | .h => 32
  | .cmd | .rom | .esin | .data | .chal | .secret | .macin | .res | .rdata | .page | .macrd | .mem | .macout => 8

/-- Registers the host may read and write: the operand registers (R20, 10_state.md section 3). -/
def regReadWrite : Reg → Bool
  | .rom | .addr | .esin | .data | .chal | .secret | .macin | .len | .blk => true
  | .cmd | .status | .rta | .res | .rdata | .page | .macrd | .mem | .h | .macout => false

/-- Element `e` of an array register of the host's view, 0 at or beyond its element count (R26). -/
def elementOr0 {n w : Nat} (v : Vector (BitVec w) n) (e : Nat) : Word :=
  match v[e]? with
  | some x => x.setWidth 32
  | none => 0

/-- Element `e` of a register of one element, 0 at or beyond element 1 (R26). -/
def scalarOr0 {w : Nat} (v : BitVec w) (e : Nat) : Word := if e = 0 then v.setWidth 32 else 0

/-- What a read of element `e` of a register returns; CMD reads as 0 (R21, R26). -/
def regRead (s : State) (r : Reg) (e : Nat) : Word :=
  match r with
  | .cmd => 0
  | .status => scalarOr0 s.status e
  | .rom => elementOr0 s.operands.rom e
  | .addr => scalarOr0 s.operands.addr e
  | .esin => scalarOr0 s.operands.esin e
  | .data => elementOr0 s.operands.data e
  | .chal => elementOr0 s.operands.chal e
  | .secret => elementOr0 s.operands.secret e
  | .macin => elementOr0 s.operands.macin e
  | .len => scalarOr0 s.operands.len e
  | .blk => elementOr0 s.operands.blk e
  | .rta => scalarOr0 s.results.rta e
  | .res => scalarOr0 s.results.res e
  | .rdata => elementOr0 s.results.rdata e
  | .page => elementOr0 s.results.page e
  | .macrd => elementOr0 s.results.macrd e
  | .mem => if e < s.params.membuf then (memRead s.results.mem e).setWidth 32 else 0
  | .h => elementOr0 s.results.h e
  | .macout => elementOr0 s.results.macout e

/-- `HostRead(index, element)`: an unassigned index reads 0 (R20, R26). Reads change nothing (20_memory.md R72). -/
def hostRead (index : BitVec 8) (e : Nat) (s : State) : Word :=
  match regAt index with
  | some r => regRead s r e
  | none => 0

/-- Element `e` of an array register becomes the low bits of `v`; no effect at or beyond the element count (R26). -/
def setElement {n w : Nat} (r : Vector (BitVec w) n) (e v : Nat) : Vector (BitVec w) n :=
  r.setIfInBounds e (BitVec.ofNat w v)

/-- Element `e` of a register of one element becomes the low bits of `v`; no effect at or beyond element 1 (R26). -/
def setScalar {w : Nat} (r : BitVec w) (e v : Nat) : BitVec w := if e = 0 then BitVec.ofNat w v else r

/-- A host write to an operand register (10_state.md section 3); the other registers are read-only or write-only and
are not changed by it (R26). -/
def writeOperand (r : Reg) (e v : Nat) (o : Operands) : Operands :=
  match r with
  | .rom => { o with rom := setElement o.rom e v }
  | .addr => { o with addr := setScalar o.addr e v }
  | .esin => { o with esin := setScalar o.esin e v }
  | .data => { o with data := setElement o.data e v }
  | .chal => { o with chal := setElement o.chal e v }
  | .secret => { o with secret := setElement o.secret e v }
  | .macin => { o with macin := setElement o.macin e v }
  | .len => { o with len := setScalar o.len e v }
  | .blk => { o with blk := setElement o.blk e v }
  | .cmd | .status | .rta | .res | .rdata | .page | .macrd | .mem | .h | .macout => o

/-- A host write of CMD: no effect while BUSY (R21, 60_exceptions.md R231), else a START of what it encodes, or a refusal
(30_encoding.md R82, R83, 60_exceptions.md R225). The operation is only begun: FSM is RUN(op, 0). -/
def hostCommand (cmd : Byte) (s : State) : State :=
  if busy s.status then s
  else
    match decode cmd with
    | .operation i => if s.startRefused i then s.refuseStart cmd else s.start i
    | .reservedField => s.refuseStart cmd
    | .reservedCode => s.refuseStart cmd

/-- `HostWrite(index, element, value)` (R20, R21, R26). -/
def hostWrite (index : BitVec 8) (e v : Nat) (s : State) : State :=
  match regAt index with
  | some .cmd => if e = 0 then hostCommand (BitVec.ofNat 8 v) s else s
  | some r => { s with operands := writeOperand r e v s.operands }
  | none => s

/-- A host read whose value the host keeps (entry 11). -/
def recordRead (index : BitVec 8) (e : Nat) (s : State) : State :=
  { s with reads := s.reads ++ [hostRead index e s] }

/-- One turn of the host's `WAIT` loop (30_encoding.md R98): it reads STATUS; with BUSY = 0 it is done and leaves the
schedule, else the core takes one position and the loop stays (entry 17). -/
def waitTurn (rest : List Input) (s : State) : Host.Outcome State Fault Refusal :=
  if busy s.status then coreTick (recordRead (regIndex .status) 0 s)
  else .next (recordRead (regIndex .status) 0 { s with inputs := rest })

end Sys2Proof.Machine
end

