-- ==== Sys2Proof/Machine/Dispatch.lean ====
section
/-!
DEFINITION. One arm per operation: its meaning.
-/

namespace Sys2Proof.Machine

/-- The meaning of an operation, from its START to its completion (30_encoding.md R81). -/
def exec (i : Instr) (s : State) : Host.Outcome State Fault Refusal :=
  match i with
  | .digest => Sys2Proof.Machine.execDigest s
  | .sermac => Sys2Proof.Machine.execSermac s
  | .wspad => Sys2Proof.Machine.execWspad s
  | .rspad => Sys2Proof.Machine.execRspad s
  | .rfspad => Sys2Proof.Machine.execRfspad s
  | .cpspad => Sys2Proof.Machine.execCpspad s
  | .rdauth => Sys2Proof.Machine.execRdauth s
  | .ldsec => Sys2Proof.Machine.execLdsec s
  | .rdmem => Sys2Proof.Machine.execRdmem s
  | .rdchal => Sys2Proof.Machine.execRdchal s
  | .provsec => Sys2Proof.Machine.execProvsec s
  | .wrauth => Sys2Proof.Machine.execWrauth s

end Sys2Proof.Machine
end

