-- ==== Sys2Proof/Machine/Fetch.lean ====
section
/-!
DEFINITION. How a CMD byte comes to be executed (30_encoding.md section 1, R98).
-/

namespace Sys2Proof.Machine

/-- `RUN` with a CMD byte (30_encoding.md R98): with BUSY = 1 the CMD write is dropped and the host waits for the running
operation (10_state.md R21); with BUSY = 0 the byte is decoded and its operation executed, or the START is refused. -/
def runCommand (cmd : Byte) (s : State) : Host.Outcome State Fault Refusal :=
  if busy s.status then settle s
  else
    match decode cmd with
    | .operation i => exec i s
    | .reservedField => .next (s.refuseStart cmd)
    | .reservedCode => .next (s.refuseStart cmd)

end Sys2Proof.Machine
end

