-- ==== Sys2Proof/Machine/Step.lean ====
section
/-!
DEFINITION. One step of the machine: the next item of the schedule, or a move of the core alone when the schedule is
empty (entry 3).
-/

namespace Sys2Proof.Machine

/-- One step. -/
def step (s : State) : Host.Outcome State Fault Refusal :=
  match s.inputs with
  | [] => coreTick s
  | .tick :: rest => coreTick { s with inputs := rest }
  | .write index e v :: rest => .next (hostWrite index e v { s with inputs := rest })
  | .read index e :: rest => .next (recordRead index e { s with inputs := rest })
  | .wait :: rest => waitTurn rest s
  | .run cmd :: rest => runCommand cmd { s with inputs := rest }
  | .reset :: rest => .next (coreReset { s with inputs := rest })

/-- The state with the CMD byte `w` as the host's next access, a `RUN`, in front of the schedule (entry 3). -/
def State.withFetchWord (s : State) (_nbits w : Nat) : State :=
  { s with inputs := .run (BitVec.ofNat 8 w) :: s.inputs }

end Sys2Proof.Machine
end

