-- ==== Sys2Proof/Machine/Block.lean ====
section
/-!
DEFINITION. The MAC input block of ReadAuthenticatedPage as a host forms it, and the host's verification
(40_mac_engine.md section 4; informative there, no operation of the core uses it: entry 19).
-/

namespace Sys2Proof.Machine

/-- The sixteen words of a 64-byte string, each from four bytes, the first most significant (20_memory.md R65). -/
def blockOfBytes (m : Vector Byte 64) : Vector Word 16 :=
  Vector.ofFn fun i => be32 m[4 * i.val] m[4 * i.val + 1] m[4 * i.val + 2] m[4 * i.val + 3]

/-- `P_MP(addr)` (R126): the default formula, or the other function that the parameter names. -/
def mpByte (p : Params) (addr : Half) : Byte :=
  match p.mp with
  | .standard => 0x40#8 ||| ((addr >>> 5) &&& 0x03#16).setWidth 8
  | .other id => Config.otherMp id addr

/-- The 64-byte string of a ReadAuthenticatedPage MAC (R125). -/
def readAuthMessage (p : Params) (secret : Vector Byte 8) (page : Vector Byte 32) (addr : Half) (rom : Vector Byte 8)
    (chal : Vector Byte 3) : Vector Byte 64 :=
  bytesAt 64 0
    (secret.toList.take 4 ++ page.toList ++ [0xFF, 0xFF, 0xFF, 0xFF] ++ [mpByte p addr] ++ rom.toList.take 7
      ++ secret.toList.drop 4 ++ chal.toList ++ [0x80] ++ List.replicate 6 0x00 ++ [0x01, 0xB8])

/-- The block a host writes to BLK to check a ReadAuthenticatedPage MAC (R125, 20_memory.md R65). -/
def readAuthBlock (p : Params) (secret : Vector Byte 8) (page : Vector Byte 32) (addr : Half) (rom : Vector Byte 8)
    (chal : Vector Byte 3) : Vector Word 16 :=
  blockOfBytes (readAuthMessage p secret page addr rom chal)

/-- The host's verification of the MAC a token returned; the core never makes this comparison (R127). -/
def hostVerifies (macrd : Vector Byte 20) (block : Vector Word 16) : Bool :=
  macrd == serializeMac (computeDigest block)

end Sys2Proof.Machine
end

