-- ==== Sys2Proof/WellFormed.lean ====
section
/-!
DEFINITION. The checks on what the host hands to the machine. An operation has no operand field, so every term of
`Instr` is well formed; what can be ill formed is a CMD byte, a set of parameters and a host script.
-/

namespace Sys2Proof

/-- A CMD byte that encodes one of the twelve operations: CMD[7:4] = 0 and CMD[3:0] at most 0xB (30_encoding.md R84). -/
def cmdWellFormed (cmd : Byte) : Bool :=
  cmd.extractLsb' 4 4 == 0#4 && decide (cmd.extractLsb' 0 4 ≤ 0xB#4)

/-- Parameters the spec admits: P_COPY_CMD is not 0x0F (30_encoding.md R86, conflict C1). -/
def Machine.Params.wf (p : Machine.Params) : Bool :=
  p.copyCmd != 0x0F#8

/-- The labels a script defines, in order. -/
def scriptLabels (script : List Line) : List String :=
  script.filterMap (·.label)

/-- A statement whose label, if it has one, is among those the script defines. -/
def Stmt.wf (labels : List String) : Stmt → Bool
  | .jerr l => labels.contains l
  | .jok l => labels.contains l
  | .set _ _ => true
  | .setElement _ _ _ => true
  | .start _ => true
  | .get _ => true
  | .wait => true
  | .run _ => true
  | .halt => true

/-- A host script whose labels are distinct and whose jumps name a label it defines (30_encoding.md R97, R98;
entry 21). -/
def scriptWellFormed (script : List Line) : Bool :=
  decide (scriptLabels script).Nodup && script.all fun line => line.stmt.wf (scriptLabels script)

end Sys2Proof
end

