-- ==== Sys2Proof/Machine/Script.lean ====
section
/-!
DEFINITION. The host script (30_encoding.md R97, R98): the accesses a statement encodes to, the host's control flow, and
a script run against the machine (entries 21, 22).
-/

namespace Sys2Proof.Machine

/-- The host writes `HostWrite(idx(r), i, vi)` of `SET r, v0 v1 ... vn`, from element `e` on (R97). -/
def setWrites (r : Reg) : Nat → List Nat → List Input
  | _, [] => []
  | e, v :: vs => .write (regIndex r) e v :: setWrites r (e + 1) vs

/-- The host accesses a statement encodes to (R97, R98). -/
def stmtAccesses (p : Params) : Stmt → List Input
  | .set r values => setWrites r 0 values
  | .setElement r e v => [.write (regIndex r) e v]
  | .start i => [.write 0x00 0 (encode i).toNat]
  | .get r => (List.range (regCount p r)).map fun e => .read (regIndex r) e
  | .wait => [.wait]
  | .run i => [.write 0x00 0 (encode i).toNat, .wait]
  | .jerr _ => [.read (regIndex .status) 0]
  | .jok _ => [.read (regIndex .status) 0]
  | .halt => []

/-- The line a label stands on (R97). -/
def labelLine (script : List Line) (label : String) : Option Nat :=
  script.findIdx? fun line => line.label == some label

/-- The line after line `pc`, given the STATUS the host just read; `none` is the end of the script (R98). -/
def nextLine (script : List Line) (pc : Nat) (st : Half) : Stmt → Option Nat
  | .jerr label => if err st then labelLine script label else some (pc + 1)
  | .jok label => if done st && !err st then labelLine script label else some (pc + 1)
  | .halt => none
  | .set _ _ => some (pc + 1)
  | .setElement _ _ _ => some (pc + 1)
  | .start _ => some (pc + 1)
  | .get _ => some (pc + 1)
  | .wait => some (pc + 1)
  | .run _ => some (pc + 1)

/-- The accesses of a line with the core's own moves in front of them: `pace k` moves before the script's access number
`k`. R98 fixes no rate at which a started operation advances while the host makes accesses other than `WAIT`'s, so the pace
is an argument of a run (DESIGN CHOICE, entry 22). -/
def pacedAccesses (pace : Nat → Nat) : Nat → List Input → List Input
  | _, [] => []
  | k, a :: as => List.replicate (pace k) .tick ++ a :: pacedAccesses pace (k + 1) as

/-- Steps until the schedule is empty, at most `fuel` of them. A state with accesses still to come is one whose steps ran
out: a `WAIT` among them has not been left (R98). -/
def runInputs : Nat → State → Host.Outcome State Fault Refusal
  | 0, s => .next s
  | fuel + 1, s =>
    match s.inputs with
    | [] => .next s
    | _ :: _ =>
      match step s with
      | .next t => runInputs fuel t
      | .fault r => .fault r
      | .refused r => .refused r

/-- A script from line `pc` on, `made` accesses after its beginning, at most `lines` lines of it and at most `fuel` steps
for a line: the host makes the accesses of a line, with moves of the core in front of them as `pace` says, and goes to the
next line when all of them are made; where the steps of a line run out first, the run stops there (R98; entries 21, 22). -/
def runScript (pace : Nat → Nat) (fuel : Nat) (script : List Line) :
    Nat → Nat → Nat → State → Host.Outcome State Fault Refusal
  | 0, _, _, s => .next s
  | lines + 1, pc, made, s =>
    match script[pc]? with
    | none => .next s
    | some line =>
      match runInputs fuel
          { s with inputs := s.inputs ++ pacedAccesses pace made (stmtAccesses s.params line.stmt) } with
      | .next t =>
        match t.inputs, nextLine script pc t.status line.stmt with
        | [], some pc' =>
          runScript pace fuel script lines pc' (made + (stmtAccesses s.params line.stmt).length) t
        | [], none => .next t
        | _ :: _, _ => .next t
      | .fault r => .fault r
      | .refused r => .refused r

end Sys2Proof.Machine
end

