-- ==== Sys2Proof/Machine/Transport.lean ====
section
/-!
DEFINITION. The trace read as calls of the transport's contract (41_crc_bus.md R144). How bytes are grouped into calls is
not observable (20_memory.md R69): here each byte is a call of its own (entry 18).
-/

namespace Sys2Proof.Machine

/-- The calls of the transport's contract, with what they answered (R144). The calls `writeBytes` and `readBytes` of
several bytes are runs of the single-byte ones. -/
inductive TransportCall where
  /-- `reset() → bool`. -/
  | reset (present : Bool)
  /-- `select(address)`. -/
  | select (rom : Vector Byte 8)
  /-- `writeByte(b, holdPower)`. -/
  | writeByte (b : Byte) (holdPower : Bool)
  /-- `readByte() → byte`. -/
  | readByte (v : Byte)
  /-- `releasePower()`. -/
  | releasePower
  deriving DecidableEq, Repr

/-- The transport calls that carry a trace: `BusHold()` is the `holdPower = true` of the write before it (R144), a wait is
no call. -/
def transportCalls : List BusEvent → List TransportCall
  | [] => []
  | .w b :: .pwrOn :: es => .writeByte b true :: transportCalls es
  | .w b :: es => .writeByte b false :: transportCalls es
  | .rst p :: es => .reset p :: transportCalls es
  | .sel rom :: es => .select rom :: transportCalls es
  | .r v :: es => .readByte v :: transportCalls es
  | .pwrOff :: es => .releasePower :: transportCalls es
  | .pwrOn :: es => transportCalls es
  | .dly _ :: es => transportCalls es

end Sys2Proof.Machine
end

