-- ==== Sys2Proof/Safety.lean ====
section
/-!
DEFINITION. The words claims are stated in: what a completed operation leaves, the traces of the spec, what a host may
not have scheduled, and the invariant of reachable states.
-/

namespace Sys2Proof.Safety

open Sys2Proof.Machine

/-! ### How an operation ends -/

/-- STATUS after operation `i` succeeded (10_state.md, life cycle of STATUS). -/
def successWord (i : Instr) : Half := statusWord false true false 0 0 i.code

/-- STATUS after operation `i` failed with a kind at a stage (10_state.md, life cycle of STATUS). -/
def failureWord (i : Instr) (kind : Kind) (stage : BitVec 3) : Half :=
  statusWord false true true kind.code stage i.code

/-- What does not depend on how an operation ended: `t` is `s` after one completed operation that left the bus `bus` and
the result registers `res`. The latch and the MAC engine's working state are not spoken of: they are unspecified there
(entry 2). -/
structure Completed (i : Instr) (s t : State) (res : Results) (bus : Bus) : Prop where
  params : t.params = s.params
  cmd : t.cmd = encode i
  operands : t.operands = s.operands
  results : t.results = res
  fsm : t.fsm = .idle
  pending : t.pending = .empty
  bus : t.bus = bus
  inputs : t.inputs = s.inputs
  reads : t.reads = s.reads

/-- `t` is `s` after operation `i` succeeded (60_exceptions.md R226). -/
structure Succeeded (i : Instr) (s t : State) (res : Results) (bus : Bus) : Prop where
  completed : Completed i s t res bus
  status : t.status = successWord i

/-- `t` is `s` after operation `i` failed (60_exceptions.md R221, R224): the result registers are those of `s`. -/
structure Failed (i : Instr) (s t : State) (kind : Kind) (stage : BitVec 3) (bus : Bus) : Prop where
  completed : Completed i s t s.results bus
  status : t.status = failureWord i kind stage

/-- The bus after more events, with POWER = 0, and the answers that are still to come. -/
def busAfter (b : Bus) (events : List BusEvent) (presence : List Bool) (bytes : List Byte) : Bus :=
  { trace := b.trace ++ events, power := false, presence := presence, bytes := bytes }

/-! ### The traces of the spec (42_bus_commands.md, "Trace on success") -/

/-- `RST(true) SEL(rom)`. -/
def begins (rom : Vector Byte 8) : List BusEvent := [.rst true, .sel rom]

/-- `W(b0 b1 ...)`. -/
def writes (bs : List Byte) : List BusEvent := bs.map .w

/-- `R(v0 v1 ...)`. -/
def readings (vs : List Byte) : List BusEvent := vs.map .r

/-- `RST(true) SEL(rom) W(cmd lo hi d0..d7) R(c0 c1)` (R160, R164). -/
def scratchpadWritten (rom : Vector Byte 8) (cmd : Byte) (addr : Half) (d : Vector Byte 8) (c0 c1 : Byte) : List BusEvent :=
  begins rom ++ writes ([cmd, lo addr, hi addr] ++ d.toList) ++ readings [c0, c1]

/-- `RST(true) SEL(rom) W(AA) R(ta_lo ta_hi es d0..d7 c0 c1)` (R162). -/
def scratchpadRead (rom : Vector Byte 8) (ta : Half) (es : Byte) (d : Vector Byte 8) (c0 c1 : Byte) : List BusEvent :=
  begins rom ++ writes [0xAA] ++ readings ([lo ta, hi ta, es] ++ d.toList ++ [c0, c1])

/-- `RST(true) SEL(rom) W(cc lo hi es) PWR_ON DLY(P_T_SHA) W(m0..m19) PWR_ON DLY(P_T_PROG) PWR_OFF R(status)` (R166). -/
def scratchpadCopied (p : Params) (rom : Vector Byte 8) (addr : Half) (es : Byte) (mac : Vector Byte 20) (status : Byte) :
    List BusEvent :=
  begins rom ++ writes [p.copyCmd, lo addr, hi addr, es] ++ [.pwrOn, .dly p.tSha] ++ writes mac.toList
    ++ [.pwrOn, .dly p.tProg, .pwrOff] ++ readings [status]

/-- `RST(true) SEL(rom) W(A5 lo hi) R(p0..p31 trailer c0 c1)`: RDAUTH up to its first checks (R168). -/
def pageRead (rom : Vector Byte 8) (addr : Half) (page : Vector Byte 32) (trailer c0 c1 : Byte) : List BusEvent :=
  begins rom ++ writes [0xA5, lo addr, hi addr] ++ readings (page.toList ++ [trailer, c0, c1])

/-- `DLY(P_T_SHA) R(m0..m19 c2 c3)`: RDAUTH from its first checks to its second CRC (R168). -/
def pageMacRead (p : Params) (mac : Vector Byte 20) (c2 c3 : Byte) : List BusEvent :=
  [.dly p.tSha] ++ readings (mac.toList ++ [c2, c3])

/-- `RST(true) SEL(rom) W(5A lo hi es) PWR_ON DLY(P_T_PROG) PWR_OFF R(status)` (R170). -/
def secretLoaded (p : Params) (rom : Vector Byte 8) (addr : Half) (es : Byte) (status : Byte) : List BusEvent :=
  begins rom ++ writes [0x5A, lo addr, hi addr, es] ++ [.pwrOn, .dly p.tProg, .pwrOff] ++ readings [status]

/-- `RST(true) SEL(rom) W(F0 lo hi) R(b0..b(n-1))` (R172). -/
def memoryRead (rom : Vector Byte 8) (addr : Half) (bs : List Byte) : List BusEvent :=
  begins rom ++ writes [0xF0, lo addr, hi addr] ++ readings bs

/-! ### The checks on what a token answers -/

/-- CRC16ok over the frame of WriteScratchpad or RefreshScratchpad (R160). -/
def scratchpadCrcOk (p : Params) (cmd : Byte) (addr : Half) (d : Vector Byte 8) (c0 c1 : Byte) : Bool :=
  crcOk p ([cmd, lo addr, hi addr] ++ d.toList) c0 c1

/-- CRC16ok over the frame of ReadScratchpad (R162). -/
def readbackCrcOk (p : Params) (ta : Half) (es : Byte) (d : Vector Byte 8) (c0 c1 : Byte) : Bool :=
  crcOk p ([0xAA, lo ta, hi ta, es] ++ d.toList) c0 c1

/-- CRC16ok over the 36 bytes of ReadAuthenticatedPage's first part (R168). -/
def pageCrcOk (p : Params) (addr : Half) (page : Vector Byte 32) (trailer c0 c1 : Byte) : Bool :=
  crcOk p ([0xA5, lo addr, hi addr] ++ page.toList ++ [trailer]) c0 c1

/-! ### Which operations use the bus -/

/-- The operations that drive the bus: all but DIGEST and SERMAC (40_mac_engine.md). -/
def usesBus : Instr → Bool
  | .digest | .sermac => false
  | .wspad | .rspad | .rfspad | .cpspad | .rdauth | .ldsec | .rdmem | .rdchal | .provsec | .wrauth => true

/-- The primitive an operation runs as its step `stage`: a primitive operation is its own step 0, a composite has the
steps its rule numbers (42_bus_commands.md; 43_composite.md R201, R203, R205). -/
def commandAt : Instr → BitVec 3 → Option WireCommand
  | .digest, _ => none
  | .sermac, _ => none
  | .wspad, s => if s = 0 then some .writeScratchpad else none
  | .rspad, s => if s = 0 then some .readScratchpad else none
  | .rfspad, s => if s = 0 then some .refreshScratchpad else none
  | .cpspad, s => if s = 0 then some .copyScratchpad else none
  | .rdauth, s => if s = 0 then some .readAuthenticatedPage else none
  | .ldsec, s => if s = 0 then some .loadFirstSecret else none
  | .rdmem, s => if s = 0 then some .readMemory else none
  | .rdchal, s =>
    if s = 1 then some .writeScratchpad else if s = 2 then some .readAuthenticatedPage else none
  | .provsec, s =>
    if s = 1 then some .writeScratchpad else if s = 2 then some .readScratchpad
    else if s = 3 then some .loadFirstSecret else none
  | .wrauth, s =>
    if s = 1 then some .writeScratchpad else if s = 2 then some .readScratchpad
    else if s = 3 then some .copyScratchpad else if s = 4 then some .refreshScratchpad
    else if s = 5 then some .loadFirstSecret else none

/-- The stage an operation reports for its first bus step: 1 for composites, else 0 (R24). -/
def firstStage : Instr → BitVec 3
  | .rdchal | .provsec | .wrauth => 1
  | .digest | .sermac | .wspad | .rspad | .rfspad | .cpspad | .rdauth | .ldsec | .rdmem => 0

/-- The error kinds a primitive raises (42_bus_commands.md, "Errors"). -/
def raisedBy : WireCommand → Kind → Bool
  | _, .noDevice => true
  | .writeScratchpad, .integrity | .readScratchpad, .integrity | .refreshScratchpad, .integrity
  | .readAuthenticatedPage, .integrity => true
  | .readAuthenticatedPage, .protocol => true
  | .copyScratchpad, .authFailed | .readAuthenticatedPage, .authFailed | .loadFirstSecret, .authFailed => true
  | _, _ => false

/-- STATUS words that the core shows with BUSY = 0: reset's, a success, a failure of an operation at a step it has with a
kind that step raises, or a refused START (10_state.md R22 to R25, 60_exceptions.md R220, R221, R226). -/
def idleStatus (st : Half) : Prop :=
  st = 0
    ∨ (∃ i, st = successWord i)
    ∨ (∃ i kind stage command, commandAt i stage = some command ∧ raisedBy command kind = true
        ∧ st = failureWord i kind stage)
    ∨ (∃ opc : BitVec 4, st = statusWord false true true Kind.illegalOp.code 0 opc)

/-! ### Power holds -/

/-- POWER after a position of pseudocode, from POWER before it (41_crc_bus.md R147). -/
def powerAfter (power : Bool) : Micro → Bool
  | .busHold => true
  | .busWrite _ | .busRead | .busRelease => false
  | .busReset _ | .busSelect | .wait _ | .checkTrailer _ _ | .checkCrc _ _ _ _ | .checkStatus _ _ | .keepScratchpad
  | .keepPage | .keepMemory | .macLoad | .macRound | .macKeep | .macSerialize | .succeed _ => power

/-- POWER after the positions given, from POWER = 0. -/
def powerAlong (ms : List Micro) : Bool := ms.foldl powerAfter false

/-- Every `PWR_ON` of the trace stands directly after a `W` (41_crc_bus.md R147); `afterWrite` says whether the event before
the list is a `W`. -/
def holdsFollowWrites (afterWrite : Bool) : List BusEvent → Bool
  | [] => true
  | .pwrOn :: es => afterWrite && holdsFollowWrites false es
  | .w _ :: es => holdsFollowWrites true es
  | .rst _ :: es => holdsFollowWrites false es
  | .sel _ :: es => holdsFollowWrites false es
  | .r _ :: es => holdsFollowWrites false es
  | .pwrOff :: es => holdsFollowWrites false es
  | .dly _ :: es => holdsFollowWrites false es

/-! ### The invariant -/

/-- What the sequencer's state says about the rest of the state (10_state.md R44, R45, R47). -/
def sequencerOk (s : State) : Prop :=
  match s.fsm with
  | .idle => idleStatus s.status ∧ s.bus.power = false ∧ s.pending = .empty
  | .run op k =>
    s.status = statusStarted op.code
      ∧ k < (programOf op s.params s.latch).length
      ∧ s.bus.power = powerAlong ((programOf op s.params s.latch).take k)
      ∧ (op = .rdmem → s.latch.operands.len.toNat ≤ s.params.membuf)

/-- The invariant of the machine: the parameters are ones the spec admits, MEM keeps its canonical form within its P_MEMBUF
bytes, and STATUS, FSM, POWER and the pending buffer agree as the spec says (10_state.md R22 to R25, R40, R44, R45, U10). -/
structure CoreInv (s : State) : Prop where
  params : s.params.wf = true
  mem : Memory.wf s.results.mem
  memBound : ∀ c ∈ s.results.mem, c.1 < s.params.membuf
  sequencer : sequencerOk s

/-! ### Schedules -/

/-- The access writes element 0 of CMD (10_state.md R21). -/
def isCommandWrite : Input → Bool
  | .write index e _ => index == 0x00 && e == 0
  | .run _ => true
  | .tick | .read _ _ | .wait | .reset => false

/-- Bytes that differ in exactly one bit. -/
def oneBitApart (a b : List Byte) : Prop :=
  ∃ pre post : List Byte, ∃ x : Byte, ∃ j : Fin 8,
    a = pre ++ x :: post ∧ b = pre ++ (x ^^^ (1#8 <<< j.val)) :: post

end Sys2Proof.Safety
end

