-- ==== Sys2Proof/Certificates/Slice0/Obligations.lean ====
section
/-!
DEFINITION. The statements for the provers. `Completed`, `Succeeded`, `Failed`, the traces and `CoreInv` are those of
Sys2Proof/Safety.lean. A statement about an operation's result asks of the state only that no operation runs (BUSY = 0),
and names the answers of transport and token by the queues `bus.presence` and `bus.bytes`, so that it covers every answer.
The model's own in them: `exec` takes an operation from START to completion (entry 4), `Completed` speaks of the schedule and
the host's reads (entries 3, 11) and writes the empty pending buffer as zeros (entry 10); every transport call returns (entry
15).
-/

open Sys2Proof Sys2Proof.Machine Sys2Proof.Safety

/-! ### Decoding and starting -/

/-- The decoder and the encoder agree in both directions (30_encoding.md R81). -/
def Obligations.DecodeIsInverseOfEncode : Prop :=
  ∀ (cmd : Byte) (i : Instr), decode cmd = .operation i ↔ cmd = encode i

/-- A CMD byte is an operation exactly when CMD[7:4] = 0 and CMD[3:0] is at most 0xB; any other one is refused, by the
name of the check that is made first (30_encoding.md R84, R82, R83, 60_exceptions.md R230). -/
def Obligations.CommandByteIsOperationOrRefused : Prop :=
  ∀ cmd : Byte,
    ((∃ i, decode cmd = .operation i) ↔ cmd.extractLsb' 4 4 = 0#4 ∧ cmd.extractLsb' 0 4 ≤ 0xB#4)
      ∧ (decode cmd = .reservedField ↔ cmd.extractLsb' 4 4 ≠ 0#4)
      ∧ (decode cmd = .reservedCode ↔ cmd.extractLsb' 4 4 = 0#4 ∧ 0xB#4 < cmd.extractLsb' 0 4)

/-- The table of operation codes, as words written out from it: OP = 0x0 to 0xB with RSV = 0 are the twelve operations, OP =
0xC to 0xF are reserved (30_encoding.md R81). -/
def Obligations.CommandBytesDecodeAsTabled : Prop :=
  decode 0b00000000 = .operation .digest ∧ decode 0b00000001 = .operation .sermac
    ∧ decode 0b00000010 = .operation .wspad ∧ decode 0b00000011 = .operation .rspad
    ∧ decode 0b00000100 = .operation .rfspad ∧ decode 0b00000101 = .operation .cpspad
    ∧ decode 0b00000110 = .operation .rdauth ∧ decode 0b00000111 = .operation .ldsec
    ∧ decode 0b00001000 = .operation .rdmem ∧ decode 0b00001001 = .operation .rdchal
    ∧ decode 0b00001010 = .operation .provsec ∧ decode 0b00001011 = .operation .wrauth
    ∧ decode 0b00001100 = .reservedCode ∧ decode 0b00001101 = .reservedCode
    ∧ decode 0b00001110 = .reservedCode ∧ decode 0b00001111 = .reservedCode

/-- When the host's next access is a `RUN` of a CMD byte that decodes to an operation, and none runs, the step is that
operation's meaning on the state with the access taken from the schedule (30_encoding.md R98; entry 4). -/
def Obligations.StepRunsTheDecodedOperation : Prop :=
  ∀ (s : State) (cmd : Byte) (rest : List Input) (i : Instr),
    s.inputs = .run cmd :: rest → busy s.status = false → decode cmd = .operation i →
      step s = exec i { s with inputs := rest }

/-- A START of a reserved encoding, by either kind of access, completes at once with ILLEGAL_OP at stage 0 and OPC =
CMD[3:0]; no bus event, no result (30_encoding.md R82, R83). The model's own: the completion stands in the step of the
write itself (DEDUCED, entry 9), and a `RUN` of such a byte is one step that reads no STATUS (DEDUCED, entry 4). -/
def Obligations.ReservedCommandsAreRefused : Prop :=
  ∀ (s : State) (cmd : Byte) (rest : List Input),
    s.inputs = .run cmd :: rest ∨ s.inputs = .write 0x00 0 cmd.toNat :: rest →
      busy s.status = false → (∀ i, decode cmd ≠ .operation i) →
      ∃ t, step s = .next t
        ∧ t.status = statusWord false true true Kind.illegalOp.code 0 (cmd.extractLsb' 0 4)
        ∧ t.results = s.results ∧ t.operands = s.operands ∧ t.bus = s.bus ∧ t.fsm = .idle
        ∧ t.params = s.params ∧ t.inputs = rest ∧ t.reads = s.reads

/-- A CMD write made with no operation running raises ILLEGAL_OP exactly when CMD[7:4] is not 0, OP is 0xC to 0xF, or OP is
RDMEM with LEN above P_MEMBUF; then there is no bus event, and no result register is written (60_exceptions.md R225). The
model's own: KIND = ILLEGAL_OP stands right after the write, for the check on LEN too (DEDUCED, entry 9). -/
def Obligations.IllegalOpExactlyAtRefusedStarts : Prop :=
  ∀ (s : State) (cmd : Byte), busy s.status = false →
    (kindField (hostWrite 0x00 0 cmd.toNat s).status = Kind.illegalOp.code
        ↔ cmd.extractLsb' 4 4 ≠ 0#4 ∨ 0xB#4 < cmd.extractLsb' 0 4
          ∨ cmd = encode .rdmem ∧ s.params.membuf < s.operands.len.toNat)
      ∧ (hostWrite 0x00 0 cmd.toNat s).bus = s.bus ∧ (hostWrite 0x00 0 cmd.toNat s).results = s.results

/-- A CMD write that starts an operation sets, in one step, STATUS to BUSY and the OPC, latches the operands and H, empties
the pending buffer and makes FSM RUN(o, 0); nothing the host can read but STATUS changes (10_state.md R41, R44; the emptied
pending buffer is the model's, entry 10). -/
def Obligations.CommandWriteStartsOperation : Prop :=
  ∀ (s : State) (i : Instr),
    busy s.status = false → s.startRefused i = false →
      (hostWrite 0x00 0 (encode i).toNat s).status = 0x0001#16 ||| i.code.setWidth 16 <<< 9
        ∧ (hostWrite 0x00 0 (encode i).toNat s).latch = { operands := s.operands, h := s.results.h }
        ∧ (hostWrite 0x00 0 (encode i).toNat s).fsm = .run i 0
        ∧ (hostWrite 0x00 0 (encode i).toNat s).pending = .empty
        ∧ (hostWrite 0x00 0 (encode i).toNat s).operands = s.operands
        ∧ (hostWrite 0x00 0 (encode i).toNat s).results = s.results
        ∧ (hostWrite 0x00 0 (encode i).toNat s).bus = s.bus

/-- While an operation runs, a CMD write has no effect at all, and no meaning does anything (10_state.md R21,
60_exceptions.md R231; a meaning with BUSY = 1 is the model's, entry 4). -/
def Obligations.CommandWriteWhileBusyHasNoEffect : Prop :=
  ∀ (s : State), busy s.status = true →
    (∀ v, hostWrite 0x00 0 v s = s) ∧ ∀ i, exec i s = .next s

/-! ### The MAC engine -/

/-- DIGEST succeeds from every state in which no operation runs: H is ComputeDigest of BLK, nothing else that the host can
read but STATUS changes, and there is no bus event (40_mac_engine.md R116, R120). -/
def Obligations.DigestWritesComputeDigest : Prop :=
  ∀ s : State, busy s.status = false →
    ∃ t, exec .digest s = .next t
      ∧ Succeeded .digest s t { s.results with h := computeDigest s.operands.blk } s.bus

/-- The message schedule of every block: the block, then the recurrence (40_mac_engine.md R113). -/
def Obligations.ScheduleRecurrence : Prop :=
  ∀ block : Vector Word 16,
    (schedule block).length = 80
      ∧ (∀ t (h : t < 16), (schedule block)[t]? = some block[t])
      ∧ ∀ t, 16 ≤ t → t < 80 →
        (schedule block)[t]? = some (rotl 1 ((schedule block).getD (t - 3) 0 ^^^ (schedule block).getD (t - 8) 0
          ^^^ (schedule block).getD (t - 14) 0 ^^^ (schedule block).getD (t - 16) 0))

/-- SERMAC succeeds from every state in which no operation runs: MACOUT is SerializeMAC of H, H is unchanged, and there is no
bus event (40_mac_engine.md R123). -/
def Obligations.SermacWritesSerializedH : Prop :=
  ∀ s : State, busy s.status = false →
    ∃ t, exec .sermac s = .next t
      ∧ Succeeded .sermac s t { s.results with macout := serializeMac s.results.h } s.bus

/-- The byte order of SerializeMAC: `mac[4k + j] = h[4 - k][8j+7 : 8j]` (40_mac_engine.md R122). -/
def Obligations.SerializeMacByteOrder : Prop :=
  ∀ (h : Vector Word 5) (k : Fin 5) (j : Fin 4),
    (serializeMac h)[4 * k.val + j.val] = h[4 - k.val].extractLsb' (8 * j.val) 8

/-! ### The CRC validator -/

/-- CRC16ok: the two CRC bytes are the complement of the CRC, low byte first; the residue test is equivalent
(41_crc_bus.md R142). -/
def Obligations.CrcResidueCharacterisesCrcOk : Prop :=
  ∀ (bytes : List Byte) (c0 c1 : Byte),
    (crc16Ok bytes c0 c1 = true
        ↔ c0 = (~~~ crc16 bytes).extractLsb' 0 8 ∧ c1 = (~~~ crc16 bytes).extractLsb' 8 8)
      ∧ (crc16Ok bytes c0 c1 = true ↔ crc16 (bytes ++ [c0, c1]) = 0xB001#16)

/-- A response that differs in exactly one bit, of the covered bytes or of the CRC bytes, from one that passes does not pass
(41_crc_bus.md R143). -/
def Obligations.CrcDetectsEverySingleBitError : Prop :=
  ∀ (bytes bytes' : List Byte) (c0 c1 c0' c1' : Byte),
    crc16Ok bytes c0 c1 = true → bytes.length = bytes'.length →
      oneBitApart (bytes ++ [c0, c1]) (bytes' ++ [c0', c1']) → crc16Ok bytes' c0' c1' = false

/-! ### Bus primitives: success -/

/-- WSPAD with a device present and matching CRC bytes (42_bus_commands.md R160). -/
def Obligations.WspadSucceeds : Prop :=
  ∀ (s : State) (present : List Bool) (rest : List Byte) (c0 c1 : Byte),
    busy s.status = false → s.bus.presence = true :: present → s.bus.bytes = [c0, c1] ++ rest →
      scratchpadCrcOk s.params 0x0F s.operands.addr s.operands.data c0 c1 = true →
      ∃ t, exec .wspad s = .next t
        ∧ Succeeded .wspad s t s.results
            (busAfter s.bus (scratchpadWritten s.operands.rom 0x0F s.operands.addr s.operands.data c0 c1) present rest)

/-- RFSPAD with a device present and matching CRC bytes (42_bus_commands.md R164). -/
def Obligations.RfspadSucceeds : Prop :=
  ∀ (s : State) (present : List Bool) (rest : List Byte) (c0 c1 : Byte),
    busy s.status = false → s.bus.presence = true :: present → s.bus.bytes = [c0, c1] ++ rest →
      scratchpadCrcOk s.params 0xA3 s.operands.addr s.operands.data c0 c1 = true →
      ∃ t, exec .rfspad s = .next t
        ∧ Succeeded .rfspad s t s.results
            (busAfter s.bus (scratchpadWritten s.operands.rom 0xA3 s.operands.addr s.operands.data c0 c1) present rest)

/-- RSPAD with a device present and matching CRC bytes: RTA, RES and RDATA are the bytes received
(42_bus_commands.md R162). -/
def Obligations.RspadSucceeds : Prop :=
  ∀ (s : State) (present : List Bool) (rest : List Byte) (ta : Half) (es : Byte) (d : Vector Byte 8) (c0 c1 : Byte),
    busy s.status = false → s.bus.presence = true :: present →
      s.bus.bytes = [lo ta, hi ta, es] ++ d.toList ++ [c0, c1] ++ rest →
      readbackCrcOk s.params ta es d c0 c1 = true →
      ∃ t, exec .rspad s = .next t
        ∧ Succeeded .rspad s t { s.results with rta := ta, res := es, rdata := d }
            (busAfter s.bus (scratchpadRead s.operands.rom ta es d c0 c1) present rest)

/-- CPSPAD with a device present and status 0xAA: two power holds, the MAC sent between them (42_bus_commands.md R166). -/
def Obligations.CpspadSucceeds : Prop :=
  ∀ (s : State) (present : List Bool) (rest : List Byte),
    busy s.status = false → s.bus.presence = true :: present → s.bus.bytes = 0xAA :: rest →
      ∃ t, exec .cpspad s = .next t
        ∧ Succeeded .cpspad s t s.results
            (busAfter s.bus
              (scratchpadCopied s.params s.operands.rom s.operands.addr s.operands.esin s.operands.macin 0xAA)
              present rest)

/-- LDSEC with a device present and status 0xAA (42_bus_commands.md R170). -/
def Obligations.LdsecSucceeds : Prop :=
  ∀ (s : State) (present : List Bool) (rest : List Byte),
    busy s.status = false → s.bus.presence = true :: present → s.bus.bytes = 0xAA :: rest →
      ∃ t, exec .ldsec s = .next t
        ∧ Succeeded .ldsec s t s.results
            (busAfter s.bus (secretLoaded s.params s.operands.rom s.operands.addr s.operands.esin 0xAA) present rest)

/-- RDAUTH with a device present, the required trailer, two matching CRCs and status 0xAA: PAGE and MACRD are the bytes
received (42_bus_commands.md R168). -/
def Obligations.RdauthSucceeds : Prop :=
  ∀ (s : State) (present : List Bool) (rest : List Byte) (page : Vector Byte 32) (mac : Vector Byte 20)
    (c0 c1 c2 c3 : Byte),
    busy s.status = false → s.bus.presence = true :: present →
      s.bus.bytes = page.toList ++ [0xFF, c0, c1] ++ mac.toList ++ [c2, c3, 0xAA] ++ rest →
      pageCrcOk s.params s.operands.addr page 0xFF c0 c1 = true → crcOk s.params mac.toList c2 c3 = true →
      ∃ t, exec .rdauth s = .next t
        ∧ Succeeded .rdauth s t { s.results with page := page, macrd := mac }
            (busAfter s.bus
              (pageRead s.operands.rom s.operands.addr page 0xFF c0 c1 ++ pageMacRead s.params mac c2 c3
                ++ readings [0xAA]) present rest)

/-- RDMEM with LEN at most P_MEMBUF and a device present: MEM[0..LEN-1] become the bytes received, every other byte of MEM
stays, and no other result register changes (42_bus_commands.md R172, 10_state.md R40). -/
def Obligations.RdmemSucceeds : Prop :=
  ∀ (s : State) (present : List Bool) (rest bytes : List Byte),
    busy s.status = false → Memory.wf s.results.mem → s.operands.len.toNat ≤ s.params.membuf →
      s.bus.presence = true :: present → s.bus.bytes = bytes ++ rest → bytes.length = s.operands.len.toNat →
      ∃ t mem', exec .rdmem s = .next t
        ∧ Succeeded .rdmem s t { s.results with mem := mem' }
            (busAfter s.bus (memoryRead s.operands.rom s.operands.addr bytes) present rest)
        ∧ (∀ a (h : a < bytes.length), memRead mem' a = bytes[a])
        ∧ ∀ a, bytes.length ≤ a → memRead mem' a = memRead s.results.mem a

/-! ### Bus primitives: failure -/

/-- RDMEM with LEN above P_MEMBUF completes at once with ILLEGAL_OP, with no bus event and no result
(42_bus_commands.md R174). -/
def Obligations.RdmemTooLongIsRefused : Prop :=
  ∀ s : State, busy s.status = false → s.params.membuf < s.operands.len.toNat →
    ∃ t, exec .rdmem s = .next t ∧ Failed .rdmem s t .illegalOp 0 s.bus

/-- Every operation that uses the bus, with no device present at its first reset: the trace gains `RST(false)` only, and the
operation fails with NO_DEVICE, at stage 1 for a composite (41_crc_bus.md R148, 43_composite.md R200). -/
def Obligations.NoDeviceEndsEveryBusOperation : Prop :=
  ∀ (s : State) (i : Instr) (present : List Bool),
    usesBus i = true → busy s.status = false → s.startRefused i = false → s.bus.presence = false :: present →
      ∃ t, exec i s = .next t
        ∧ Failed i s t .noDevice (firstStage i)
            { s.bus with presence := present, trace := s.bus.trace ++ [.rst false] }

/-- WSPAD, RFSPAD and RSPAD with a device present and CRC bytes that do not match: INTEGRITY, after the last CRC byte and
with no result (41_crc_bus.md R140, 42_bus_commands.md R160, R162, R164). -/
def Obligations.BadCrcFailsScratchpadCommands : Prop :=
  ∀ (s : State) (present : List Bool) (rest : List Byte) (ta : Half) (es : Byte) (d : Vector Byte 8) (c0 c1 : Byte),
    busy s.status = false → s.bus.presence = true :: present →
      (s.bus.bytes = [c0, c1] ++ rest →
          scratchpadCrcOk s.params 0x0F s.operands.addr s.operands.data c0 c1 = false →
          ∃ t, exec .wspad s = .next t
            ∧ Failed .wspad s t .integrity 0
                (busAfter s.bus (scratchpadWritten s.operands.rom 0x0F s.operands.addr s.operands.data c0 c1) present rest))
        ∧ (s.bus.bytes = [c0, c1] ++ rest →
          scratchpadCrcOk s.params 0xA3 s.operands.addr s.operands.data c0 c1 = false →
          ∃ t, exec .rfspad s = .next t
            ∧ Failed .rfspad s t .integrity 0
                (busAfter s.bus (scratchpadWritten s.operands.rom 0xA3 s.operands.addr s.operands.data c0 c1) present rest))
        ∧ (s.bus.bytes = [lo ta, hi ta, es] ++ d.toList ++ [c0, c1] ++ rest →
          readbackCrcOk s.params ta es d c0 c1 = false →
          ∃ t, exec .rspad s = .next t
            ∧ Failed .rspad s t .integrity 0
                (busAfter s.bus (scratchpadRead s.operands.rom ta es d c0 c1) present rest))

/-- CPSPAD with a device present and any status but 0xAA: AUTH_FAILED after the same events (42_bus_commands.md R166,
R167). -/
def Obligations.CpspadRejected : Prop :=
  ∀ (s : State) (present : List Bool) (rest : List Byte) (status : Byte),
    busy s.status = false → s.bus.presence = true :: present → s.bus.bytes = status :: rest → status ≠ 0xAA →
      ∃ t, exec .cpspad s = .next t
        ∧ Failed .cpspad s t .authFailed 0
            (busAfter s.bus
              (scratchpadCopied s.params s.operands.rom s.operands.addr s.operands.esin s.operands.macin status)
              present rest)

/-- LDSEC with a device present and any status but 0xAA: AUTH_FAILED after the same events (42_bus_commands.md R170). -/
def Obligations.LdsecRejected : Prop :=
  ∀ (s : State) (present : List Bool) (rest : List Byte) (status : Byte),
    busy s.status = false → s.bus.presence = true :: present → s.bus.bytes = status :: rest → status ≠ 0xAA →
      ∃ t, exec .ldsec s = .next t
        ∧ Failed .ldsec s t .authFailed 0
            (busAfter s.bus (secretLoaded s.params s.operands.rom s.operands.addr s.operands.esin status) present rest)

/-- RDAUTH's checks of its first part, in their order: a trailer other than 0xFF is PROTOCOL whatever the CRC bytes are, then
a wrong first CRC is INTEGRITY; both end the operation before the wait (42_bus_commands.md R168, 60_exceptions.md R230). -/
def Obligations.RdauthFirstPartFailures : Prop :=
  ∀ (s : State) (present : List Bool) (rest : List Byte) (page : Vector Byte 32) (trailer c0 c1 : Byte),
    busy s.status = false → s.bus.presence = true :: present →
      s.bus.bytes = page.toList ++ [trailer, c0, c1] ++ rest →
      (trailer ≠ 0xFF →
          ∃ t, exec .rdauth s = .next t
            ∧ Failed .rdauth s t .protocol 0
                (busAfter s.bus (pageRead s.operands.rom s.operands.addr page trailer c0 c1) present rest))
        ∧ (trailer = 0xFF → pageCrcOk s.params s.operands.addr page 0xFF c0 c1 = false →
          ∃ t, exec .rdauth s = .next t
            ∧ Failed .rdauth s t .integrity 0
                (busAfter s.bus (pageRead s.operands.rom s.operands.addr page 0xFF c0 c1) present rest))

/-- RDAUTH's checks of its second part, in their order: a wrong second CRC is INTEGRITY and no status is read, then a status
other than 0xAA is AUTH_FAILED; PAGE and MACRD keep their values (42_bus_commands.md R168, 60_exceptions.md R230). -/
def Obligations.RdauthSecondPartFailures : Prop :=
  ∀ (s : State) (present : List Bool) (rest : List Byte) (page : Vector Byte 32) (mac : Vector Byte 20)
    (c0 c1 c2 c3 status : Byte),
    busy s.status = false → s.bus.presence = true :: present →
      pageCrcOk s.params s.operands.addr page 0xFF c0 c1 = true →
      (s.bus.bytes = page.toList ++ [0xFF, c0, c1] ++ mac.toList ++ [c2, c3] ++ rest →
          crcOk s.params mac.toList c2 c3 = false →
          ∃ t, exec .rdauth s = .next t
            ∧ Failed .rdauth s t .integrity 0
                (busAfter s.bus
                  (pageRead s.operands.rom s.operands.addr page 0xFF c0 c1 ++ pageMacRead s.params mac c2 c3) present rest))
        ∧ (s.bus.bytes = page.toList ++ [0xFF, c0, c1] ++ mac.toList ++ [c2, c3] ++ status :: rest →
          crcOk s.params mac.toList c2 c3 = true → status ≠ 0xAA →
          ∃ t, exec .rdauth s = .next t
            ∧ Failed .rdauth s t .authFailed 0
                (busAfter s.bus
                  (pageRead s.operands.rom s.operands.addr page 0xFF c0 c1 ++ pageMacRead s.params mac c2 c3
                    ++ readings [status]) present rest))

/-! ### Composites -/

/-- RDCHAL whose two steps are answered well: the challenge buffer is written, the page read, PAGE and MACRD are the bytes
received (43_composite.md R201, 30_encoding.md R96). -/
def Obligations.RdchalSucceeds : Prop :=
  ∀ (s : State) (present : List Bool) (rest : List Byte) (page : Vector Byte 32) (mac : Vector Byte 20)
    (w0 w1 c0 c1 c2 c3 : Byte) (buffer : Vector Byte 8),
    buffer.toList = [0x00, 0x00, 0x00, 0x00] ++ s.operands.chal.toList ++ [0x00] →
    busy s.status = false → s.bus.presence = true :: true :: present →
      s.bus.bytes = [w0, w1] ++ page.toList ++ [0xFF, c0, c1] ++ mac.toList ++ [c2, c3, 0xAA] ++ rest →
      scratchpadCrcOk s.params 0x0F s.operands.addr buffer w0 w1 = true →
      pageCrcOk s.params s.operands.addr page 0xFF c0 c1 = true → crcOk s.params mac.toList c2 c3 = true →
      ∃ t, exec .rdchal s = .next t
        ∧ Succeeded .rdchal s t { s.results with page := page, macrd := mac }
            (busAfter s.bus
              (scratchpadWritten s.operands.rom 0x0F s.operands.addr buffer w0 w1
                ++ pageRead s.operands.rom s.operands.addr page 0xFF c0 c1 ++ pageMacRead s.params mac c2 c3
                ++ readings [0xAA]) present rest)

/-- RDCHAL stops at its first failing step and reports it: a wrong CRC of step 1 is INTEGRITY at stage 1; of step 2, no device
is NO_DEVICE, a wrong trailer PROTOCOL, a wrong first CRC INTEGRITY, a wrong second CRC INTEGRITY with no status read, and a
status other than 0xAA AUTH_FAILED, all at stage 2 (43_composite.md R200, R201). No device at step 1 is
NoDeviceEndsEveryBusOperation. -/
def Obligations.RdchalFailsAtItsStage : Prop :=
  ∀ (s : State) (present : List Bool) (rest : List Byte) (page : Vector Byte 32) (mac : Vector Byte 20)
    (w0 w1 trailer c0 c1 c2 c3 status : Byte) (buffer : Vector Byte 8),
    buffer.toList = [0x00, 0x00, 0x00, 0x00] ++ s.operands.chal.toList ++ [0x00] →
    busy s.status = false →
      (s.bus.presence = true :: present → s.bus.bytes = [w0, w1] ++ rest →
          scratchpadCrcOk s.params 0x0F s.operands.addr buffer w0 w1 = false →
          ∃ t, exec .rdchal s = .next t
            ∧ Failed .rdchal s t .integrity 1
                (busAfter s.bus (scratchpadWritten s.operands.rom 0x0F s.operands.addr buffer w0 w1) present rest))
        ∧ (s.bus.presence = true :: false :: present → s.bus.bytes = [w0, w1] ++ rest →
          scratchpadCrcOk s.params 0x0F s.operands.addr buffer w0 w1 = true →
          ∃ t, exec .rdchal s = .next t
            ∧ Failed .rdchal s t .noDevice 2
                (busAfter s.bus
                  (scratchpadWritten s.operands.rom 0x0F s.operands.addr buffer w0 w1 ++ [.rst false]) present rest))
        ∧ (s.bus.presence = true :: true :: present →
          s.bus.bytes = [w0, w1] ++ page.toList ++ [trailer, c0, c1] ++ rest →
          scratchpadCrcOk s.params 0x0F s.operands.addr buffer w0 w1 = true →
          (trailer ≠ 0xFF →
            ∃ t, exec .rdchal s = .next t
              ∧ Failed .rdchal s t .protocol 2
                  (busAfter s.bus
                    (scratchpadWritten s.operands.rom 0x0F s.operands.addr buffer w0 w1
                      ++ pageRead s.operands.rom s.operands.addr page trailer c0 c1) present rest))
          ∧ (trailer = 0xFF → pageCrcOk s.params s.operands.addr page 0xFF c0 c1 = false →
            ∃ t, exec .rdchal s = .next t
              ∧ Failed .rdchal s t .integrity 2
                  (busAfter s.bus
                    (scratchpadWritten s.operands.rom 0x0F s.operands.addr buffer w0 w1
                      ++ pageRead s.operands.rom s.operands.addr page 0xFF c0 c1) present rest)))
        ∧ (s.bus.presence = true :: true :: present →
          scratchpadCrcOk s.params 0x0F s.operands.addr buffer w0 w1 = true →
          pageCrcOk s.params s.operands.addr page 0xFF c0 c1 = true →
          (s.bus.bytes = [w0, w1] ++ page.toList ++ [0xFF, c0, c1] ++ mac.toList ++ [c2, c3] ++ rest →
            crcOk s.params mac.toList c2 c3 = false →
            ∃ t, exec .rdchal s = .next t
              ∧ Failed .rdchal s t .integrity 2
                  (busAfter s.bus
                    (scratchpadWritten s.operands.rom 0x0F s.operands.addr buffer w0 w1
                      ++ pageRead s.operands.rom s.operands.addr page 0xFF c0 c1 ++ pageMacRead s.params mac c2 c3)
                    present rest))
          ∧ (s.bus.bytes = [w0, w1] ++ page.toList ++ [0xFF, c0, c1] ++ mac.toList ++ [c2, c3] ++ status :: rest →
            crcOk s.params mac.toList c2 c3 = true → status ≠ 0xAA →
            ∃ t, exec .rdchal s = .next t
              ∧ Failed .rdchal s t .authFailed 2
                  (busAfter s.bus
                    (scratchpadWritten s.operands.rom 0x0F s.operands.addr buffer w0 w1
                      ++ pageRead s.operands.rom s.operands.addr page 0xFF c0 c1 ++ pageMacRead s.params mac c2 c3
                      ++ readings [status]) present rest)))

/-- PROVSEC whose three steps are answered well: step 1 writes the secret to 0x0080, step 3 sends the TA and ES that step 2
returned; RTA, RES and RDATA are as step 2 returned them (43_composite.md R203). -/
def Obligations.ProvsecSucceeds : Prop :=
  ∀ (s : State) (present : List Bool) (rest : List Byte) (ta : Half) (es : Byte) (d : Vector Byte 8)
    (w0 w1 c0 c1 : Byte),
    busy s.status = false → s.bus.presence = true :: true :: true :: present →
      s.bus.bytes = [w0, w1] ++ ([lo ta, hi ta, es] ++ d.toList ++ [c0, c1]) ++ 0xAA :: rest →
      scratchpadCrcOk s.params 0x0F 0x0080 s.operands.secret w0 w1 = true →
      readbackCrcOk s.params ta es d c0 c1 = true →
      ∃ t, exec .provsec s = .next t
        ∧ Succeeded .provsec s t { s.results with rta := ta, res := es, rdata := d }
            (busAfter s.bus
              (scratchpadWritten s.operands.rom 0x0F 0x0080 s.operands.secret w0 w1
                ++ scratchpadRead s.operands.rom ta es d c0 c1
                ++ secretLoaded s.params s.operands.rom ta es 0xAA) present rest)

/-- PROVSEC whose first two steps are answered well stops at a failing third: no device is NO_DEVICE at stage 3 after
`RST(false)`, any status but 0xAA is AUTH_FAILED at stage 3; RTA, RES and RDATA keep their values (43_composite.md R200,
R203). -/
def Obligations.ProvsecFailsAtStage3 : Prop :=
  ∀ (s : State) (present : List Bool) (rest : List Byte) (ta : Half) (es : Byte) (d : Vector Byte 8)
    (w0 w1 c0 c1 status : Byte),
    busy s.status = false →
      scratchpadCrcOk s.params 0x0F 0x0080 s.operands.secret w0 w1 = true →
      readbackCrcOk s.params ta es d c0 c1 = true →
      (s.bus.presence = true :: true :: false :: present →
          s.bus.bytes = [w0, w1] ++ ([lo ta, hi ta, es] ++ d.toList ++ [c0, c1]) ++ rest →
          ∃ t, exec .provsec s = .next t
            ∧ Failed .provsec s t .noDevice 3
                (busAfter s.bus
                  (scratchpadWritten s.operands.rom 0x0F 0x0080 s.operands.secret w0 w1
                    ++ scratchpadRead s.operands.rom ta es d c0 c1 ++ [.rst false]) present rest))
        ∧ (s.bus.presence = true :: true :: true :: present →
          s.bus.bytes = [w0, w1] ++ ([lo ta, hi ta, es] ++ d.toList ++ [c0, c1]) ++ status :: rest → status ≠ 0xAA →
          ∃ t, exec .provsec s = .next t
            ∧ Failed .provsec s t .authFailed 3
                (busAfter s.bus
                  (scratchpadWritten s.operands.rom 0x0F 0x0080 s.operands.secret w0 w1
                    ++ scratchpadRead s.operands.rom ta es d c0 c1
                    ++ secretLoaded s.params s.operands.rom ta es status) present rest))

/-- PROVSEC stops at a failing first or second step, and no LoadFirstSecret is started: a wrong CRC of step 1 is INTEGRITY at
stage 1, no device at step 2 NO_DEVICE at stage 2, a read-back whose CRC is wrong INTEGRITY at stage 2; RTA, RES and RDATA
keep their values (43_composite.md R200, R203). No device at step 1 is NoDeviceEndsEveryBusOperation. -/
def Obligations.ProvsecFailsAtStages1And2 : Prop :=
  ∀ (s : State) (present : List Bool) (rest : List Byte) (ta : Half) (es : Byte) (d : Vector Byte 8)
    (w0 w1 c0 c1 : Byte),
    busy s.status = false →
      (s.bus.presence = true :: present → s.bus.bytes = [w0, w1] ++ rest →
          scratchpadCrcOk s.params 0x0F 0x0080 s.operands.secret w0 w1 = false →
          ∃ t, exec .provsec s = .next t
            ∧ Failed .provsec s t .integrity 1
                (busAfter s.bus (scratchpadWritten s.operands.rom 0x0F 0x0080 s.operands.secret w0 w1) present rest))
        ∧ (s.bus.presence = true :: false :: present → s.bus.bytes = [w0, w1] ++ rest →
          scratchpadCrcOk s.params 0x0F 0x0080 s.operands.secret w0 w1 = true →
          ∃ t, exec .provsec s = .next t
            ∧ Failed .provsec s t .noDevice 2
                (busAfter s.bus
                  (scratchpadWritten s.operands.rom 0x0F 0x0080 s.operands.secret w0 w1 ++ [.rst false]) present rest))
        ∧ (s.bus.presence = true :: true :: present →
          s.bus.bytes = [w0, w1] ++ ([lo ta, hi ta, es] ++ d.toList ++ [c0, c1]) ++ rest →
          scratchpadCrcOk s.params 0x0F 0x0080 s.operands.secret w0 w1 = true →
          readbackCrcOk s.params ta es d c0 c1 = false →
          ∃ t, exec .provsec s = .next t
            ∧ Failed .provsec s t .integrity 2
                (busAfter s.bus
                  (scratchpadWritten s.operands.rom 0x0F 0x0080 s.operands.secret w0 w1
                    ++ scratchpadRead s.operands.rom ta es d c0 c1) present rest))

/-- WRAUTH whose five steps are answered well: step 3 sends the returned TA and ES, step 5 the host's ADDR and the returned
ES; RTA, RES and RDATA are as step 2 returned them (43_composite.md R205). -/
def Obligations.WrauthSucceeds : Prop :=
  ∀ (s : State) (present : List Bool) (rest : List Byte) (ta : Half) (es : Byte) (d : Vector Byte 8)
    (w0 w1 c0 c1 f0 f1 : Byte),
    busy s.status = false → s.bus.presence = true :: true :: true :: true :: true :: present →
      s.bus.bytes = [w0, w1] ++ ([lo ta, hi ta, es] ++ d.toList ++ [c0, c1]) ++ [0xAA] ++ [f0, f1] ++ [0xAA] ++ rest →
      scratchpadCrcOk s.params 0x0F s.operands.addr s.operands.data w0 w1 = true →
      readbackCrcOk s.params ta es d c0 c1 = true →
      scratchpadCrcOk s.params 0xA3 s.operands.addr s.operands.data f0 f1 = true →
      ∃ t, exec .wrauth s = .next t
        ∧ Succeeded .wrauth s t { s.results with rta := ta, res := es, rdata := d }
            (busAfter s.bus
              (scratchpadWritten s.operands.rom 0x0F s.operands.addr s.operands.data w0 w1
                ++ scratchpadRead s.operands.rom ta es d c0 c1
                ++ scratchpadCopied s.params s.operands.rom ta es s.operands.macin 0xAA
                ++ scratchpadWritten s.operands.rom 0xA3 s.operands.addr s.operands.data f0 f1
                ++ secretLoaded s.params s.operands.rom s.operands.addr es 0xAA) present rest)

/-- WRAUTH stops at a failing step 1, 2 or 3: a wrong CRC of step 1 is INTEGRITY at stage 1; no device or a wrong CRC at the
read-back is NO_DEVICE or INTEGRITY at stage 2, and no CopyScratchpad is started; no device or a refused copy at step 3 is
NO_DEVICE or AUTH_FAILED at stage 3, and steps 4 and 5 are never started (43_composite.md R200, R205, R206). No device at
step 1 is NoDeviceEndsEveryBusOperation. -/
def Obligations.WrauthFailsAtStages1To3 : Prop :=
  ∀ (s : State) (present : List Bool) (rest : List Byte) (ta : Half) (es : Byte) (d : Vector Byte 8)
    (w0 w1 c0 c1 status : Byte),
    busy s.status = false →
      (s.bus.presence = true :: present → s.bus.bytes = [w0, w1] ++ rest →
          scratchpadCrcOk s.params 0x0F s.operands.addr s.operands.data w0 w1 = false →
          ∃ t, exec .wrauth s = .next t
            ∧ Failed .wrauth s t .integrity 1
                (busAfter s.bus (scratchpadWritten s.operands.rom 0x0F s.operands.addr s.operands.data w0 w1) present rest))
        ∧ (s.bus.presence = true :: false :: present → s.bus.bytes = [w0, w1] ++ rest →
          scratchpadCrcOk s.params 0x0F s.operands.addr s.operands.data w0 w1 = true →
          ∃ t, exec .wrauth s = .next t
            ∧ Failed .wrauth s t .noDevice 2
                (busAfter s.bus
                  (scratchpadWritten s.operands.rom 0x0F s.operands.addr s.operands.data w0 w1 ++ [.rst false]) present
                  rest))
        ∧ (s.bus.presence = true :: true :: present →
          s.bus.bytes = [w0, w1] ++ ([lo ta, hi ta, es] ++ d.toList ++ [c0, c1]) ++ rest →
          scratchpadCrcOk s.params 0x0F s.operands.addr s.operands.data w0 w1 = true →
          readbackCrcOk s.params ta es d c0 c1 = false →
          ∃ t, exec .wrauth s = .next t
            ∧ Failed .wrauth s t .integrity 2
                (busAfter s.bus
                  (scratchpadWritten s.operands.rom 0x0F s.operands.addr s.operands.data w0 w1
                    ++ scratchpadRead s.operands.rom ta es d c0 c1) present rest))
        ∧ (s.bus.presence = true :: true :: false :: present →
          s.bus.bytes = [w0, w1] ++ ([lo ta, hi ta, es] ++ d.toList ++ [c0, c1]) ++ rest →
          scratchpadCrcOk s.params 0x0F s.operands.addr s.operands.data w0 w1 = true →
          readbackCrcOk s.params ta es d c0 c1 = true →
          ∃ t, exec .wrauth s = .next t
            ∧ Failed .wrauth s t .noDevice 3
                (busAfter s.bus
                  (scratchpadWritten s.operands.rom 0x0F s.operands.addr s.operands.data w0 w1
                    ++ scratchpadRead s.operands.rom ta es d c0 c1 ++ [.rst false]) present rest))
        ∧ (s.bus.presence = true :: true :: true :: present →
          s.bus.bytes = [w0, w1] ++ ([lo ta, hi ta, es] ++ d.toList ++ [c0, c1]) ++ status :: rest →
          scratchpadCrcOk s.params 0x0F s.operands.addr s.operands.data w0 w1 = true →
          readbackCrcOk s.params ta es d c0 c1 = true → status ≠ 0xAA →
          ∃ t, exec .wrauth s = .next t
            ∧ Failed .wrauth s t .authFailed 3
                (busAfter s.bus
                  (scratchpadWritten s.operands.rom 0x0F s.operands.addr s.operands.data w0 w1
                    ++ scratchpadRead s.operands.rom ta es d c0 c1
                    ++ scratchpadCopied s.params s.operands.rom ta es s.operands.macin status) present rest))

/-- WRAUTH whose first three steps are answered well stops at a failing step 4 or 5: no device or a wrong CRC at the refresh is
NO_DEVICE or INTEGRITY at stage 4, no device or a refused load is NO_DEVICE or AUTH_FAILED at stage 5 (43_composite.md R200,
R205). -/
def Obligations.WrauthFailsAtStages4And5 : Prop :=
  ∀ (s : State) (present : List Bool) (rest : List Byte) (ta : Half) (es : Byte) (d : Vector Byte 8)
    (w0 w1 c0 c1 f0 f1 status : Byte),
    busy s.status = false →
      scratchpadCrcOk s.params 0x0F s.operands.addr s.operands.data w0 w1 = true →
      readbackCrcOk s.params ta es d c0 c1 = true →
      (s.bus.presence = true :: true :: true :: false :: present →
          s.bus.bytes = [w0, w1] ++ ([lo ta, hi ta, es] ++ d.toList ++ [c0, c1]) ++ [0xAA] ++ rest →
          ∃ t, exec .wrauth s = .next t
            ∧ Failed .wrauth s t .noDevice 4
                (busAfter s.bus
                  (scratchpadWritten s.operands.rom 0x0F s.operands.addr s.operands.data w0 w1
                    ++ scratchpadRead s.operands.rom ta es d c0 c1
                    ++ scratchpadCopied s.params s.operands.rom ta es s.operands.macin 0xAA ++ [.rst false]) present rest))
        ∧ (s.bus.presence = true :: true :: true :: true :: present →
          s.bus.bytes = [w0, w1] ++ ([lo ta, hi ta, es] ++ d.toList ++ [c0, c1]) ++ [0xAA] ++ [f0, f1] ++ rest →
          scratchpadCrcOk s.params 0xA3 s.operands.addr s.operands.data f0 f1 = false →
          ∃ t, exec .wrauth s = .next t
            ∧ Failed .wrauth s t .integrity 4
                (busAfter s.bus
                  (scratchpadWritten s.operands.rom 0x0F s.operands.addr s.operands.data w0 w1
                    ++ scratchpadRead s.operands.rom ta es d c0 c1
                    ++ scratchpadCopied s.params s.operands.rom ta es s.operands.macin 0xAA
                    ++ scratchpadWritten s.operands.rom 0xA3 s.operands.addr s.operands.data f0 f1) present rest))
        ∧ (s.bus.presence = true :: true :: true :: true :: false :: present →
          s.bus.bytes = [w0, w1] ++ ([lo ta, hi ta, es] ++ d.toList ++ [c0, c1]) ++ [0xAA] ++ [f0, f1] ++ rest →
          scratchpadCrcOk s.params 0xA3 s.operands.addr s.operands.data f0 f1 = true →
          ∃ t, exec .wrauth s = .next t
            ∧ Failed .wrauth s t .noDevice 5
                (busAfter s.bus
                  (scratchpadWritten s.operands.rom 0x0F s.operands.addr s.operands.data w0 w1
                    ++ scratchpadRead s.operands.rom ta es d c0 c1
                    ++ scratchpadCopied s.params s.operands.rom ta es s.operands.macin 0xAA
                    ++ scratchpadWritten s.operands.rom 0xA3 s.operands.addr s.operands.data f0 f1 ++ [.rst false])
                  present rest))
        ∧ (s.bus.presence = true :: true :: true :: true :: true :: present →
          s.bus.bytes = [w0, w1] ++ ([lo ta, hi ta, es] ++ d.toList ++ [c0, c1]) ++ [0xAA] ++ [f0, f1] ++ status :: rest →
          scratchpadCrcOk s.params 0xA3 s.operands.addr s.operands.data f0 f1 = true → status ≠ 0xAA →
          ∃ t, exec .wrauth s = .next t
            ∧ Failed .wrauth s t .authFailed 5
                (busAfter s.bus
                  (scratchpadWritten s.operands.rom 0x0F s.operands.addr s.operands.data w0 w1
                    ++ scratchpadRead s.operands.rom ta es d c0 c1
                    ++ scratchpadCopied s.params s.operands.rom ta es s.operands.macin 0xAA
                    ++ scratchpadWritten s.operands.rom 0xA3 s.operands.addr s.operands.data f0 f1
                    ++ secretLoaded s.params s.operands.rom s.operands.addr es status) present rest))

/-! ### Every operation -/

/-- For every answer of transport and token, decided or not, every operation completes: FSM is idle, BUSY = 0, DONE = 1, OPC
names the operation, the operand registers, the parameters and the host's own fields are unchanged, the old trace stands
before the new events, and POWER, if it was 0, is 0 (70_reset_and_hazards.md R262, 60_exceptions.md R221, R224, R226,
10_state.md R45). The model's own: every transport call returns (DESIGN CHOICE, entry 15: false of a transport that hangs),
and the pending buffer is emptied at completion (DEDUCED, entry 10). -/
def Obligations.EveryOperationCompletes : Prop :=
  ∀ (i : Instr) (s : State), busy s.status = false →
    ∃ t, exec i s = .next t
      ∧ t.fsm = .idle ∧ busy t.status = false ∧ done t.status = true ∧ opcField t.status = i.code
      ∧ rsvField t.status = 0 ∧ t.pending = .empty
      ∧ t.operands = s.operands ∧ t.params = s.params ∧ t.inputs = s.inputs ∧ t.reads = s.reads
      ∧ (∃ events, t.bus.trace = s.bus.trace ++ events)
      ∧ (s.bus.power = false → t.bus.power = false)

/-- A failed operation of any kind leaves every result register and every operand register unchanged: no host read but that
of STATUS returns another value than before (60_exceptions.md R224). -/
def Obligations.FailureLeavesEveryRegister : Prop :=
  ∀ (i : Instr) (s t : State), busy s.status = false → exec i s = .next t → err t.status = true →
    t.results = s.results ∧ t.operands = s.operands
      ∧ ∀ (index : BitVec 8) (e : Nat), index ≠ 0x01 → hostRead index e t = hostRead index e s

/-- Each result register is written only by the operations that the register file's table names
(10_state.md R20, column "written by the core"). -/
def Obligations.ResultRegistersHaveTheirWriters : Prop :=
  ∀ (i : Instr) (s t : State), exec i s = .next t →
    (i ≠ .rspad → i ≠ .provsec → i ≠ .wrauth →
        t.results.rta = s.results.rta ∧ t.results.res = s.results.res ∧ t.results.rdata = s.results.rdata)
      ∧ (i ≠ .rdauth → i ≠ .rdchal → t.results.page = s.results.page ∧ t.results.macrd = s.results.macrd)
      ∧ (i ≠ .rdmem → ∀ a, memRead t.results.mem a = memRead s.results.mem a)
      ∧ (i ≠ .digest → t.results.h = s.results.h)
      ∧ (i ≠ .sermac → t.results.macout = s.results.macout)

/-- The secret reaches the bus through PROVSEC alone: the bus after any other operation is the same whatever SECRET holds
(43_composite.md R202; 42_bus_commands.md and 43_composite.md, "Operands"). -/
def Obligations.OnlyProvsecSendsTheSecret : Prop :=
  ∀ (i : Instr) (s t t' : State) (secret : Vector Byte 8), i ≠ .provsec →
    exec i s = .next t → exec i { s with operands := { s.operands with secret := secret } } = .next t' →
      t'.bus = t.bus ∧ t'.status = t.status ∧ t'.results = t.results

/-- Every operation keeps the rule that a `PWR_ON` stands directly after a `W` (41_crc_bus.md R147). -/
def Obligations.HoldsFollowWrites : Prop :=
  ∀ (i : Instr) (s t : State), exec i s = .next t →
    holdsFollowWrites false s.bus.trace = true → holdsFollowWrites false t.bus.trace = true

/-- Read as calls of the transport's contract, a trace whose holds stand directly after writes loses none of them: it has as
many writes with `holdPower = true` as `PWR_ON` events (41_crc_bus.md R144, R147; entry 18). -/
def Obligations.EveryHoldIsCarriedByAWrite : Prop :=
  ∀ trace : List BusEvent, holdsFollowWrites false trace = true →
    (transportCalls trace).countP (fun c => match c with | .writeByte _ true => true | _ => false)
      = trace.countP (fun e => match e with | .pwrOn => true | _ => false)

/-! ### One position at a time -/

/-- A CMD write followed by moves of the core alone, as many as the operation's pseudocode has positions or more, reaches
exactly the state that the operation's meaning gives: the operation taken one position at a time and the operation taken as
one step are the same machine (10_state.md R44, 30_encoding.md R98, 43_composite.md R208; entry 4). The number of moves is
the model's own: it counts one for each position of the model's pseudocode (DESIGN CHOICE, entry 5). -/
def Obligations.StartThenTicksIsExec : Prop :=
  ∀ (i : Instr) (s : State) (n : Nat),
    busy s.status = false → s.fsm = .idle →
      (programOf i s.params { operands := s.operands, h := s.results.h }).length ≤ n →
      Host.Core.run Sys2Proof.core (n + 1) { s with inputs := [.write 0x00 0 (encode i).toNat] }
        = exec i { s with inputs := [] }

/-- The statement `RUN <mnemonic>` of a host script, its accesses taken one after another, ends in the state that the
operation's meaning gives, but for the STATUS values the `WAIT` loop has read (30_encoding.md R97, R98; entry 4). The number
of steps is the model's own: one for each position of the model's pseudocode (DESIGN CHOICE, entry 5), a STATUS read in front
of each (DESIGN CHOICE, entry 17), no move of the core before the `WAIT` (entry 22). -/
def Obligations.RunStatementIsExec : Prop :=
  ∀ (i : Instr) (s : State) (n : Nat),
    busy s.status = false → s.fsm = .idle →
      (programOf i s.params { operands := s.operands, h := s.results.h }).length ≤ n →
      ∃ t u, runInputs (n + 2) { s with inputs := stmtAccesses s.params (.run i) } = .next t
        ∧ exec i { s with inputs := [] } = .next u ∧ t = { u with reads := t.reads }

/-- A host write changes no move of the core, the one that ends the operation among them. A write to any index but CMD's may
stand before the move or after it: the states are the same. A CMD write before a move made with BUSY = 1 is dropped, and so is
one after it while BUSY is still 1 (10_state.md R21, R41, 20_memory.md R79, 60_exceptions.md R231). -/
def Obligations.HostWritesDoNotTouchTheRunningOperation : Prop :=
  ∀ (s t : State) (index : BitVec 8) (e v : Nat), coreTick s = .next t →
    (index ≠ 0x00 → coreTick (hostWrite index e v s) = .next (hostWrite index e v t))
      ∧ (busy s.status = true → coreTick (hostWrite 0x00 e v s) = .next t)
      ∧ (busy t.status = true → hostWrite 0x00 e v t = t)

/-- The commit is atomic: a move of the core changes a result register only in the step that ends the operation with success
(20_memory.md R71, 10_state.md R47, 60_exceptions.md R226). -/
def Obligations.ResultsChangeOnlyAtSuccess : Prop :=
  ∀ s t : State, coreTick s = .next t → t.results ≠ s.results →
    t.fsm = .idle ∧ busy t.status = false ∧ done t.status = true ∧ err t.status = false
      ∧ kindField t.status = 0 ∧ stageField t.status = 0 ∧ opcField t.status = opcField s.status

/-- An idle core does nothing: only a START, a reset or a host access changes the state
(60_exceptions.md R241). -/
def Obligations.IdleCoreDoesNothing : Prop :=
  ∀ s : State, s.fsm = .idle → coreTick s = .next s

/-- A script at a `WAIT`: either all accesses of the line are made, STATUS then shows BUSY = 0 and the script goes on at the
next line from there, or the steps ran out in the loop and the run stopped there (30_encoding.md R98). For every pace of the
core between the host's accesses and every number of steps (the model's own, entries 21, 22). -/
def Obligations.ScriptLeavesWaitOnlyAtBusyZero : Prop :=
  ∀ (pace : Nat → Nat) (fuel : Nat) (script : List Line) (lines pc made : Nat) (label : Option String) (s t : State),
    s.inputs = [] → script[pc]? = some ⟨label, .wait⟩ →
      runScript pace fuel script (lines + 1) pc made s = .next t →
      ∃ u, runInputs fuel { s with inputs := List.replicate (pace made) .tick ++ [.wait] } = .next u
        ∧ (u.inputs = [] ∧ busy u.status = false ∧ runScript pace fuel script lines (pc + 1) (made + 1) u = .next t
          ∨ u.inputs ≠ [] ∧ t = u)

/-! ### The host's accesses -/

/-- A host write to an element of an operand register is read back, cut to the register's width, and no other element of any
register reads otherwise than before (10_state.md R20, R26). -/
def Obligations.OperandRegistersReadBack : Prop :=
  ∀ (s : State) (r : Reg) (e v : Nat), regReadWrite r = true → e < regCount s.params r →
    hostRead (regIndex r) e (hostWrite (regIndex r) e v s) = BitVec.ofNat 32 (v % 2 ^ regWidth r)
      ∧ ∀ (r' : Reg) (e' : Nat), (r', e') ≠ (r, e) →
        hostRead (regIndex r') e' (hostWrite (regIndex r) e v s) = hostRead (regIndex r') e' s

/-- A host write to a read-only register, to an unassigned index, or to an element at or beyond the element count has no
effect; a host read of CMD, of an unassigned index, or of an element at or beyond the element count returns 0; a value wider
than the register keeps its low bits (10_state.md R26). -/
def Obligations.HostAccessRules : Prop :=
  ∀ (s : State) (index : BitVec 8) (e v : Nat),
    ((∀ r, regAt index = some r → r ≠ .cmd ∧ regReadWrite r = false ∨ regCount s.params r ≤ e) →
        hostWrite index e v s = s)
      ∧ ((∀ r, regAt index = some r → r = .cmd ∨ regCount s.params r ≤ e) → hostRead index e s = 0)
      ∧ ∀ r, regAt index = some r → hostWrite index e v s = hostWrite index e (v % 2 ^ regWidth r) s

/-- A host read changes nothing of the core: the step that makes it leaves every field but the schedule and the host's list
of values read (20_memory.md R72). -/
def Obligations.HostReadsHaveNoSideEffects : Prop :=
  ∀ (s : State) (index : BitVec 8) (e : Nat) (rest : List Input), s.inputs = .read index e :: rest →
    step s = .next { s with inputs := rest, reads := s.reads ++ [hostRead index e s] }

/-- STATUS keeps its value until the next START or reset: with no operation running, no other step changes it
(60_exceptions.md R233). -/
def Obligations.StatusStaysUntilNextStart : Prop :=
  ∀ s t : State, s.fsm = .idle → busy s.status = false → step s = .next t →
    (∀ a ∈ s.inputs.head?, isCommandWrite a = false ∧ a ≠ .reset) → t.status = s.status

/-! ### Reset -/

/-- The state after reset: every host register 0, FSM idle, POWER 0, the pending-result buffer empty, no bus event
(70_reset_and_hazards.md R250). -/
def Obligations.ResetState : Prop :=
  State.reset.status = 0x0000 ∧ State.reset.fsm = .idle ∧ State.reset.bus.power = false
    ∧ State.reset.pending = .empty ∧ State.reset.bus.trace = []
    ∧ ∀ (index : BitVec 8) (e : Nat), hostRead index e State.reset = 0

/-- A reset of the core at any moment, an operation running or not: every host register reads 0, FSM is idle, POWER 0, the
pending buffer empty, and the only bus event is `PWR_OFF`, when a hold was active
(70_reset_and_hazards.md R251; R250, R253). -/
def Obligations.ResetAccess : Prop :=
  ∀ (s : State) (rest : List Input), s.inputs = .reset :: rest →
    ∃ t, step s = .next t
      ∧ t.status = 0x0000 ∧ t.fsm = .idle ∧ t.bus.power = false ∧ t.pending = .empty
      ∧ (∀ (index : BitVec 8) (e : Nat), hostRead index e t = 0)
      ∧ t.bus.trace = s.bus.trace ++ (if s.bus.power = true then [.pwrOff] else [])

/-! ### The whole machine -/

/-- The invariant holds after reset. The model's own in it: the parameters of State.reset are the spec's defaults (PRESUMED,
entry 6: a claim about State.reset alone), MEM is the empty canonical list (DEDUCED, entry 7), and the pending buffer with
nothing in it is written as zeros (DEDUCED, entry 10). -/
def Obligations.InvariantAtReset : Prop := CoreInv State.reset

/-- Every step keeps the invariant: parameters, MEM's canonical form and bound, the values STATUS can show, and the agreement
of STATUS, FSM, POWER and the pending buffer (10_state.md R22 to R25, R40, R44, R45, 60_exceptions.md R220,
93_implementation_defined.md U10; entries 6, 7, 10). -/
def Obligations.StepKeepsInvariant : Prop :=
  ∀ s t : State, CoreInv s → step s = .next t → CoreInv t

/-- What the invariant says of STATUS: the reserved bits read 0, KIND is 0 to 5, STAGE is 0 to 5, BUSY is 1 exactly while an
operation runs, and then DONE, ERR, KIND and STAGE are 0 and OPC names the operation; with ERR = 0, KIND and STAGE are 0
(10_state.md R22, R23, R24). -/
def Obligations.StatusFieldsOfInvariantStates : Prop :=
  ∀ s : State, CoreInv s →
    rsvField s.status = 0 ∧ kindField s.status ≤ 5#3 ∧ stageField s.status ≤ 5#3
      ∧ (busy s.status = true ↔ s.fsm ≠ .idle)
      ∧ (∀ op k, s.fsm = .run op k →
          done s.status = false ∧ err s.status = false ∧ kindField s.status = 0 ∧ stageField s.status = 0
            ∧ opcField s.status = op.code)
      ∧ (err s.status = false → kindField s.status = 0 ∧ stageField s.status = 0)
      ∧ (err s.status = true → done s.status = true ∧ kindField s.status ≠ 0)

/-- The machine never stops: from every state of the invariant, a step gives a next state. -/
def Obligations.InvariantStatesNeverStop : Prop :=
  ∀ s : State, CoreInv s → ∃ t, step s = .next t

/-- The trace only grows, and the parameters never change (20_memory.md R75; 00_scope.md section 4). -/
def Obligations.TraceOnlyGrows : Prop :=
  ∀ s t : State, step s = .next t → (∃ events, t.bus.trace = s.bus.trace ++ events) ∧ t.params = s.params

/-! ### The host's block -/

/-- The facts of a ReadAuthenticatedPage block that hold whatever the inputs are: word 9 is 0xFFFFFFFF, the pad byte 0x80
ends word 13, word 14 is 0 and word 15 is 0x1B8 (40_mac_engine.md R125, 20_memory.md R65; informative, entry 19). -/
def Obligations.ReadAuthBlockFixedWords : Prop :=
  ∀ (p : Params) (secret : Vector Byte 8) (page : Vector Byte 32) (addr : Half) (rom : Vector Byte 8) (chal : Vector Byte 3),
    (readAuthBlock p secret page addr rom chal)[9] = 0xFFFFFFFF#32
      ∧ (readAuthBlock p secret page addr rom chal)[13].extractLsb' 0 8 = 0x80#8
      ∧ (readAuthBlock p secret page addr rom chal)[14] = 0x00000000#32
      ∧ (readAuthBlock p secret page addr rom chal)[15] = 0x000001B8#32
end

