-- ==== Sys2Proof/Laws/Memory.lean ====
section
/-!
SUPPORT. The laws of the MEM buffer: what a write changes, what it leaves, and that it keeps the canonical form.
-/

namespace Sys2Proof.Machine

@[simp] theorem memRead_nil (a : Nat) : memRead [] a = memDefault := rfl

/-- An index below every listed one is not listed. -/
theorem memRead_of_lt {m : Memory} {a : Nat} (h : ∀ c ∈ m, a < c.1) : memRead m a = memDefault := by
  induction m with
  | nil => rfl
  | cons c m ih =>
    have hc : a ≠ c.1 := Nat.ne_of_lt (h c (by simp))
    simp [memRead, hc, ih fun d hd => h d (by simp [hd])]

/-- Every index a write lists was listed before or is the one written. -/
theorem memWrite_mem {m : Memory} {a : Nat} {v : Byte} {c : Host.Cell} (h : c ∈ memWrite m a v) :
    c ∈ m ∨ (c = (a, v) ∧ v ≠ memDefault) := by
  induction m with
  | nil =>
    simp only [memWrite] at h
    split at h <;> simp_all
  | cons d m ih =>
    simp only [memWrite] at h
    split at h
    · split at h
      · exact .inl h
      · rcases List.mem_cons.1 h with rfl | h
        · exact .inr ⟨rfl, ‹_›⟩
        · exact .inl h
    · split at h
      · split at h
        · exact .inl (by simp [h])
        · rcases List.mem_cons.1 h with rfl | h
          · exact .inr ⟨rfl, ‹_›⟩
          · exact .inl (by simp [h])
      · rcases List.mem_cons.1 h with rfl | h
        · exact .inl (by simp)
        · rcases ih h with h | h
          · exact .inl (by simp [h])
          · exact .inr h

/-- A write keeps the canonical form. -/
theorem memWrite_wf {m : Memory} (h : Memory.wf m) (a : Nat) (v : Byte) : Memory.wf (memWrite m a v) := by
  refine ⟨?_, fun c hc => ?_⟩
  · obtain ⟨hs, -⟩ := h
    induction m with
    | nil => simp only [memWrite]; split <;> simp
    | cons d m ih =>
      rw [List.pairwise_cons] at hs
      simp only [memWrite]
      split
      · split
        · exact List.pairwise_cons.2 hs
        · refine List.pairwise_cons.2 ⟨fun c hc => ?_, List.pairwise_cons.2 hs⟩
          rcases List.mem_cons.1 hc with rfl | hc
          · assumption
          · exact Nat.lt_trans ‹_› (hs.1 c hc)
      · split
        · split
          · exact hs.2
          · refine List.pairwise_cons.2 ⟨fun c hc => ?_, hs.2⟩
            have := hs.1 c hc
            simp_all
        · refine List.pairwise_cons.2 ⟨fun c hc => ?_, ih hs.2⟩
          rcases memWrite_mem hc with hc | ⟨rfl, -⟩
          · exact hs.1 c hc
          · show d.1 < a; omega
  · rcases memWrite_mem hc with hc | ⟨rfl, hv⟩
    · exact h.2 c hc
    · exact hv

/-- Reading the index written gives the byte written. -/
theorem memRead_memWrite_same {m : Memory} (h : Memory.wf m) (a : Nat) (v : Byte) :
    memRead (memWrite m a v) a = v := by
  obtain ⟨hs, -⟩ := h
  induction m with
  | nil => simp only [memWrite]; split <;> simp_all [memRead]
  | cons d m ih =>
    rw [List.pairwise_cons] at hs
    simp only [memWrite]
    split
    · split
      · have hd : a ≠ d.1 := by omega
        have := memRead_of_lt (m := m) (a := a) fun c hc => Nat.lt_trans ‹_› (hs.1 c hc)
        simp_all [memRead]
      · simp [memRead]
    · split
      · split
        · have := memRead_of_lt (m := m) (a := a) fun c hc => by have := hs.1 c hc; omega
          simp_all
        · simp [memRead]
      · simp_all [memRead]

/-- Reading another index gives what it gave before. -/
theorem memRead_memWrite_other {m : Memory} {a b : Nat} (hab : b ≠ a) (v : Byte) :
    memRead (memWrite m a v) b = memRead m b := by
  induction m with
  | nil => simp only [memWrite]; split <;> simp_all [memRead]
  | cons d m ih =>
    simp only [memWrite]
    split
    · split
      · rfl
      · simp [memRead, hab]
    · split
      · split
        · simp_all [memRead]
        · simp_all [memRead]
      · simp [memRead, ih]

/-- Writing several bytes keeps the canonical form. -/
theorem memWriteBytes_wf {m : Memory} (h : Memory.wf m) (a : Nat) (vs : List Byte) :
    Memory.wf (memWriteBytes m a vs) := by
  induction vs generalizing m a with
  | nil => exact h
  | cons v vs ih => exact ih (memWrite_wf h a v) (a + 1)

/-- Every index that writing several bytes lists was listed before or is one of theirs. -/
theorem memWriteBytes_mem {m : Memory} {a : Nat} {vs : List Byte} {c : Host.Cell} (h : c ∈ memWriteBytes m a vs) :
    c ∈ m ∨ (a ≤ c.1 ∧ c.1 < a + vs.length) := by
  induction vs generalizing m a with
  | nil => exact .inl h
  | cons v vs ih =>
    rcases ih h with h | h
    · rcases memWrite_mem h with h | ⟨rfl, -⟩
      · exact .inl h
      · exact .inr (by simp)
    · exact .inr (by simp only [List.length_cons]; omega)

/-- Reading outside the bytes written gives what it gave before. -/
theorem memRead_memWriteBytes_other {m : Memory} {a b : Nat} {vs : List Byte} (h : b < a ∨ a + vs.length ≤ b) :
    memRead (memWriteBytes m a vs) b = memRead m b := by
  induction vs generalizing m a with
  | nil => rfl
  | cons v vs ih =>
    simp only [List.length_cons] at h
    simp only [memWriteBytes]
    rw [ih (by omega), memRead_memWrite_other (by omega)]

/-- Reading one of the bytes written gives that byte. -/
theorem memRead_memWriteBytes_same {m : Memory} (h : Memory.wf m) {a : Nat} {vs : List Byte} {j : Nat}
    (hj : j < vs.length) : memRead (memWriteBytes m a vs) (a + j) = vs[j] := by
  induction vs generalizing m a j with
  | nil => simp at hj
  | cons v vs ih =>
    simp only [memWriteBytes]
    cases j with
    | zero => simpa using (memRead_memWriteBytes_other (by omega)).trans (memRead_memWrite_same h a v)
    | succ j =>
      have := ih (memWrite_wf h a v) (a := a + 1) (j := j) (by simpa using hj)
      rw [show a + (j + 1) = a + 1 + j by omega]
      simpa using this

/-- MEM after reset has the canonical form. -/
theorem reset_mem_wf : Memory.wf State.reset.results.mem := by decide

end Sys2Proof.Machine
end

