-- ==== Sys2Proof/Laws/PerInstr.lean ====
section
/-!
SUPPORT. The family of statements that is made once for every constructor of Instr.
-/

namespace Sys2Proof.Laws

/-- The encoding of an operation: RSV = 0, OP = its code, well formed, and decoded to the operation
(30_encoding.md R81, R84). -/
def EncodingRoundTrip.Statement (i : Instr) : Prop :=
  cmdRsv (encode i) = 0#4 ∧ cmdOp (encode i) = i.code ∧ cmdWellFormed (encode i) = true ∧ decode (encode i) = .operation i

theorem EncodingRoundTrip.digest : EncodingRoundTrip.Statement .digest := ⟨rfl, rfl, rfl, rfl⟩
theorem EncodingRoundTrip.sermac : EncodingRoundTrip.Statement .sermac := ⟨rfl, rfl, rfl, rfl⟩
theorem EncodingRoundTrip.wspad : EncodingRoundTrip.Statement .wspad := ⟨rfl, rfl, rfl, rfl⟩
theorem EncodingRoundTrip.rspad : EncodingRoundTrip.Statement .rspad := ⟨rfl, rfl, rfl, rfl⟩
theorem EncodingRoundTrip.rfspad : EncodingRoundTrip.Statement .rfspad := ⟨rfl, rfl, rfl, rfl⟩
theorem EncodingRoundTrip.cpspad : EncodingRoundTrip.Statement .cpspad := ⟨rfl, rfl, rfl, rfl⟩
theorem EncodingRoundTrip.rdauth : EncodingRoundTrip.Statement .rdauth := ⟨rfl, rfl, rfl, rfl⟩
theorem EncodingRoundTrip.ldsec : EncodingRoundTrip.Statement .ldsec := ⟨rfl, rfl, rfl, rfl⟩
theorem EncodingRoundTrip.rdmem : EncodingRoundTrip.Statement .rdmem := ⟨rfl, rfl, rfl, rfl⟩
theorem EncodingRoundTrip.rdchal : EncodingRoundTrip.Statement .rdchal := ⟨rfl, rfl, rfl, rfl⟩
theorem EncodingRoundTrip.provsec : EncodingRoundTrip.Statement .provsec := ⟨rfl, rfl, rfl, rfl⟩
theorem EncodingRoundTrip.wrauth : EncodingRoundTrip.Statement .wrauth := ⟨rfl, rfl, rfl, rfl⟩

end Sys2Proof.Laws
end

