-- ==== Sys2Proof/Laws/State.lean ====
section
/-!
SUPPORT. One lemma per field of State for each update of it, and per field of the bus for each bus primitive.
-/

namespace Sys2Proof.Machine

/-- A state with another bus, pending buffer and sequencer state: what positions of pseudocode that drive the bus
make of a state. -/
def State.moved (b : Bus) (p : Pending) (f : Fsm) (s : State) : State := { s with bus := b, pending := p, fsm := f }

/-! ### `State.forget` -/

@[simp] theorem State.forget_params (s : State) :
    (s.forget).params = s.params := rfl
@[simp] theorem State.forget_cmd (s : State) :
    (s.forget).cmd = s.cmd := rfl
@[simp] theorem State.forget_status (s : State) :
    (s.forget).status = s.status := rfl
@[simp] theorem State.forget_operands (s : State) :
    (s.forget).operands = s.operands := rfl
@[simp] theorem State.forget_results (s : State) :
    (s.forget).results = s.results := rfl
@[simp] theorem State.forget_latch (s : State) :
    (s.forget).latch = Config.unspecifiedLatch s.free := rfl
@[simp] theorem State.forget_fsm (s : State) :
    (s.forget).fsm = s.fsm := rfl
@[simp] theorem State.forget_pending (s : State) :
    (s.forget).pending = s.pending := rfl
@[simp] theorem State.forget_work (s : State) :
    (s.forget).work = Config.unspecifiedWork s.free := rfl
@[simp] theorem State.forget_bus (s : State) :
    (s.forget).bus = s.bus := rfl
@[simp] theorem State.forget_inputs (s : State) :
    (s.forget).inputs = s.inputs := rfl
@[simp] theorem State.forget_reads (s : State) :
    (s.forget).reads = s.reads := rfl
@[simp] theorem State.forget_free (s : State) :
    (s.forget).free = s.free + 1 := rfl

/-! ### `State.raise` -/

@[simp] theorem State.raise_params (kind : Kind) (stage : BitVec 3) (s : State) :
    (s.raise kind stage).params = s.params := rfl
@[simp] theorem State.raise_cmd (kind : Kind) (stage : BitVec 3) (s : State) :
    (s.raise kind stage).cmd = s.cmd := rfl
@[simp] theorem State.raise_status (kind : Kind) (stage : BitVec 3) (s : State) :
    (s.raise kind stage).status = statusFailed s.status kind stage := rfl
@[simp] theorem State.raise_operands (kind : Kind) (stage : BitVec 3) (s : State) :
    (s.raise kind stage).operands = s.operands := rfl
@[simp] theorem State.raise_results (kind : Kind) (stage : BitVec 3) (s : State) :
    (s.raise kind stage).results = s.results := rfl
@[simp] theorem State.raise_latch (kind : Kind) (stage : BitVec 3) (s : State) :
    (s.raise kind stage).latch = Config.unspecifiedLatch s.free := rfl
@[simp] theorem State.raise_fsm (kind : Kind) (stage : BitVec 3) (s : State) :
    (s.raise kind stage).fsm = .idle := rfl
@[simp] theorem State.raise_pending (kind : Kind) (stage : BitVec 3) (s : State) :
    (s.raise kind stage).pending = .empty := rfl
@[simp] theorem State.raise_work (kind : Kind) (stage : BitVec 3) (s : State) :
    (s.raise kind stage).work = Config.unspecifiedWork s.free := rfl
@[simp] theorem State.raise_bus (kind : Kind) (stage : BitVec 3) (s : State) :
    (s.raise kind stage).bus = s.bus := rfl
@[simp] theorem State.raise_inputs (kind : Kind) (stage : BitVec 3) (s : State) :
    (s.raise kind stage).inputs = s.inputs := rfl
@[simp] theorem State.raise_reads (kind : Kind) (stage : BitVec 3) (s : State) :
    (s.raise kind stage).reads = s.reads := rfl
@[simp] theorem State.raise_free (kind : Kind) (stage : BitVec 3) (s : State) :
    (s.raise kind stage).free = s.free + 1 := rfl

/-! ### `State.succeed` -/

@[simp] theorem State.succeed_params (regs : List ResultReg) (s : State) :
    (s.succeed regs).params = s.params := rfl
@[simp] theorem State.succeed_cmd (regs : List ResultReg) (s : State) :
    (s.succeed regs).cmd = s.cmd := rfl
@[simp] theorem State.succeed_status (regs : List ResultReg) (s : State) :
    (s.succeed regs).status = statusSucceeded s.status := rfl
@[simp] theorem State.succeed_operands (regs : List ResultReg) (s : State) :
    (s.succeed regs).operands = s.operands := rfl
@[simp] theorem State.succeed_results (regs : List ResultReg) (s : State) :
    (s.succeed regs).results = commit s.params.membuf s.pending regs s.results := rfl
@[simp] theorem State.succeed_latch (regs : List ResultReg) (s : State) :
    (s.succeed regs).latch = Config.unspecifiedLatch s.free := rfl
@[simp] theorem State.succeed_fsm (regs : List ResultReg) (s : State) :
    (s.succeed regs).fsm = .idle := rfl
@[simp] theorem State.succeed_pending (regs : List ResultReg) (s : State) :
    (s.succeed regs).pending = .empty := rfl
@[simp] theorem State.succeed_work (regs : List ResultReg) (s : State) :
    (s.succeed regs).work = Config.unspecifiedWork s.free := rfl
@[simp] theorem State.succeed_bus (regs : List ResultReg) (s : State) :
    (s.succeed regs).bus = s.bus := rfl
@[simp] theorem State.succeed_inputs (regs : List ResultReg) (s : State) :
    (s.succeed regs).inputs = s.inputs := rfl
@[simp] theorem State.succeed_reads (regs : List ResultReg) (s : State) :
    (s.succeed regs).reads = s.reads := rfl
@[simp] theorem State.succeed_free (regs : List ResultReg) (s : State) :
    (s.succeed regs).free = s.free + 1 := rfl

/-! ### `State.advanceBus` -/

@[simp] theorem State.advanceBus_params (b : Bus) (s : State) :
    (s.advanceBus b).params = s.params := rfl
@[simp] theorem State.advanceBus_cmd (b : Bus) (s : State) :
    (s.advanceBus b).cmd = s.cmd := rfl
@[simp] theorem State.advanceBus_status (b : Bus) (s : State) :
    (s.advanceBus b).status = s.status := rfl
@[simp] theorem State.advanceBus_operands (b : Bus) (s : State) :
    (s.advanceBus b).operands = s.operands := rfl
@[simp] theorem State.advanceBus_results (b : Bus) (s : State) :
    (s.advanceBus b).results = s.results := rfl
@[simp] theorem State.advanceBus_latch (b : Bus) (s : State) :
    (s.advanceBus b).latch = s.latch := rfl
@[simp] theorem State.advanceBus_fsm (b : Bus) (s : State) :
    (s.advanceBus b).fsm = s.fsm.next := rfl
@[simp] theorem State.advanceBus_pending (b : Bus) (s : State) :
    (s.advanceBus b).pending = s.pending := rfl
@[simp] theorem State.advanceBus_work (b : Bus) (s : State) :
    (s.advanceBus b).work = s.work := rfl
@[simp] theorem State.advanceBus_bus (b : Bus) (s : State) :
    (s.advanceBus b).bus = b := rfl
@[simp] theorem State.advanceBus_inputs (b : Bus) (s : State) :
    (s.advanceBus b).inputs = s.inputs := rfl
@[simp] theorem State.advanceBus_reads (b : Bus) (s : State) :
    (s.advanceBus b).reads = s.reads := rfl
@[simp] theorem State.advanceBus_free (b : Bus) (s : State) :
    (s.advanceBus b).free = s.free := rfl

/-! ### `State.advanceBusPending` -/

@[simp] theorem State.advanceBusPending_params (b : Bus) (p : Pending) (s : State) :
    (s.advanceBusPending b p).params = s.params := rfl
@[simp] theorem State.advanceBusPending_cmd (b : Bus) (p : Pending) (s : State) :
    (s.advanceBusPending b p).cmd = s.cmd := rfl
@[simp] theorem State.advanceBusPending_status (b : Bus) (p : Pending) (s : State) :
    (s.advanceBusPending b p).status = s.status := rfl
@[simp] theorem State.advanceBusPending_operands (b : Bus) (p : Pending) (s : State) :
    (s.advanceBusPending b p).operands = s.operands := rfl
@[simp] theorem State.advanceBusPending_results (b : Bus) (p : Pending) (s : State) :
    (s.advanceBusPending b p).results = s.results := rfl
@[simp] theorem State.advanceBusPending_latch (b : Bus) (p : Pending) (s : State) :
    (s.advanceBusPending b p).latch = s.latch := rfl
@[simp] theorem State.advanceBusPending_fsm (b : Bus) (p : Pending) (s : State) :
    (s.advanceBusPending b p).fsm = s.fsm.next := rfl
@[simp] theorem State.advanceBusPending_pending (b : Bus) (p : Pending) (s : State) :
    (s.advanceBusPending b p).pending = p := rfl
@[simp] theorem State.advanceBusPending_work (b : Bus) (p : Pending) (s : State) :
    (s.advanceBusPending b p).work = s.work := rfl
@[simp] theorem State.advanceBusPending_bus (b : Bus) (p : Pending) (s : State) :
    (s.advanceBusPending b p).bus = b := rfl
@[simp] theorem State.advanceBusPending_inputs (b : Bus) (p : Pending) (s : State) :
    (s.advanceBusPending b p).inputs = s.inputs := rfl
@[simp] theorem State.advanceBusPending_reads (b : Bus) (p : Pending) (s : State) :
    (s.advanceBusPending b p).reads = s.reads := rfl
@[simp] theorem State.advanceBusPending_free (b : Bus) (p : Pending) (s : State) :
    (s.advanceBusPending b p).free = s.free := rfl

/-! ### `State.advancePending` -/

@[simp] theorem State.advancePending_params (p : Pending) (s : State) :
    (s.advancePending p).params = s.params := rfl
@[simp] theorem State.advancePending_cmd (p : Pending) (s : State) :
    (s.advancePending p).cmd = s.cmd := rfl
@[simp] theorem State.advancePending_status (p : Pending) (s : State) :
    (s.advancePending p).status = s.status := rfl
@[simp] theorem State.advancePending_operands (p : Pending) (s : State) :
    (s.advancePending p).operands = s.operands := rfl
@[simp] theorem State.advancePending_results (p : Pending) (s : State) :
    (s.advancePending p).results = s.results := rfl
@[simp] theorem State.advancePending_latch (p : Pending) (s : State) :
    (s.advancePending p).latch = s.latch := rfl
@[simp] theorem State.advancePending_fsm (p : Pending) (s : State) :
    (s.advancePending p).fsm = s.fsm.next := rfl
@[simp] theorem State.advancePending_pending (p : Pending) (s : State) :
    (s.advancePending p).pending = p := rfl
@[simp] theorem State.advancePending_work (p : Pending) (s : State) :
    (s.advancePending p).work = s.work := rfl
@[simp] theorem State.advancePending_bus (p : Pending) (s : State) :
    (s.advancePending p).bus = s.bus := rfl
@[simp] theorem State.advancePending_inputs (p : Pending) (s : State) :
    (s.advancePending p).inputs = s.inputs := rfl
@[simp] theorem State.advancePending_reads (p : Pending) (s : State) :
    (s.advancePending p).reads = s.reads := rfl
@[simp] theorem State.advancePending_free (p : Pending) (s : State) :
    (s.advancePending p).free = s.free := rfl

/-! ### `State.advanceWork` -/

@[simp] theorem State.advanceWork_params (m : MacWork) (s : State) :
    (s.advanceWork m).params = s.params := rfl
@[simp] theorem State.advanceWork_cmd (m : MacWork) (s : State) :
    (s.advanceWork m).cmd = s.cmd := rfl
@[simp] theorem State.advanceWork_status (m : MacWork) (s : State) :
    (s.advanceWork m).status = s.status := rfl
@[simp] theorem State.advanceWork_operands (m : MacWork) (s : State) :
    (s.advanceWork m).operands = s.operands := rfl
@[simp] theorem State.advanceWork_results (m : MacWork) (s : State) :
    (s.advanceWork m).results = s.results := rfl
@[simp] theorem State.advanceWork_latch (m : MacWork) (s : State) :
    (s.advanceWork m).latch = s.latch := rfl
@[simp] theorem State.advanceWork_fsm (m : MacWork) (s : State) :
    (s.advanceWork m).fsm = s.fsm.next := rfl
@[simp] theorem State.advanceWork_pending (m : MacWork) (s : State) :
    (s.advanceWork m).pending = s.pending := rfl
@[simp] theorem State.advanceWork_work (m : MacWork) (s : State) :
    (s.advanceWork m).work = m := rfl
@[simp] theorem State.advanceWork_bus (m : MacWork) (s : State) :
    (s.advanceWork m).bus = s.bus := rfl
@[simp] theorem State.advanceWork_inputs (m : MacWork) (s : State) :
    (s.advanceWork m).inputs = s.inputs := rfl
@[simp] theorem State.advanceWork_reads (m : MacWork) (s : State) :
    (s.advanceWork m).reads = s.reads := rfl
@[simp] theorem State.advanceWork_free (m : MacWork) (s : State) :
    (s.advanceWork m).free = s.free := rfl

/-! ### `State.advance` -/

@[simp] theorem State.advance_params (s : State) :
    (s.advance).params = s.params := rfl
@[simp] theorem State.advance_cmd (s : State) :
    (s.advance).cmd = s.cmd := rfl
@[simp] theorem State.advance_status (s : State) :
    (s.advance).status = s.status := rfl
@[simp] theorem State.advance_operands (s : State) :
    (s.advance).operands = s.operands := rfl
@[simp] theorem State.advance_results (s : State) :
    (s.advance).results = s.results := rfl
@[simp] theorem State.advance_latch (s : State) :
    (s.advance).latch = s.latch := rfl
@[simp] theorem State.advance_fsm (s : State) :
    (s.advance).fsm = s.fsm.next := rfl
@[simp] theorem State.advance_pending (s : State) :
    (s.advance).pending = s.pending := rfl
@[simp] theorem State.advance_work (s : State) :
    (s.advance).work = s.work := rfl
@[simp] theorem State.advance_bus (s : State) :
    (s.advance).bus = s.bus := rfl
@[simp] theorem State.advance_inputs (s : State) :
    (s.advance).inputs = s.inputs := rfl
@[simp] theorem State.advance_reads (s : State) :
    (s.advance).reads = s.reads := rfl
@[simp] theorem State.advance_free (s : State) :
    (s.advance).free = s.free := rfl

/-! ### `State.latchOperands` -/

@[simp] theorem State.latchOperands_params (c : Byte) (s : State) :
    (s.latchOperands c).params = s.params := rfl
@[simp] theorem State.latchOperands_cmd (c : Byte) (s : State) :
    (s.latchOperands c).cmd = c := rfl
@[simp] theorem State.latchOperands_status (c : Byte) (s : State) :
    (s.latchOperands c).status = statusStarted (cmdOp c) := rfl
@[simp] theorem State.latchOperands_operands (c : Byte) (s : State) :
    (s.latchOperands c).operands = s.operands := rfl
@[simp] theorem State.latchOperands_results (c : Byte) (s : State) :
    (s.latchOperands c).results = s.results := rfl
@[simp] theorem State.latchOperands_latch (c : Byte) (s : State) :
    (s.latchOperands c).latch = { operands := s.operands, h := s.results.h } := rfl
@[simp] theorem State.latchOperands_fsm (c : Byte) (s : State) :
    (s.latchOperands c).fsm = s.fsm := rfl
@[simp] theorem State.latchOperands_pending (c : Byte) (s : State) :
    (s.latchOperands c).pending = .empty := rfl
@[simp] theorem State.latchOperands_work (c : Byte) (s : State) :
    (s.latchOperands c).work = s.work := rfl
@[simp] theorem State.latchOperands_bus (c : Byte) (s : State) :
    (s.latchOperands c).bus = s.bus := rfl
@[simp] theorem State.latchOperands_inputs (c : Byte) (s : State) :
    (s.latchOperands c).inputs = s.inputs := rfl
@[simp] theorem State.latchOperands_reads (c : Byte) (s : State) :
    (s.latchOperands c).reads = s.reads := rfl
@[simp] theorem State.latchOperands_free (c : Byte) (s : State) :
    (s.latchOperands c).free = s.free := rfl

/-! ### `State.refuseStart` -/

@[simp] theorem State.refuseStart_params (c : Byte) (s : State) :
    (s.refuseStart c).params = s.params := rfl
@[simp] theorem State.refuseStart_cmd (c : Byte) (s : State) :
    (s.refuseStart c).cmd = c := rfl
@[simp] theorem State.refuseStart_status (c : Byte) (s : State) :
    (s.refuseStart c).status = statusFailed (statusStarted (cmdOp c)) .illegalOp 0 := rfl
@[simp] theorem State.refuseStart_operands (c : Byte) (s : State) :
    (s.refuseStart c).operands = s.operands := rfl
@[simp] theorem State.refuseStart_results (c : Byte) (s : State) :
    (s.refuseStart c).results = s.results := rfl
@[simp] theorem State.refuseStart_latch (c : Byte) (s : State) :
    (s.refuseStart c).latch = Config.unspecifiedLatch s.free := rfl
@[simp] theorem State.refuseStart_fsm (c : Byte) (s : State) :
    (s.refuseStart c).fsm = .idle := rfl
@[simp] theorem State.refuseStart_pending (c : Byte) (s : State) :
    (s.refuseStart c).pending = .empty := rfl
@[simp] theorem State.refuseStart_work (c : Byte) (s : State) :
    (s.refuseStart c).work = Config.unspecifiedWork s.free := rfl
@[simp] theorem State.refuseStart_bus (c : Byte) (s : State) :
    (s.refuseStart c).bus = s.bus := rfl
@[simp] theorem State.refuseStart_inputs (c : Byte) (s : State) :
    (s.refuseStart c).inputs = s.inputs := rfl
@[simp] theorem State.refuseStart_reads (c : Byte) (s : State) :
    (s.refuseStart c).reads = s.reads := rfl
@[simp] theorem State.refuseStart_free (c : Byte) (s : State) :
    (s.refuseStart c).free = s.free + 1 := rfl

/-! ### `State.start` -/

@[simp] theorem State.start_params (i : Instr) (s : State) :
    (s.start i).params = s.params := rfl
@[simp] theorem State.start_cmd (i : Instr) (s : State) :
    (s.start i).cmd = encode i := rfl
@[simp] theorem State.start_status (i : Instr) (s : State) :
    (s.start i).status = statusStarted (cmdOp (encode i)) := rfl
@[simp] theorem State.start_operands (i : Instr) (s : State) :
    (s.start i).operands = s.operands := rfl
@[simp] theorem State.start_results (i : Instr) (s : State) :
    (s.start i).results = s.results := rfl
@[simp] theorem State.start_latch (i : Instr) (s : State) :
    (s.start i).latch = { operands := s.operands, h := s.results.h } := rfl
@[simp] theorem State.start_fsm (i : Instr) (s : State) :
    (s.start i).fsm = .run i 0 := rfl
@[simp] theorem State.start_pending (i : Instr) (s : State) :
    (s.start i).pending = .empty := rfl
@[simp] theorem State.start_work (i : Instr) (s : State) :
    (s.start i).work = s.work := rfl
@[simp] theorem State.start_bus (i : Instr) (s : State) :
    (s.start i).bus = s.bus := rfl
@[simp] theorem State.start_inputs (i : Instr) (s : State) :
    (s.start i).inputs = s.inputs := rfl
@[simp] theorem State.start_reads (i : Instr) (s : State) :
    (s.start i).reads = s.reads := rfl
@[simp] theorem State.start_free (i : Instr) (s : State) :
    (s.start i).free = s.free := rfl

/-! ### `coreReset` -/

@[simp] theorem coreReset_params (s : State) :
    (coreReset s).params = s.params := rfl
@[simp] theorem coreReset_cmd (s : State) :
    (coreReset s).cmd = 0x00 := rfl
@[simp] theorem coreReset_status (s : State) :
    (coreReset s).status = 0x0000 := rfl
@[simp] theorem coreReset_operands (s : State) :
    (coreReset s).operands = .zero := rfl
@[simp] theorem coreReset_results (s : State) :
    (coreReset s).results = .zero := rfl
@[simp] theorem coreReset_latch (s : State) :
    (coreReset s).latch = Config.unspecifiedLatch s.free := rfl
@[simp] theorem coreReset_fsm (s : State) :
    (coreReset s).fsm = .idle := rfl
@[simp] theorem coreReset_pending (s : State) :
    (coreReset s).pending = .empty := rfl
@[simp] theorem coreReset_work (s : State) :
    (coreReset s).work = Config.unspecifiedWork s.free := rfl
@[simp] theorem coreReset_bus (s : State) :
    (coreReset s).bus = { busOnCoreReset s.bus with power := false } := rfl
@[simp] theorem coreReset_inputs (s : State) :
    (coreReset s).inputs = s.inputs := rfl
@[simp] theorem coreReset_reads (s : State) :
    (coreReset s).reads = s.reads := rfl
@[simp] theorem coreReset_free (s : State) :
    (coreReset s).free = s.free + 1 := rfl

/-! ### `recordRead` -/

@[simp] theorem recordRead_params (index : BitVec 8) (e : Nat) (s : State) :
    (recordRead index e s).params = s.params := rfl
@[simp] theorem recordRead_cmd (index : BitVec 8) (e : Nat) (s : State) :
    (recordRead index e s).cmd = s.cmd := rfl
@[simp] theorem recordRead_status (index : BitVec 8) (e : Nat) (s : State) :
    (recordRead index e s).status = s.status := rfl
@[simp] theorem recordRead_operands (index : BitVec 8) (e : Nat) (s : State) :
    (recordRead index e s).operands = s.operands := rfl
@[simp] theorem recordRead_results (index : BitVec 8) (e : Nat) (s : State) :
    (recordRead index e s).results = s.results := rfl
@[simp] theorem recordRead_latch (index : BitVec 8) (e : Nat) (s : State) :
    (recordRead index e s).latch = s.latch := rfl
@[simp] theorem recordRead_fsm (index : BitVec 8) (e : Nat) (s : State) :
    (recordRead index e s).fsm = s.fsm := rfl
@[simp] theorem recordRead_pending (index : BitVec 8) (e : Nat) (s : State) :
    (recordRead index e s).pending = s.pending := rfl
@[simp] theorem recordRead_work (index : BitVec 8) (e : Nat) (s : State) :
    (recordRead index e s).work = s.work := rfl
@[simp] theorem recordRead_bus (index : BitVec 8) (e : Nat) (s : State) :
    (recordRead index e s).bus = s.bus := rfl
@[simp] theorem recordRead_inputs (index : BitVec 8) (e : Nat) (s : State) :
    (recordRead index e s).inputs = s.inputs := rfl
@[simp] theorem recordRead_reads (index : BitVec 8) (e : Nat) (s : State) :
    (recordRead index e s).reads = s.reads ++ [hostRead index e s] := rfl
@[simp] theorem recordRead_free (index : BitVec 8) (e : Nat) (s : State) :
    (recordRead index e s).free = s.free := rfl

/-! ### `State.withFetchWord` -/

@[simp] theorem State.withFetchWord_params (nbits w : Nat) (s : State) :
    (s.withFetchWord nbits w).params = s.params := rfl
@[simp] theorem State.withFetchWord_cmd (nbits w : Nat) (s : State) :
    (s.withFetchWord nbits w).cmd = s.cmd := rfl
@[simp] theorem State.withFetchWord_status (nbits w : Nat) (s : State) :
    (s.withFetchWord nbits w).status = s.status := rfl
@[simp] theorem State.withFetchWord_operands (nbits w : Nat) (s : State) :
    (s.withFetchWord nbits w).operands = s.operands := rfl
@[simp] theorem State.withFetchWord_results (nbits w : Nat) (s : State) :
    (s.withFetchWord nbits w).results = s.results := rfl
@[simp] theorem State.withFetchWord_latch (nbits w : Nat) (s : State) :
    (s.withFetchWord nbits w).latch = s.latch := rfl
@[simp] theorem State.withFetchWord_fsm (nbits w : Nat) (s : State) :
    (s.withFetchWord nbits w).fsm = s.fsm := rfl
@[simp] theorem State.withFetchWord_pending (nbits w : Nat) (s : State) :
    (s.withFetchWord nbits w).pending = s.pending := rfl
@[simp] theorem State.withFetchWord_work (nbits w : Nat) (s : State) :
    (s.withFetchWord nbits w).work = s.work := rfl
@[simp] theorem State.withFetchWord_bus (nbits w : Nat) (s : State) :
    (s.withFetchWord nbits w).bus = s.bus := rfl
@[simp] theorem State.withFetchWord_inputs (nbits w : Nat) (s : State) :
    (s.withFetchWord nbits w).inputs = .run (BitVec.ofNat 8 w) :: s.inputs := rfl
@[simp] theorem State.withFetchWord_reads (nbits w : Nat) (s : State) :
    (s.withFetchWord nbits w).reads = s.reads := rfl
@[simp] theorem State.withFetchWord_free (nbits w : Nat) (s : State) :
    (s.withFetchWord nbits w).free = s.free := rfl

/-! ### `State.moved` -/

@[simp] theorem State.moved_params (b : Bus) (p : Pending) (f : Fsm) (s : State) :
    (s.moved b p f).params = s.params := rfl
@[simp] theorem State.moved_cmd (b : Bus) (p : Pending) (f : Fsm) (s : State) :
    (s.moved b p f).cmd = s.cmd := rfl
@[simp] theorem State.moved_status (b : Bus) (p : Pending) (f : Fsm) (s : State) :
    (s.moved b p f).status = s.status := rfl
@[simp] theorem State.moved_operands (b : Bus) (p : Pending) (f : Fsm) (s : State) :
    (s.moved b p f).operands = s.operands := rfl
@[simp] theorem State.moved_results (b : Bus) (p : Pending) (f : Fsm) (s : State) :
    (s.moved b p f).results = s.results := rfl
@[simp] theorem State.moved_latch (b : Bus) (p : Pending) (f : Fsm) (s : State) :
    (s.moved b p f).latch = s.latch := rfl
@[simp] theorem State.moved_fsm (b : Bus) (p : Pending) (f : Fsm) (s : State) :
    (s.moved b p f).fsm = f := rfl
@[simp] theorem State.moved_pending (b : Bus) (p : Pending) (f : Fsm) (s : State) :
    (s.moved b p f).pending = p := rfl
@[simp] theorem State.moved_work (b : Bus) (p : Pending) (f : Fsm) (s : State) :
    (s.moved b p f).work = s.work := rfl
@[simp] theorem State.moved_bus (b : Bus) (p : Pending) (f : Fsm) (s : State) :
    (s.moved b p f).bus = b := rfl
@[simp] theorem State.moved_inputs (b : Bus) (p : Pending) (f : Fsm) (s : State) :
    (s.moved b p f).inputs = s.inputs := rfl
@[simp] theorem State.moved_reads (b : Bus) (p : Pending) (f : Fsm) (s : State) :
    (s.moved b p f).reads = s.reads := rfl
@[simp] theorem State.moved_free (b : Bus) (p : Pending) (f : Fsm) (s : State) :
    (s.moved b p f).free = s.free := rfl

@[simp] theorem State.moved_moved (b b' : Bus) (p p' : Pending) (f f' : Fsm) (s : State) :
    (s.moved b p f).moved b' p' f' = s.moved b' p' f' := rfl

theorem State.moved_self (s : State) : s.moved s.bus s.pending s.fsm = s := rfl

/-! ### The bus -/

@[simp] theorem Bus.append_trace (e : BusEvent) (b : Bus) : (b.append e).trace = b.trace ++ [e] := rfl
@[simp] theorem Bus.append_power (e : BusEvent) (b : Bus) : (b.append e).power = b.power := rfl
@[simp] theorem Bus.append_presence (e : BusEvent) (b : Bus) : (b.append e).presence = b.presence := rfl
@[simp] theorem Bus.append_bytes (e : BusEvent) (b : Bus) : (b.append e).bytes = b.bytes := rfl

@[simp] theorem busSelect_trace (rom : Vector Byte 8) (b : Bus) : (busSelect rom b).trace = b.trace ++ [.sel rom] := rfl
@[simp] theorem busSelect_power (rom : Vector Byte 8) (b : Bus) : (busSelect rom b).power = b.power := rfl
@[simp] theorem busSelect_presence (rom : Vector Byte 8) (b : Bus) : (busSelect rom b).presence = b.presence := rfl
@[simp] theorem busSelect_bytes (rom : Vector Byte 8) (b : Bus) : (busSelect rom b).bytes = b.bytes := rfl

@[simp] theorem busWrite_trace (v : Byte) (b : Bus) : (busWrite v b).trace = b.trace ++ [.w v] := rfl
@[simp] theorem busWrite_power (v : Byte) (b : Bus) : (busWrite v b).power = false := rfl
@[simp] theorem busWrite_presence (v : Byte) (b : Bus) : (busWrite v b).presence = b.presence := rfl
@[simp] theorem busWrite_bytes (v : Byte) (b : Bus) : (busWrite v b).bytes = b.bytes := rfl

@[simp] theorem busHold_trace (b : Bus) : (busHold b).trace = b.trace ++ [.pwrOn] := rfl
@[simp] theorem busHold_power (b : Bus) : (busHold b).power = true := rfl
@[simp] theorem busHold_presence (b : Bus) : (busHold b).presence = b.presence := rfl
@[simp] theorem busHold_bytes (b : Bus) : (busHold b).bytes = b.bytes := rfl

@[simp] theorem busRelease_trace (b : Bus) : (busRelease b).trace = b.trace ++ [.pwrOff] := rfl
@[simp] theorem busRelease_power (b : Bus) : (busRelease b).power = false := rfl
@[simp] theorem busRelease_presence (b : Bus) : (busRelease b).presence = b.presence := rfl
@[simp] theorem busRelease_bytes (b : Bus) : (busRelease b).bytes = b.bytes := rfl

@[simp] theorem busWait_trace (t : Nat) (b : Bus) : (busWait t b).trace = b.trace ++ [.dly t] := rfl
@[simp] theorem busWait_power (t : Nat) (b : Bus) : (busWait t b).power = b.power := rfl
@[simp] theorem busWait_presence (t : Nat) (b : Bus) : (busWait t b).presence = b.presence := rfl
@[simp] theorem busWait_bytes (t : Nat) (b : Bus) : (busWait t b).bytes = b.bytes := rfl

end Sys2Proof.Machine
end

