-- ==== Sys2Proof/Laws/Status.lean ====
section
/-!
SUPPORT. The fields of STATUS words, and the codes of operations.
-/

namespace Sys2Proof.Machine

@[simp] theorem cmdOp_encode (i : Instr) : cmdOp (encode i) = i.code := by cases i <;> rfl

@[simp] theorem cmdRsv_encode (i : Instr) : cmdRsv (encode i) = 0#4 := by cases i <;> rfl

section
variable (b d e : Bool) (k s : BitVec 3) (o : BitVec 4)

@[simp] theorem statusWord_busy : busy (statusWord b d e k s o) = b := by
  simp [busy, statusWord]

@[simp] theorem statusWord_done : done (statusWord b d e k s o) = d := by
  simp [done, statusWord]

@[simp] theorem statusWord_err : err (statusWord b d e k s o) = e := by
  simp [err, statusWord]

@[simp] theorem statusWord_kind : kindField (statusWord b d e k s o) = k := by
  ext j hj
  simp [kindField, statusWord]
  interval_cases j <;> simp

@[simp] theorem statusWord_stage : stageField (statusWord b d e k s o) = s := by
  ext j hj
  simp [stageField, statusWord]
  interval_cases j <;> simp

@[simp] theorem statusWord_opc : opcField (statusWord b d e k s o) = o := by
  ext j hj
  simp [opcField, statusWord]
  interval_cases j <;> simp

@[simp] theorem statusWord_rsv : rsvField (statusWord b d e k s o) = 0#3 := by
  ext j hj
  simp [rsvField, statusWord]
  interval_cases j <;> simp

end

@[simp] theorem statusStarted_busy (o : BitVec 4) : busy (statusStarted o) = true := statusWord_busy ..

@[simp] theorem statusStarted_opc (o : BitVec 4) : opcField (statusStarted o) = o := statusWord_opc ..

@[simp] theorem statusSucceeded_busy (st : Half) : busy (statusSucceeded st) = false := statusWord_busy ..

@[simp] theorem statusFailed_busy (st : Half) (k : Kind) (s : BitVec 3) : busy (statusFailed st k s) = false :=
  statusWord_busy ..

/-- A running operation's success word. -/
theorem statusSucceeded_started (o : BitVec 4) :
    statusSucceeded (statusStarted o) = statusWord false true false 0 0 o := by
  simp [statusSucceeded]

/-- A running operation's failure word. -/
theorem statusFailed_started (o : BitVec 4) (k : Kind) (s : BitVec 3) :
    statusFailed (statusStarted o) k s = statusWord false true true k.code s o := by
  simp [statusFailed]

end Sys2Proof.Machine
end

