-- ==== Sys2Proof/Laws/Run.lean ====
section
/-!
SUPPORT. What a run of positions does: one lemma for each kind of position, for `WriteAll` and `ReadN`, and for the ends of
an operation.
-/

namespace Sys2Proof.Machine

open Sys2Proof.Safety

/-! ### The bus: several bytes at once -/

/-- `WriteAll` on the bus. -/
def busWrites : List Byte → Bus → Bus
  | [], b => b
  | v :: vs, b => busWrites vs (busWrite v b)

/-- `ReadN` on the bus. -/
def busReads : Nat → Bus → List Byte × Bus
  | 0, b => ([], b)
  | n + 1, b => ((busRead b).1 :: (busReads n (busRead b).2).1, (busReads n (busRead b).2).2)

theorem busRead_queue {b : Bus} {v : Byte} {vs : List Byte} (h : b.bytes = v :: vs) :
    busRead b = (v, busAfter b (readings [v]) b.presence vs) := by
  simp [busRead, h, busAfter, readings, Bus.append]

theorem busReset_queue {b : Bus} {present : Bool} {ps : List Bool} (h : b.presence = present :: ps) :
    busReset b = (present, Bus.append { b with presence := ps } (.rst present)) := by
  simp [busReset, h]

@[simp] theorem busAfter_trace (b : Bus) (es : List BusEvent) (ps : List Bool) (vs : List Byte) :
    (busAfter b es ps vs).trace = b.trace ++ es := rfl
@[simp] theorem busAfter_power (b : Bus) (es : List BusEvent) (ps : List Bool) (vs : List Byte) :
    (busAfter b es ps vs).power = false := rfl
@[simp] theorem busAfter_presence (b : Bus) (es : List BusEvent) (ps : List Bool) (vs : List Byte) :
    (busAfter b es ps vs).presence = ps := rfl
@[simp] theorem busAfter_bytes (b : Bus) (es : List BusEvent) (ps : List Bool) (vs : List Byte) :
    (busAfter b es ps vs).bytes = vs := rfl

@[simp] theorem busAfter_busAfter (b : Bus) (es es' : List BusEvent) (ps ps' : List Bool) (vs vs' : List Byte) :
    busAfter (busAfter b es ps vs) es' ps' vs' = busAfter b (es ++ es') ps' vs' := by
  simp [busAfter]

theorem busWrite_eq (v : Byte) (b : Bus) : busWrite v b = busAfter b (writes [v]) b.presence b.bytes := rfl

/-- `WriteAll` of at least one byte: one `W` for each, POWER = 0. -/
theorem busWrites_cons (v : Byte) (vs : List Byte) (b : Bus) :
    busWrites (v :: vs) b = busAfter b (writes (v :: vs)) b.presence b.bytes := by
  induction vs generalizing v b with
  | nil => rfl
  | cons w vs ih => rw [busWrites, ih, busWrite_eq]; simp [writes]

/-- `ReadN` of at least one byte, answered by bytes already decided: one `R` for each, POWER = 0. -/
theorem busReads_queue {n : Nat} {b : Bus} {vs rest : List Byte} (hn : vs.length = n + 1) (h : b.bytes = vs ++ rest) :
    busReads (n + 1) b = (vs, busAfter b (readings vs) b.presence rest) := by
  induction n generalizing vs b with
  | zero =>
    obtain ⟨v, rfl⟩ := List.length_eq_one_iff.1 hn
    simp [busReads, busRead_queue (show b.bytes = v :: rest by simpa using h)]
  | succ n ih =>
    match vs, hn with
    | v :: vs, hn =>
      have hb := busRead_queue (show b.bytes = v :: (vs ++ rest) by simpa using h)
      rw [busReads, hb, ih (b := busAfter b (readings [v]) b.presence (vs ++ rest)) (by simpa using hn) rfl]
      simp [readings]

@[simp] theorem busReads_length (n : Nat) (b : Bus) : (busReads n b).1.length = n := by
  induction n generalizing b with
  | zero => rfl
  | succ n ih => simp [busReads, ih]

/-! ### One position -/

section
variable (s : State) (b : Bus) (p : Pending) (op : Instr) (k : Nat) (ms : List Micro)

theorem run_busSelect :
    runMicro (.busSelect :: ms) (s.moved b p (.run op k))
      = runMicro ms (s.moved (busSelect s.latch.operands.rom b) p (.run op (k + 1))) := rfl

theorem run_busWrite (src : ByteSrc) :
    runMicro (.busWrite src :: ms) (s.moved b p (.run op k))
      = runMicro ms (s.moved (busWrite (srcByte p src) b) p (.run op (k + 1))) := rfl

theorem run_busHold :
    runMicro (.busHold :: ms) (s.moved b p (.run op k)) = runMicro ms (s.moved (busHold b) p (.run op (k + 1))) := rfl

theorem run_wait (w : WaitParam) :
    runMicro (.wait w :: ms) (s.moved b p (.run op k))
      = runMicro ms (s.moved (busWait (waitTime s.params w) b) p (.run op (k + 1))) := rfl

theorem run_busRelease :
    runMicro (.busRelease :: ms) (s.moved b p (.run op k))
      = runMicro ms (s.moved (busRelease b) p (.run op (k + 1))) := rfl

theorem run_busRead :
    runMicro (.busRead :: ms) (s.moved b p (.run op k))
      = runMicro ms (s.moved (busRead b).2 { p with rx := p.rx ++ [(busRead b).1] } (.run op (k + 1))) := rfl

theorem run_keepScratchpad :
    runMicro (.keepScratchpad :: ms) (s.moved b p (.run op k))
      = runMicro ms
          (s.moved b { p with ta := half (rxByte p 0) (rxByte p 1), es := rxByte p 2, rdata := bytesAt 8 3 p.rx }
            (.run op (k + 1))) := rfl

theorem run_keepPage :
    runMicro (.keepPage :: ms) (s.moved b p (.run op k))
      = runMicro ms
          (s.moved b { p with page := bytesAt 32 0 p.rx, mac := bytesAt 20 35 p.rx } (.run op (k + 1))) := rfl

theorem run_keepMemory :
    runMicro (.keepMemory :: ms) (s.moved b p (.run op k))
      = runMicro ms (s.moved b { p with mem := p.rx } (.run op (k + 1))) := rfl

theorem run_macSerialize :
    runMicro (.macSerialize :: ms) (s.moved b p (.run op k))
      = runMicro ms (s.moved b { p with macout := serializeMac s.latch.h } (.run op (k + 1))) := rfl

theorem run_succeed (regs : List ResultReg) :
    runMicro (.succeed regs :: ms) (s.moved b p (.run op k)) = (s.moved b p (.run op k)).succeed regs := rfl

theorem run_busReset_present (stage : BitVec 3) (h : (busReset b).1 = true) :
    runMicro (.busReset stage :: ms) (s.moved b p (.run op k))
      = runMicro ms (s.moved (busReset b).2 { p with rx := [] } (.run op (k + 1))) := by
  rw [runMicro]; simp [microStep, h, Fsm.next]; rfl

theorem run_busReset_absent (stage : BitVec 3) (h : (busReset b).1 = false) :
    runMicro (.busReset stage :: ms) (s.moved b p (.run op k))
      = (s.moved (busReset b).2 p (.run op k)).raise .noDevice stage := by
  rw [runMicro]; simp [microStep, h]; rfl

theorem run_checkTrailer_pass (stage : BitVec 3) (pos : Nat) (h : rxByte p pos = trailerRequired) :
    runMicro (.checkTrailer stage pos :: ms) (s.moved b p (.run op k)) = runMicro ms (s.moved b p (.run op (k + 1))) := by
  rw [runMicro]; simp [microStep, h, Fsm.next]; rfl

theorem run_checkTrailer_fail (stage : BitVec 3) (pos : Nat) (h : rxByte p pos ≠ trailerRequired) :
    runMicro (.checkTrailer stage pos :: ms) (s.moved b p (.run op k))
      = (s.moved b p (.run op k)).raise .protocol stage := by
  rw [runMicro]; simp [microStep, h]

theorem run_checkStatus_pass (stage : BitVec 3) (pos : Nat) (h : rxByte p pos = statusSuccess) :
    runMicro (.checkStatus stage pos :: ms) (s.moved b p (.run op k)) = runMicro ms (s.moved b p (.run op (k + 1))) := by
  rw [runMicro]; simp [microStep, h, Fsm.next]; rfl

theorem run_checkStatus_fail (stage : BitVec 3) (pos : Nat) (h : rxByte p pos ≠ statusSuccess) :
    runMicro (.checkStatus stage pos :: ms) (s.moved b p (.run op k))
      = (s.moved b p (.run op k)).raise .authFailed stage := by
  rw [runMicro]; simp [microStep, h]

theorem run_checkCrc_pass (stage : BitVec 3) (sent : List Byte) (start len : Nat)
    (h : crcOk s.params (sent ++ (p.rx.drop start).take len) (rxByte p (start + len)) (rxByte p (start + len + 1)) = true) :
    runMicro (.checkCrc stage sent start len :: ms) (s.moved b p (.run op k))
      = runMicro ms (s.moved b p (.run op (k + 1))) := by
  rw [runMicro]; simp [microStep, h, Fsm.next]; rfl

theorem run_checkCrc_fail (stage : BitVec 3) (sent : List Byte) (start len : Nat)
    (h : crcOk s.params (sent ++ (p.rx.drop start).take len) (rxByte p (start + len)) (rxByte p (start + len + 1)) = false) :
    runMicro (.checkCrc stage sent start len :: ms) (s.moved b p (.run op k))
      = (s.moved b p (.run op k)).raise .integrity stage := by
  rw [runMicro]; simp [microStep, h]

/-! ### Several positions -/

theorem run_writeAll (bs : List Byte) :
    runMicro (writeAll bs ++ ms) (s.moved b p (.run op k))
      = runMicro ms (s.moved (busWrites bs b) p (.run op (k + bs.length))) := by
  induction bs generalizing b k with
  | nil => rfl
  | cons v vs ih =>
    have h := ih (busWrite v b) (k + 1)
    rw [show k + 1 + vs.length = k + (v :: vs).length by simp only [List.length_cons]; omega] at h
    exact h

theorem run_readN (n : Nat) :
    runMicro (readN n ++ ms) (s.moved b p (.run op k))
      = runMicro ms
          (s.moved (busReads n b).2 { p with rx := p.rx ++ (busReads n b).1 } (.run op (k + n))) := by
  induction n generalizing b p k with
  | zero => simp [readN, busReads]
  | succ n ih =>
    have h := ih (busRead b).2 { p with rx := p.rx ++ [(busRead b).1] } (k + 1)
    rw [show k + 1 + n = k + (n + 1) by omega] at h
    simp only [readN, List.replicate_succ, List.cons_append, run_busRead] at h ⊢
    simpa [busReads] using h

/-- A prologue whose reset finds a device. -/
theorem run_prologue {present : List Bool} (stage : BitVec 3) (h : b.presence = true :: present) :
    runMicro (prologue stage ++ ms) (s.moved b p (.run op k))
      = runMicro ms
          (s.moved { b with presence := present, trace := b.trace ++ begins s.latch.operands.rom } { p with rx := [] }
            (.run op (k + 2))) := by
  have hb := busReset_queue h
  show runMicro (.busReset stage :: .busSelect :: ms) _ = _
  rw [run_busReset_present _ _ _ _ _ _ _ (by rw [hb]), run_busSelect, hb]
  simp [busSelect, Bus.append, begins]

/-- A prologue whose reset finds no device. -/
theorem run_prologue_absent {present : List Bool} (stage : BitVec 3) (h : b.presence = false :: present) :
    runMicro (prologue stage ++ ms) (s.moved b p (.run op k))
      = (s.moved { b with presence := present, trace := b.trace ++ [.rst false] } p (.run op k)).raise .noDevice stage := by
  have hb := busReset_queue h
  show runMicro (.busReset stage :: .busSelect :: ms) _ = _
  rw [run_busReset_absent _ _ _ _ _ _ _ (by rw [hb]), hb]
  rfl

end

end Sys2Proof.Machine
end

