-- ==== Sys2Proof/Laws/Procedures.lean ====
section
/-!
SUPPORT. What each procedure of 42_bus_commands.md does when its answers are already decided: it goes on with the trace of
the spec, or ends at the check that fails.
-/

namespace Sys2Proof.Machine

open Sys2Proof.Safety

theorem scratchpadFrame_eq (cmd : Byte) (addr : Half) (d : Vector Byte 8) :
    scratchpadFrame cmd addr d = [cmd, lo addr, hi addr] ++ d.toList := rfl

theorem rxByte_append_left {p : Pending} {vs ws : List Byte} {j : Nat} (h : p.rx = vs ++ ws) (hj : j < vs.length) :
    rxByte p j = vs[j] := by
  simp [rxByte, h, List.getElem?_append_left hj, hj]

theorem rxByte_append_right {p : Pending} {vs ws : List Byte} {n j : Nat} (h : p.rx = vs ++ ws) (hn : vs.length = n) :
    rxByte p (n + j) = ws.getD j 0 := by
  subst hn
  simp [rxByte, h, List.getElem?_append_right]

/-- A 16-bit value is the value of its two bytes. -/
theorem half_lo_hi (a : Half) : half (lo a) (hi a) = a := by
  ext j hj
  simp only [half, lo, hi, BitVec.getElem_or, BitVec.getElem_shiftLeft, BitVec.getElem_setWidth,
    BitVec.getLsbD_extractLsb']
  rcases Nat.lt_or_ge j 8 with h | h
  · simp [h, BitVec.getLsbD_eq_getElem hj]
  · have h' : ¬ j < 8 := by omega
    have h'' : j - 8 < 8 := by omega
    simp [h', h'', show 8 + (j - 8) = j by omega, BitVec.getLsbD_eq_getElem hj]

/-- The bytes received between others, as an array register. -/
theorem bytesAt_append {n : Nat} {pre post l : List Byte} (v : Vector Byte n) (h : l = pre ++ (v.toList ++ post)) :
    bytesAt n pre.length l = v := by
  subst h
  apply Vector.ext
  intro j hj
  have h' : j < v.toList.length := by simpa using hj
  simp only [bytesAt, Vector.getElem_ofFn, List.getD_eq_getElem?_getD]
  rw [List.getElem?_append_right (by omega), Nat.add_sub_cancel_left, List.getElem?_append_left h',
    List.getElem?_eq_getElem h']
  simp

section
variable {s : State} {b : Bus} {p : Pending} {op : Instr} {k : Nat} {ms : List Micro} {stage : BitVec 3}
  {present : List Bool} {rest : List Byte}

/-- A prologue and at least one byte written. -/
theorem run_prologue_writeAll (hp : b.presence = true :: present) (v : Byte) (vs : List Byte) :
    runMicro (prologue stage ++ (writeAll (v :: vs) ++ ms)) (s.moved b p (.run op k))
      = runMicro ms
          (s.moved (busAfter b (begins s.latch.operands.rom ++ writes (v :: vs)) present b.bytes) { p with rx := [] }
            (.run op (k + 2 + (v :: vs).length))) := by
  rw [run_prologue _ _ _ _ _ _ _ hp, run_writeAll, busWrites_cons]
  simp [busAfter]

/-- `ReadN` of at least one byte, its answers decided. -/
theorem run_readN_queue {n : Nat} {vs : List Byte} (hn : vs.length = n + 1) (h : b.bytes = vs ++ rest) :
    runMicro (readN (n + 1) ++ ms) (s.moved b p (.run op k))
      = runMicro ms
          (s.moved (busAfter b (readings vs) b.presence rest) { p with rx := p.rx ++ vs } (.run op (k + (n + 1)))) := by
  rw [run_readN, busReads_queue hn h]

/-! ### WriteScratchpad, RefreshScratchpad -/

section
variable {addr : Half} {d : Vector Byte 8} {cmd c0 c1 : Byte}

theorem run_writeScratchpadP_pass (hp : b.presence = true :: present) (hb : b.bytes = [c0, c1] ++ rest)
    (hc : scratchpadCrcOk s.params cmd addr d c0 c1 = true) :
    ∃ k', runMicro (writeScratchpadP stage addr d cmd ++ ms) (s.moved b p (.run op k))
      = runMicro ms
          (s.moved (busAfter b (scratchpadWritten s.latch.operands.rom cmd addr d c0 c1) present rest)
            { p with rx := [c0, c1] } (.run op k')) := by
  refine ⟨k + 16, ?_⟩
  simp only [writeScratchpadP, List.append_assoc]
  rw [scratchpadFrame_eq, List.cons_append, run_prologue_writeAll hp,
    run_readN_queue (n := 1) (vs := [c0, c1]) rfl (by simpa using hb), List.singleton_append,
    run_checkCrc_pass _ _ _ _ _ _ _ _ _ _ (by simpa [rxByte, scratchpadCrcOk] using hc)]
  simp [scratchpadWritten]

theorem run_writeScratchpadP_badCrc (hp : b.presence = true :: present) (hb : b.bytes = [c0, c1] ++ rest)
    (hc : scratchpadCrcOk s.params cmd addr d c0 c1 = false) :
    ∃ p' k', runMicro (writeScratchpadP stage addr d cmd ++ ms) (s.moved b p (.run op k))
      = (s.moved (busAfter b (scratchpadWritten s.latch.operands.rom cmd addr d c0 c1) present rest)
          p' (.run op k')).raise .integrity stage := by
  refine ⟨{ p with rx := [c0, c1] }, k + 15, ?_⟩
  simp only [writeScratchpadP, List.append_assoc]
  rw [scratchpadFrame_eq, List.cons_append, run_prologue_writeAll hp,
    run_readN_queue (n := 1) (vs := [c0, c1]) rfl (by simpa using hb), List.singleton_append,
    run_checkCrc_fail _ _ _ _ _ _ _ _ _ _ (by simpa [rxByte, scratchpadCrcOk] using hc)]
  simp [scratchpadWritten]

end

/-! ### ReadScratchpad -/

section
variable {ta : Half} {es c0 c1 : Byte} {d : Vector Byte 8}

/-- The bytes of a ReadScratchpad answer, by position. -/
theorem readback_bytes {q : Pending} (hq : q.rx = [lo ta, hi ta, es] ++ d.toList ++ [c0, c1]) :
    rxByte q 0 = lo ta ∧ rxByte q 1 = hi ta ∧ rxByte q 2 = es ∧ bytesAt 8 3 q.rx = d
      ∧ rxByte q 11 = c0 ∧ rxByte q 12 = c1 ∧ (q.rx.drop 0).take 11 = [lo ta, hi ta, es] ++ d.toList := by
  refine ⟨by simp [rxByte, hq], by simp [rxByte, hq], by simp [rxByte, hq],
    bytesAt_append (pre := [lo ta, hi ta, es]) (post := [c0, c1]) d (by simpa using hq),
    rxByte_append_right (n := 11) (j := 0) hq (by simp),
    rxByte_append_right (n := 11) (j := 1) hq (by simp), ?_⟩
  rw [hq, List.drop_zero, List.take_append_of_le_length (by simp), List.take_of_length_le (by simp)]

theorem run_readScratchpadP_pass (hp : b.presence = true :: present)
    (hb : b.bytes = [lo ta, hi ta, es] ++ d.toList ++ [c0, c1] ++ rest)
    (hc : readbackCrcOk s.params ta es d c0 c1 = true) :
    ∃ p' k', runMicro (readScratchpadP s.params stage ++ ms) (s.moved b p (.run op k))
      = runMicro ms
          (s.moved (busAfter b (scratchpadRead s.latch.operands.rom ta es d c0 c1) present rest) p' (.run op k'))
      ∧ p'.ta = ta ∧ p'.es = es ∧ p'.rdata = d := by
  have hb1 : b.bytes = ([lo ta, hi ta, es] ++ d.toList) ++ ([c0, c1] ++ rest) := by simpa using hb
  refine ⟨{ p with
      rx := [lo ta, hi ta, es] ++ d.toList ++ [c0, c1], ta := ta, es := es, rdata := d }, k + 18, ?_, rfl, rfl, rfl⟩
  · simp only [readScratchpadP, List.append_assoc]
    rw [run_prologue_writeAll hp, run_readN_queue (b := busAfter _ _ _ _) (n := 10) (by simp) hb1,
      run_readN_queue (n := 1) (vs := [c0, c1]) rfl rfl, List.cons_append, List.singleton_append,
      run_checkCrc_pass, run_keepScratchpad]
    · obtain ⟨h0, h1, h2, h3, -⟩ := readback_bytes (ta := ta) (es := es) (d := d) (c0 := c0) (c1 := c1)
        (q := { p with rx := [] ++ ([lo ta, hi ta, es] ++ d.toList) ++ [c0, c1] }) (by simp)
      rw [h0, h1, h2, h3, half_lo_hi]
      simp [scratchpadRead, wireByte, readings]
    · obtain ⟨-, -, -, -, h11, h12, ht⟩ := readback_bytes (ta := ta) (es := es) (d := d) (c0 := c0) (c1 := c1)
        (q := { p with rx := [] ++ ([lo ta, hi ta, es] ++ d.toList) ++ [c0, c1] }) (by simp)
      rw [ht, h11, h12]
      simpa [readbackCrcOk, wireByte] using hc

theorem run_readScratchpadP_badCrc (hp : b.presence = true :: present)
    (hb : b.bytes = [lo ta, hi ta, es] ++ d.toList ++ [c0, c1] ++ rest)
    (hc : readbackCrcOk s.params ta es d c0 c1 = false) :
    ∃ p' k', runMicro (readScratchpadP s.params stage ++ ms) (s.moved b p (.run op k))
      = (s.moved (busAfter b (scratchpadRead s.latch.operands.rom ta es d c0 c1) present rest) p'
          (.run op k')).raise .integrity stage := by
  have hb1 : b.bytes = ([lo ta, hi ta, es] ++ d.toList) ++ ([c0, c1] ++ rest) := by simpa using hb
  refine ⟨{ p with rx := [] ++ ([lo ta, hi ta, es] ++ d.toList) ++ [c0, c1] }, k + 16, ?_⟩
  simp only [readScratchpadP, List.append_assoc]
  rw [run_prologue_writeAll hp, run_readN_queue (b := busAfter _ _ _ _) (n := 10) (by simp) hb1,
    run_readN_queue (n := 1) (vs := [c0, c1]) rfl rfl, List.cons_append, List.singleton_append, run_checkCrc_fail]
  · simp [scratchpadRead, wireByte, readings]
  · obtain ⟨-, -, -, -, h11, h12, ht⟩ := readback_bytes (ta := ta) (es := es) (d := d) (c0 := c0) (c1 := c1)
      (q := { p with rx := [] ++ ([lo ta, hi ta, es] ++ d.toList) ++ [c0, c1] }) (by simp)
    rw [ht, h11, h12]
    simpa [readbackCrcOk, wireByte] using hc

end

/-! ### CopyScratchpad, LoadFirstSecret -/

/-- Two buses with one trace behind the other's events give one bus after more events. -/
theorem busAfter_of_trace {b b' : Bus} {es : List BusEvent} (h : b'.trace = b.trace ++ es) (es' : List BusEvent)
    (ps : List Bool) (vs : List Byte) : busAfter b' es' ps vs = busAfter b (es ++ es') ps vs := by
  simp [busAfter, h]

/-- The bytes a command with an ES sends. -/
def commandEsBytes (cmd : Byte) (addr : AddrSrc) (es : ByteSrc) (p : Pending) : List Byte :=
  [cmd, srcByte p addr.1, srcByte p addr.2, srcByte p es]

/-- What a byte source gives does not depend on the bytes received. -/
@[simp] theorem srcByte_rx (p : Pending) (vs : List Byte) (src : ByteSrc) :
    srcByte { p with rx := vs } src = srcByte p src := by
  cases src <;> rfl

@[simp] theorem commandEsBytes_rx (cmd : Byte) (addr : AddrSrc) (es : ByteSrc) (p : Pending) (vs : List Byte) :
    commandEsBytes cmd addr es { p with rx := vs } = commandEsBytes cmd addr es p := by
  simp [commandEsBytes]

theorem run_writeCommandEs (cmd : Byte) (addr : AddrSrc) (es : ByteSrc) :
    runMicro (writeCommandEs cmd addr es ++ ms) (s.moved b p (.run op k))
      = runMicro ms
          (s.moved (busAfter b (writes (commandEsBytes cmd addr es p)) b.presence b.bytes) p (.run op (k + 4))) := by
  simp only [writeCommandEs, List.cons_append, List.nil_append, run_busWrite, busWrite_eq, busAfter_busAfter]
  rfl

theorem run_prologue_writeCommandEs (hp : b.presence = true :: present) (cmd : Byte) (addr : AddrSrc) (es : ByteSrc) :
    runMicro (prologue stage ++ (writeCommandEs cmd addr es ++ ms)) (s.moved b p (.run op k))
      = runMicro ms
          (s.moved
            (busAfter b (begins s.latch.operands.rom ++ writes (commandEsBytes cmd addr es p)) present b.bytes)
            { p with rx := [] } (.run op (k + 6))) := by
  rw [run_prologue _ _ _ _ _ _ _ hp, run_writeCommandEs, commandEsBytes_rx]
  simp [busAfter]

/-- A hold, its wait, and the bytes that end it. -/
theorem run_holdForSha_writeAll (v : Byte) (vs : List Byte) :
    runMicro (holdForSha ++ (writeAll (v :: vs) ++ ms)) (s.moved b p (.run op k))
      = runMicro ms
          (s.moved (busAfter b ([.pwrOn, .dly s.params.tSha] ++ writes (v :: vs)) b.presence b.bytes) p
            (.run op (k + 2 + (v :: vs).length))) := by
  show runMicro (.busHold :: .wait .sha :: (writeAll (v :: vs) ++ ms)) _ = _
  rw [run_busHold, run_wait, run_writeAll, busWrites_cons]
  simp [busAfter, waitTime]

/-- The programming hold and the status byte after it. -/
theorem run_holdForProgramming_readStatus {status : Byte} (hb : b.bytes = status :: rest) (hr : p.rx = []) :
    runMicro (holdForProgramming ++ (readStatus stage 0 ++ ms)) (s.moved b p (.run op k))
      = if status = statusSuccess then
          runMicro ms
            (s.moved
              (busAfter b ([.pwrOn, .dly s.params.tProg, .pwrOff] ++ readings [status]) b.presence rest)
              { p with rx := [status] } (.run op (k + 5)))
        else
          (s.moved
            (busAfter b ([.pwrOn, .dly s.params.tProg, .pwrOff] ++ readings [status]) b.presence rest)
            { p with rx := [status] } (.run op (k + 4))).raise .authFailed stage := by
  have hx : rxByte { p with rx := [status] } 0 = status := rfl
  show runMicro (.busHold :: .wait .prog :: .busRelease :: .busRead :: .checkStatus stage 0 :: ms) _ = _
  rw [run_busHold, run_wait, run_busRelease, run_busRead, busRead_queue (v := status) (vs := rest) (by simpa using hb),
    hr, List.nil_append]
  split
  · rw [run_checkStatus_pass _ _ _ _ _ _ _ _ (hx.trans ‹_›)]
    simp [busAfter, waitTime]
  · rw [run_checkStatus_fail _ _ _ _ _ _ _ _ (by rw [hx]; assumption)]
    simp [busAfter, waitTime]

section
variable {addr : AddrSrc} {es : ByteSrc} {mac : Vector Byte 20} {status : Byte}

theorem run_copyScratchpadP (hp : b.presence = true :: present) (hb : b.bytes = status :: rest) :
    ∃ k', runMicro (copyScratchpadP s.params stage addr es mac ++ ms) (s.moved b p (.run op k))
      = if status = statusSuccess then
          runMicro ms
            (s.moved
              (busAfter b
                (begins s.latch.operands.rom ++ writes (commandEsBytes s.params.copyCmd addr es p)
                  ++ [.pwrOn, .dly s.params.tSha] ++ writes mac.toList
                  ++ [.pwrOn, .dly s.params.tProg, .pwrOff] ++ readings [status]) present rest)
              { p with rx := [status] } (.run op (k' + 1)))
        else
          (s.moved
            (busAfter b
              (begins s.latch.operands.rom ++ writes (commandEsBytes s.params.copyCmd addr es p)
                ++ [.pwrOn, .dly s.params.tSha] ++ writes mac.toList
                ++ [.pwrOn, .dly s.params.tProg, .pwrOff] ++ readings [status]) present rest)
            { p with rx := [status] } (.run op k')).raise .authFailed stage := by
  refine ⟨k + 32, ?_⟩
  obtain ⟨v, vs, hm⟩ : ∃ v vs, mac.toList = v :: vs := List.exists_cons_of_length_pos (by simp)
  have hl : vs.length = 19 := by
    have h := congrArg List.length hm
    simp at h
    omega
  simp only [copyScratchpadP, List.append_assoc]
  rw [hm, run_prologue_writeCommandEs hp, run_holdForSha_writeAll, busAfter_busAfter, busAfter_presence, busAfter_bytes,
    run_holdForProgramming_readStatus (b := busAfter _ _ _ _) (p := { p with rx := [] }) hb rfl]
  simp [wireByte, hl]

theorem run_loadFirstSecretP (hp : b.presence = true :: present) (hb : b.bytes = status :: rest) :
    ∃ k', runMicro (loadFirstSecretP s.params stage addr es ++ ms) (s.moved b p (.run op k))
      = if status = statusSuccess then
          runMicro ms
            (s.moved
              (busAfter b
                (begins s.latch.operands.rom ++ writes (commandEsBytes 0x5A addr es p)
                  ++ [.pwrOn, .dly s.params.tProg, .pwrOff] ++ readings [status]) present rest)
              { p with rx := [status] } (.run op (k' + 1)))
        else
          (s.moved
            (busAfter b
              (begins s.latch.operands.rom ++ writes (commandEsBytes 0x5A addr es p)
                ++ [.pwrOn, .dly s.params.tProg, .pwrOff] ++ readings [status]) present rest)
            { p with rx := [status] } (.run op k')).raise .authFailed stage := by
  refine ⟨k + 10, ?_⟩
  simp only [loadFirstSecretP, List.append_assoc]
  rw [run_prologue_writeCommandEs hp,
    run_holdForProgramming_readStatus (b := busAfter _ _ _ _) (p := { p with rx := [] }) hb rfl]
  simp [wireByte]

theorem run_copyScratchpadP_pass (hp : b.presence = true :: present) (hb : b.bytes = 0xAA :: rest) :
    ∃ k', runMicro (copyScratchpadP s.params stage addr es mac ++ ms) (s.moved b p (.run op k))
      = runMicro ms
          (s.moved
            (busAfter b
              (begins s.latch.operands.rom ++ writes (commandEsBytes s.params.copyCmd addr es p)
                ++ [.pwrOn, .dly s.params.tSha] ++ writes mac.toList
                ++ [.pwrOn, .dly s.params.tProg, .pwrOff] ++ readings [0xAA]) present rest)
            { p with rx := [0xAA] } (.run op k')) := by
  obtain ⟨k', h⟩ := run_copyScratchpadP (s := s) (stage := stage) (ms := ms) (op := op) (p := p) (k := k) (addr := addr)
    (es := es) (mac := mac) hp hb
  exact ⟨k' + 1, h.trans (if_pos rfl)⟩

theorem run_copyScratchpadP_rejected (hp : b.presence = true :: present) (hb : b.bytes = status :: rest)
    (hs : status ≠ 0xAA) :
    ∃ k', runMicro (copyScratchpadP s.params stage addr es mac ++ ms) (s.moved b p (.run op k))
      = (s.moved
          (busAfter b
            (begins s.latch.operands.rom ++ writes (commandEsBytes s.params.copyCmd addr es p)
              ++ [.pwrOn, .dly s.params.tSha] ++ writes mac.toList
              ++ [.pwrOn, .dly s.params.tProg, .pwrOff] ++ readings [status]) present rest)
          { p with rx := [status] } (.run op k')).raise .authFailed stage := by
  obtain ⟨k', h⟩ := run_copyScratchpadP (s := s) (stage := stage) (ms := ms) (op := op) (p := p) (k := k) (addr := addr)
    (es := es) (mac := mac) hp hb
  exact ⟨k', h.trans (if_neg hs)⟩

theorem run_loadFirstSecretP_pass (hp : b.presence = true :: present) (hb : b.bytes = 0xAA :: rest) :
    ∃ k', runMicro (loadFirstSecretP s.params stage addr es ++ ms) (s.moved b p (.run op k))
      = runMicro ms
          (s.moved
            (busAfter b
              (begins s.latch.operands.rom ++ writes (commandEsBytes 0x5A addr es p)
                ++ [.pwrOn, .dly s.params.tProg, .pwrOff] ++ readings [0xAA]) present rest)
            { p with rx := [0xAA] } (.run op k')) := by
  obtain ⟨k', h⟩ := run_loadFirstSecretP (s := s) (stage := stage) (ms := ms) (op := op) (p := p) (k := k) (addr := addr)
    (es := es) hp hb
  exact ⟨k' + 1, h.trans (if_pos rfl)⟩

theorem run_loadFirstSecretP_rejected (hp : b.presence = true :: present) (hb : b.bytes = status :: rest)
    (hs : status ≠ 0xAA) :
    ∃ k', runMicro (loadFirstSecretP s.params stage addr es ++ ms) (s.moved b p (.run op k))
      = (s.moved
          (busAfter b
            (begins s.latch.operands.rom ++ writes (commandEsBytes 0x5A addr es p)
              ++ [.pwrOn, .dly s.params.tProg, .pwrOff] ++ readings [status]) present rest)
          { p with rx := [status] } (.run op k')).raise .authFailed stage := by
  obtain ⟨k', h⟩ := run_loadFirstSecretP (s := s) (stage := stage) (ms := ms) (op := op) (p := p) (k := k) (addr := addr)
    (es := es) hp hb
  exact ⟨k', h.trans (if_neg hs)⟩

end

/-! ### ReadAuthenticatedPage -/

section
variable {addr : Half} {page : Vector Byte 32} {mac : Vector Byte 20} {trailer c0 c1 c2 c3 status : Byte}

/-- The bytes of the first part of a ReadAuthenticatedPage answer, by position. -/
theorem page_bytes {q : Pending} {post : List Byte} (hq : q.rx = page.toList ++ [trailer] ++ [c0, c1] ++ post) :
    rxByte q 32 = trailer ∧ rxByte q 33 = c0 ∧ rxByte q 34 = c1
      ∧ (q.rx.drop 0).take 33 = page.toList ++ [trailer] ∧ bytesAt 32 0 q.rx = page := by
  have hq' : q.rx = page.toList ++ ([trailer, c0, c1] ++ post) := by simpa using hq
  refine ⟨rxByte_append_right (n := 32) (j := 0) hq' (by simp), rxByte_append_right (n := 32) (j := 1) hq' (by simp),
    rxByte_append_right (n := 32) (j := 2) hq' (by simp), ?_,
    bytesAt_append (pre := []) (post := [trailer, c0, c1] ++ post) page (by simpa using hq)⟩
  rw [hq, List.drop_zero, List.append_assoc, List.take_append_of_le_length (by simp),
    List.take_of_length_le (by simp)]

/-- The bytes of the second part of a ReadAuthenticatedPage answer, by position. -/
theorem pageMac_bytes {q : Pending} {pre post : List Byte} (hpre : pre.length = 35)
    (hq : q.rx = pre ++ mac.toList ++ [c2, c3] ++ post) :
    rxByte q 55 = c2 ∧ rxByte q 56 = c3 ∧ rxByte q 57 = post.getD 0 0
      ∧ (q.rx.drop 35).take 20 = mac.toList ∧ bytesAt 20 35 q.rx = mac := by
  have hq' : q.rx = (pre ++ mac.toList) ++ ([c2, c3] ++ post) := by simpa using hq
  refine ⟨rxByte_append_right (n := 55) (j := 0) hq' (by simp [hpre]),
    rxByte_append_right (n := 55) (j := 1) hq' (by simp [hpre]),
    rxByte_append_right (n := 55) (j := 2) hq' (by simp [hpre]), ?_, ?_⟩
  · rw [hq, List.append_assoc, List.append_assoc, List.drop_append_of_le_length (by omega),
      List.drop_of_length_le (by omega), List.nil_append, List.take_append_of_le_length (by simp),
      List.take_of_length_le (by simp)]
  · rw [← hpre]
    exact bytesAt_append (pre := pre) (post := [c2, c3] ++ post) mac (by simpa using hq)

/-- ReadAuthenticatedPage up to its first checks. -/
theorem run_pageRead (hp : b.presence = true :: present)
    (hb : b.bytes = page.toList ++ [trailer] ++ [c0, c1] ++ rest) :
    runMicro
        (prologue stage ++ (writeAll (commandFrame (wireByte s.params .readAuthenticatedPage) addr)
          ++ (readN 33 ++ (readN 2 ++ ms)))) (s.moved b p (.run op k))
      = runMicro ms
          (s.moved (busAfter b (pageRead s.latch.operands.rom addr page trailer c0 c1) present rest)
            { p with rx := page.toList ++ [trailer] ++ [c0, c1] } (.run op (k + 40))) := by
  have hb1 : b.bytes = (page.toList ++ [trailer]) ++ ([c0, c1] ++ rest) := by simpa using hb
  rw [commandFrame, run_prologue_writeAll hp, run_readN_queue (b := busAfter _ _ _ _) (n := 32) (by simp) hb1,
    run_readN_queue (n := 1) (vs := [c0, c1]) rfl rfl]
  simp [pageRead, readings, wireByte]

theorem run_readAuthenticatedPageP_badTrailer (hp : b.presence = true :: present)
    (hb : b.bytes = page.toList ++ [trailer] ++ [c0, c1] ++ rest) (ht : trailer ≠ trailerRequired) :
    ∃ p' k', runMicro (readAuthenticatedPageP s.params stage addr ++ ms) (s.moved b p (.run op k))
      = (s.moved (busAfter b (pageRead s.latch.operands.rom addr page trailer c0 c1) present rest) p'
          (.run op k')).raise .protocol stage := by
  obtain ⟨h32, -⟩ := page_bytes (page := page) (trailer := trailer) (c0 := c0) (c1 := c1)
    (q := { p with rx := page.toList ++ [trailer] ++ [c0, c1] }) (post := []) (List.append_nil _).symm
  refine ⟨{ p with rx := page.toList ++ [trailer] ++ [c0, c1] }, k + 40, ?_⟩
  simp only [readAuthenticatedPageP, List.append_assoc]
  rw [run_pageRead hp hb, List.cons_append, run_checkTrailer_fail _ _ _ _ _ _ _ _ (by rw [h32]; exact ht)]
  simp only [List.append_assoc]

theorem run_readAuthenticatedPageP_badCrc (hp : b.presence = true :: present)
    (hb : b.bytes = page.toList ++ [trailerRequired] ++ [c0, c1] ++ rest)
    (hc : pageCrcOk s.params addr page trailerRequired c0 c1 = false) :
    ∃ p' k', runMicro (readAuthenticatedPageP s.params stage addr ++ ms) (s.moved b p (.run op k))
      = (s.moved (busAfter b (pageRead s.latch.operands.rom addr page trailerRequired c0 c1) present rest) p'
          (.run op k')).raise .integrity stage := by
  obtain ⟨h32, h33, h34, ht, -⟩ :=
    page_bytes (page := page) (trailer := trailerRequired) (c0 := c0) (c1 := c1)
      (q := { p with rx := page.toList ++ [trailerRequired] ++ [c0, c1] }) (post := []) (List.append_nil _).symm
  refine ⟨{ p with rx := page.toList ++ [trailerRequired] ++ [c0, c1] }, k + 41, ?_⟩
  simp only [readAuthenticatedPageP, List.append_assoc]
  rw [run_pageRead hp hb, List.cons_append, List.cons_append, run_checkTrailer_pass _ _ _ _ _ _ _ _ h32,
    run_checkCrc_fail]
  · simp only [List.append_assoc, Nat.add_assoc, Nat.reduceAdd]
  · rw [ht, h33, h34]
    simpa [pageCrcOk, commandFrame, wireByte] using hc

/-- ReadAuthenticatedPage past its first checks and up to its second CRC check. -/
theorem run_pageMacRead (hp : b.presence = true :: present)
    (hb : b.bytes = page.toList ++ [trailerRequired] ++ [c0, c1] ++ (mac.toList ++ [c2, c3] ++ rest))
    (hc : pageCrcOk s.params addr page trailerRequired c0 c1 = true) :
    ∃ k', runMicro (readAuthenticatedPageP s.params stage addr ++ ms) (s.moved b p (.run op k))
      = runMicro (.checkCrc stage [] 35 20 :: .busRead :: .checkStatus stage 57 :: .keepPage :: ms)
          (s.moved
            (busAfter b
              (pageRead s.latch.operands.rom addr page trailerRequired c0 c1 ++ pageMacRead s.params mac c2 c3) present
              rest)
            { p with rx := page.toList ++ [trailerRequired] ++ [c0, c1] ++ mac.toList ++ [c2, c3] }
            (.run op k')) := by
  obtain ⟨h32, h33, h34, ht, -⟩ :=
    page_bytes (page := page) (trailer := trailerRequired) (c0 := c0) (c1 := c1)
      (q := { p with rx := page.toList ++ [trailerRequired] ++ [c0, c1] }) (post := []) (List.append_nil _).symm
  refine ⟨k + 65, ?_⟩
  simp only [readAuthenticatedPageP, List.append_assoc]
  have hb2 : ∀ (es : List BusEvent) (ps : List Bool),
      (busWait s.params.tSha (busAfter b es ps (mac.toList ++ [c2, c3] ++ rest))).bytes
        = mac.toList ++ ([c2, c3] ++ rest) := by simp
  rw [run_pageRead hp hb, List.cons_append, List.cons_append, List.cons_append, List.nil_append,
    run_checkTrailer_pass _ _ _ _ _ _ _ _ h32, run_checkCrc_pass, run_wait, waitTime,
    run_readN_queue (n := 19) (by simp) (hb2 _ _), run_readN_queue (n := 1) (vs := [c2, c3]) rfl rfl,
    busAfter_of_trace (busWait_trace _ _), busAfter_busAfter, busAfter_busAfter]
  · simp [pageMacRead, readings, readStatus]
  · rw [ht, h33, h34]
    simpa [pageCrcOk, commandFrame, wireByte] using hc

theorem run_readAuthenticatedPageP_badMacCrc (hp : b.presence = true :: present)
    (hb : b.bytes = page.toList ++ [trailerRequired] ++ [c0, c1] ++ (mac.toList ++ [c2, c3] ++ rest))
    (hc : pageCrcOk s.params addr page trailerRequired c0 c1 = true) (hm : crcOk s.params mac.toList c2 c3 = false) :
    ∃ p' k', runMicro (readAuthenticatedPageP s.params stage addr ++ ms) (s.moved b p (.run op k))
      = (s.moved
          (busAfter b
            (pageRead s.latch.operands.rom addr page trailerRequired c0 c1 ++ pageMacRead s.params mac c2 c3) present rest)
          p' (.run op k')).raise .integrity stage := by
  obtain ⟨k', h⟩ := run_pageMacRead (stage := stage) (ms := ms) (op := op) (p := p) (k := k) hp hb hc
  obtain ⟨h55, h56, -, ht, -⟩ := pageMac_bytes
    (q := { p with rx := page.toList ++ [trailerRequired] ++ [c0, c1] ++ mac.toList ++ [c2, c3] })
    (pre := page.toList ++ [trailerRequired] ++ [c0, c1]) (mac := mac) (c2 := c2) (c3 := c3) (post := []) (by simp)
    (by simp)
  refine ⟨_, _, h.trans (run_checkCrc_fail _ _ _ _ _ _ _ _ _ _ ?_)⟩
  rw [ht, h55, h56]
  simpa using hm

theorem run_readAuthenticatedPageP_status (hp : b.presence = true :: present)
    (hb : b.bytes = page.toList ++ [trailerRequired] ++ [c0, c1] ++ (mac.toList ++ [c2, c3] ++ (status :: rest)))
    (hc : pageCrcOk s.params addr page trailerRequired c0 c1 = true) (hm : crcOk s.params mac.toList c2 c3 = true) :
    ∃ p' k', p'.page = page ∧ p'.mac = mac
      ∧ runMicro (readAuthenticatedPageP s.params stage addr ++ ms) (s.moved b p (.run op k))
      = if status = statusSuccess then
          runMicro ms
            (s.moved
              (busAfter b
                (pageRead s.latch.operands.rom addr page trailerRequired c0 c1 ++ pageMacRead s.params mac c2 c3
                  ++ readings [status]) present rest) p' (.run op k'))
        else
          (s.moved
            (busAfter b
              (pageRead s.latch.operands.rom addr page trailerRequired c0 c1 ++ pageMacRead s.params mac c2 c3
                ++ readings [status]) present rest) { p' with page := p.page, mac := p.mac }
            (.run op (k' - 2))).raise .authFailed stage := by
  obtain ⟨k', h⟩ := run_pageMacRead (stage := stage) (ms := ms) (op := op) (p := p) (k := k) hp hb hc
  obtain ⟨h55, h56, -, ht, -⟩ := pageMac_bytes
    (q := { p with rx := page.toList ++ [trailerRequired] ++ [c0, c1] ++ mac.toList ++ [c2, c3] })
    (pre := page.toList ++ [trailerRequired] ++ [c0, c1]) (mac := mac) (c2 := c2) (c3 := c3) (post := []) (by simp)
    (by simp)
  have hq : ([c2, c3] ++ [status] : List Byte) = [c2, c3, status] := rfl
  obtain ⟨-, -, h57, -, hmac⟩ := pageMac_bytes
    (q := { p with rx := page.toList ++ [trailerRequired] ++ [c0, c1] ++ mac.toList ++ [c2, c3] ++ [status] })
    (pre := page.toList ++ [trailerRequired] ++ [c0, c1]) (mac := mac) (c2 := c2) (c3 := c3) (post := [status]) (by simp)
    rfl
  obtain ⟨-, -, -, -, hpage⟩ := page_bytes (page := page) (trailer := trailerRequired) (c0 := c0) (c1 := c1)
    (q := { p with rx := page.toList ++ [trailerRequired] ++ [c0, c1] ++ mac.toList ++ [c2, c3] ++ [status] })
    (post := mac.toList ++ [c2, c3] ++ [status]) (by simp)
  have hstatus : rxByte
      { p with rx := page.toList ++ [trailerRequired] ++ [c0, c1] ++ mac.toList ++ [c2, c3] ++ [status] } 57 = status := h57
  refine ⟨{ p with
      rx := page.toList ++ [trailerRequired] ++ [c0, c1] ++ mac.toList ++ [c2, c3] ++ [status]
      page := page, mac := mac }, k' + 4, rfl, rfl, h.trans ?_⟩
  rw [run_checkCrc_pass _ _ _ _ _ _ _ _ _ _ (by rw [ht, h55, h56]; simpa using hm), run_busRead,
    busRead_queue (v := status) (vs := rest) rfl]
  split
  · rw [run_checkStatus_pass _ _ _ _ _ _ _ _ (hstatus.trans ‹_›), run_keepPage, hpage, hmac, busAfter_busAfter]
    rfl
  · rw [run_checkStatus_fail _ _ _ _ _ _ _ _ (by rw [hstatus]; assumption), busAfter_busAfter]
    rfl

end

/-! ### ReadMemory -/

theorem run_readMemoryP {addr : Half} {vs : List Byte} (hp : b.presence = true :: present) (hb : b.bytes = vs ++ rest) :
    ∃ p' k', p'.mem = vs
      ∧ runMicro (readMemoryP s.params stage addr vs.length ++ ms) (s.moved b p (.run op k))
      = runMicro ms
          (s.moved (busAfter b (memoryRead s.latch.operands.rom addr vs) present rest) p' (.run op k')) := by
  refine ⟨{ p with rx := vs, mem := vs }, k + 6 + vs.length, rfl, ?_⟩
  simp only [readMemoryP, List.append_assoc]
  rw [commandFrame, run_prologue_writeAll hp]
  cases vs with
  | nil =>
    obtain rfl : b.bytes = rest := by simpa using hb
    simp only [readN, List.length_nil, List.replicate_zero, List.nil_append, List.singleton_append, run_keepMemory]
    simp [memoryRead, readings, wireByte]
  | cons v vs =>
    rw [List.length_cons, run_readN_queue (b := busAfter _ _ _ _) rfl hb, List.singleton_append, run_keepMemory]
    simp only [memoryRead, wireByte, busAfter_busAfter, busAfter_presence, List.append_assoc, List.nil_append,
      List.length_cons, List.length_nil]
    rw [show k + 2 + (0 + 1 + 1 + 1) + (vs.length + 1) + 1 = k + 6 + (vs.length + 1) by omega]

/-! ### No device -/

/-- Every procedure begins with its prologue, so a reset that finds no device ends it at once. -/
theorem run_noDevice (hp : b.presence = false :: present) {pre : List Micro} (h : pre = prologue stage ++ ms) :
    runMicro pre (s.moved b p (.run op k))
      = (s.moved { b with presence := present, trace := b.trace ++ [.rst false] } p (.run op k)).raise .noDevice stage := by
  subst h
  exact run_prologue_absent _ _ _ _ _ _ _ hp

end

end Sys2Proof.Machine
end

