-- ==== Sys2Proof/Laws/Sequencer.lean ====
section
/-!
SUPPORT. Everything one position of pseudocode can do, said once (`microStep_cases`), the shape every operation's pseudocode
has (`ProgramOk`, `programOf_ok`), and what a run of such positions does.
-/

namespace Sys2Proof.Machine

open Sys2Proof.Safety

/-! ### One position -/

/-- The failure a position may raise. -/
def microRaises : Micro → Option (Kind × BitVec 3)
  | .busReset stage => some (.noDevice, stage)
  | .checkTrailer stage _ => some (.protocol, stage)
  | .checkCrc stage _ _ _ => some (.integrity, stage)
  | .checkStatus stage _ => some (.authFailed, stage)
  | .busSelect | .busWrite _ | .busHold | .wait _ | .busRelease | .busRead | .keepScratchpad | .keepPage | .keepMemory
  | .macLoad | .macRound | .macKeep | .macSerialize | .succeed _ => none

/-- The events a position that goes on may append to the trace. -/
def microAppends : Micro → List BusEvent → Prop
  | .busReset _, es => es = [.rst true]
  | .busSelect, es => ∃ rom, es = [.sel rom]
  | .busWrite _, es => ∃ v, es = [.w v]
  | .busHold, es => es = [.pwrOn]
  | .wait _, es => ∃ t, es = [.dly t]
  | .busRelease, es => es = [.pwrOff]
  | .busRead, es => ∃ v, es = [.r v]
  | .checkTrailer _ _, es | .checkCrc _ _ _ _, es | .checkStatus _ _, es | .keepScratchpad, es | .keepPage, es
  | .keepMemory, es | .macLoad, es | .macRound, es | .macKeep, es | .macSerialize, es | .succeed _, es => es = []

/-- A position goes on: only the bus, the pending buffer and the MAC engine's working state change. -/
structure GoesOn (m : Micro) (s t : State) : Prop where
  eq : t = { s with bus := t.bus, pending := t.pending, work := t.work, fsm := s.fsm.next }
  power : t.bus.power = powerAfter s.bus.power m
  trace : ∃ es, microAppends m es ∧ t.bus.trace = s.bus.trace ++ es
  notSucceed : ∀ regs, m ≠ .succeed regs

/-- A position raises: the failure, after a bus that gained `RST(false)` or nothing. -/
structure Raises (m : Micro) (s t : State) : Prop where
  raised : ∃ kind stage bus, microRaises m = some (kind, stage) ∧ t = State.raise kind stage { s with bus := bus }
    ∧ bus.power = s.bus.power ∧ (bus.trace = s.bus.trace ∨ bus.trace = s.bus.trace ++ [.rst false])

theorem busReset_trace (b : Bus) : (busReset b).2.trace = b.trace ++ [.rst (busReset b).1] := by
  unfold busReset; split <;> rfl

theorem busReset_power (b : Bus) : (busReset b).2.power = b.power := by
  unfold busReset; split <;> rfl

theorem busRead_trace (b : Bus) : (busRead b).2.trace = b.trace ++ [.r (busRead b).1] := by
  unfold busRead; split <;> rfl

theorem busRead_power (b : Bus) : (busRead b).2.power = false := by
  unfold busRead; split <;> rfl

/-- Everything a position can do: go on, raise, or end the operation with success. -/
theorem microStep_cases (m : Micro) (s : State) :
    GoesOn m s (microStep m s) ∨ Raises m s (microStep m s) ∨ ∃ regs, m = .succeed regs ∧ microStep m s = s.succeed regs := by
  cases m with
  | busReset stage =>
    by_cases h : (busReset s.bus).1 = true
    · refine .inl ⟨?_, ?_, ⟨_, rfl, ?_⟩, nofun⟩ <;> simp only [microStep, h, if_true, State.advanceBusPending]
      · exact busReset_power _
      · rw [busReset_trace, h]
    · refine .inr (.inl ⟨_, _, (busReset s.bus).2, rfl, ?_, busReset_power _, .inr ?_⟩)
      · simp [microStep, h]
      · rw [busReset_trace]; simp only [Bool.not_eq_true] at h; rw [h]
  | checkTrailer stage pos =>
    by_cases h : rxByte s.pending pos = trailerRequired
    · refine .inl ⟨?_, ?_, ⟨_, rfl, ?_⟩, nofun⟩ <;> simp [microStep, h, State.advance, powerAfter]
    · exact .inr (.inl ⟨_, _, s.bus, rfl, by simp only [microStep, h]; rfl, rfl, .inl rfl⟩)
  | checkCrc stage sent start len =>
    by_cases h : crcOk s.params (sent ++ (s.pending.rx.drop start).take len) (rxByte s.pending (start + len))
        (rxByte s.pending (start + len + 1)) = true
    · refine .inl ⟨?_, ?_, ⟨_, rfl, ?_⟩, nofun⟩ <;> simp [microStep, h, State.advance, powerAfter]
    · exact .inr (.inl ⟨_, _, s.bus, rfl, by simp only [microStep, h]; rfl, rfl, .inl rfl⟩)
  | checkStatus stage pos =>
    by_cases h : rxByte s.pending pos = statusSuccess
    · refine .inl ⟨?_, ?_, ⟨_, rfl, ?_⟩, nofun⟩ <;> simp [microStep, h, State.advance, powerAfter]
    · exact .inr (.inl ⟨_, _, s.bus, rfl, by simp only [microStep, h]; rfl, rfl, .inl rfl⟩)
  | succeed regs => exact .inr (.inr ⟨regs, rfl, rfl⟩)
  | busSelect => exact .inl ⟨rfl, rfl, ⟨_, ⟨_, rfl⟩, rfl⟩, nofun⟩
  | busWrite src => exact .inl ⟨rfl, rfl, ⟨_, ⟨_, rfl⟩, rfl⟩, nofun⟩
  | busHold => exact .inl ⟨rfl, rfl, ⟨_, rfl, rfl⟩, nofun⟩
  | wait p => exact .inl ⟨rfl, rfl, ⟨_, ⟨_, rfl⟩, rfl⟩, nofun⟩
  | busRelease => exact .inl ⟨rfl, rfl, ⟨_, rfl, rfl⟩, nofun⟩
  | busRead => exact .inl ⟨rfl, busRead_power _, ⟨_, ⟨_, rfl⟩, busRead_trace _⟩, nofun⟩
  | keepScratchpad => exact .inl ⟨rfl, rfl, ⟨_, rfl, (List.append_nil _).symm⟩, nofun⟩
  | keepPage => exact .inl ⟨rfl, rfl, ⟨_, rfl, (List.append_nil _).symm⟩, nofun⟩
  | keepMemory => exact .inl ⟨rfl, rfl, ⟨_, rfl, (List.append_nil _).symm⟩, nofun⟩
  | macLoad => exact .inl ⟨rfl, rfl, ⟨_, rfl, (List.append_nil _).symm⟩, nofun⟩
  | macRound => exact .inl ⟨rfl, rfl, ⟨_, rfl, (List.append_nil _).symm⟩, nofun⟩
  | macKeep => exact .inl ⟨rfl, rfl, ⟨_, rfl, (List.append_nil _).symm⟩, nofun⟩
  | macSerialize => exact .inl ⟨rfl, rfl, ⟨_, rfl, (List.append_nil _).symm⟩, nofun⟩

/-! ### The shape of pseudocode -/

/-- The shape of pseudocode, from POWER = `power`: it ends in its only `succeed`, POWER is 0 wherever the operation can end,
and every failure it may raise is one `ok` admits. -/
def ProgramOk (ok : Kind → BitVec 3 → Prop) : Bool → List Micro → Prop
  | _, [] => False
  | power, .succeed _ :: ms => ms = [] ∧ power = false
  | power, m :: ms =>
    (∀ kind stage, microRaises m = some (kind, stage) → ok kind stage ∧ power = false) ∧ ProgramOk ok (powerAfter power m) ms

/-- The failures of an operation: those its steps' primitives raise (60_exceptions.md R220). -/
def mayRaise (i : Instr) (kind : Kind) (stage : BitVec 3) : Prop :=
  ∃ command, commandAt i stage = some command ∧ raisedBy command kind = true

section
variable {ok : Kind → BitVec 3 → Prop} {power : Bool} {ms : List Micro}

theorem ProgramOk.cons {m : Micro} (hm : ∀ regs, m ≠ .succeed regs) :
    ProgramOk ok power (m :: ms)
      ↔ (∀ kind stage, microRaises m = some (kind, stage) → ok kind stage ∧ power = false)
        ∧ ProgramOk ok (powerAfter power m) ms := by
  cases m <;> first | exact Iff.rfl | exact absurd rfl (hm _)

/-- A position that raises nothing. -/
theorem ProgramOk.quiet {m : Micro} (h : microRaises m = none) (hm : ∀ regs, m ≠ .succeed regs)
    (hms : ProgramOk ok (powerAfter power m) ms) : ProgramOk ok power (m :: ms) :=
  (ProgramOk.cons hm).2 ⟨fun _ _ e => (nomatch h.symm.trans e), hms⟩

/-- A position that may raise, with POWER = 0. -/
theorem ProgramOk.check {m : Micro} {kind : Kind} {stage : BitVec 3} (h : microRaises m = some (kind, stage))
    (hok : ok kind stage) (hms : ProgramOk ok (powerAfter false m) ms) : ProgramOk ok false (m :: ms) :=
  (ProgramOk.cons (by rintro _ rfl; cases h)).2 ⟨fun _ _ e => by cases h.symm.trans e; exact ⟨hok, rfl⟩, hms⟩

theorem ProgramOk.writeAll (bs : List Byte) (h : bs ≠ [] ∨ power = false) (hms : ProgramOk ok false ms) :
    ProgramOk ok power (writeAll bs ++ ms) := by
  induction bs generalizing power with
  | nil => rcases h with h | rfl
           · exact absurd rfl h
           · exact hms
  | cons b bs ih => exact .quiet rfl nofun (ih (.inr rfl))

theorem ProgramOk.readN (n : Nat) (hms : ProgramOk ok false ms) : ProgramOk ok false (readN n ++ ms) := by
  induction n with
  | zero => exact hms
  | succ n ih =>
    rw [Machine.readN, List.replicate_succ]
    exact .quiet rfl nofun ih

theorem ProgramOk.prologue {stage : BitVec 3} (h : ok .noDevice stage) (hms : ProgramOk ok false ms) :
    ProgramOk ok false (prologue stage ++ ms) :=
  .check rfl h (.quiet rfl nofun hms)

theorem ProgramOk.writeCommandEs {cmd : Byte} {addr : AddrSrc} {es : ByteSrc} (hms : ProgramOk ok false ms) :
    ProgramOk ok false (writeCommandEs cmd addr es ++ ms) :=
  .quiet rfl nofun (.quiet rfl nofun (.quiet rfl nofun (.quiet rfl nofun hms)))

theorem ProgramOk.holdForSha (hms : ProgramOk ok true ms) : ProgramOk ok power (holdForSha ++ ms) :=
  .quiet rfl nofun (.quiet rfl nofun hms)

theorem ProgramOk.holdForProgramming (hms : ProgramOk ok false ms) : ProgramOk ok power (holdForProgramming ++ ms) :=
  .quiet rfl nofun (.quiet rfl nofun (.quiet rfl nofun hms))

theorem ProgramOk.readStatus {stage : BitVec 3} {pos : Nat} (h : ok .authFailed stage) (hms : ProgramOk ok false ms) :
    ProgramOk ok false (readStatus stage pos ++ ms) :=
  .quiet rfl nofun (.check rfl h hms)

theorem ProgramOk.writeScratchpadP {stage : BitVec 3} {addr : Half} {d : Vector Byte 8} {cmd : Byte}
    (hn : ok .noDevice stage) (hi : ok .integrity stage) (hms : ProgramOk ok false ms) :
    ProgramOk ok false (writeScratchpadP stage addr d cmd ++ ms) := by
  simp only [Machine.writeScratchpadP, List.append_assoc]
  exact .prologue hn (.writeAll _ (.inr rfl) (.readN _ (.check rfl hi hms)))

theorem ProgramOk.readScratchpadP {p : Params} {stage : BitVec 3} (hn : ok .noDevice stage) (hi : ok .integrity stage)
    (hms : ProgramOk ok false ms) : ProgramOk ok false (readScratchpadP p stage ++ ms) := by
  simp only [Machine.readScratchpadP, List.append_assoc]
  exact .prologue hn (.writeAll _ (.inr rfl) (.readN _ (.readN _ (.check rfl hi (.quiet rfl nofun hms)))))

theorem ProgramOk.copyScratchpadP {p : Params} {stage : BitVec 3} {addr : AddrSrc} {es : ByteSrc} {mac : Vector Byte 20}
    (hn : ok .noDevice stage) (ha : ok .authFailed stage) (hms : ProgramOk ok false ms) :
    ProgramOk ok false (copyScratchpadP p stage addr es mac ++ ms) := by
  simp only [Machine.copyScratchpadP, List.append_assoc]
  have hmac : mac.toList ≠ [] := fun h => by simpa using congrArg List.length h
  exact .prologue hn (.writeCommandEs (.holdForSha (.writeAll _ (.inl hmac) (.holdForProgramming (.readStatus ha hms)))))

theorem ProgramOk.loadFirstSecretP {p : Params} {stage : BitVec 3} {addr : AddrSrc} {es : ByteSrc}
    (hn : ok .noDevice stage) (ha : ok .authFailed stage) (hms : ProgramOk ok false ms) :
    ProgramOk ok false (loadFirstSecretP p stage addr es ++ ms) := by
  simp only [Machine.loadFirstSecretP, List.append_assoc]
  exact .prologue hn (.writeCommandEs (.holdForProgramming (.readStatus ha hms)))

theorem ProgramOk.readAuthenticatedPageP {p : Params} {stage : BitVec 3} {addr : Half} (hn : ok .noDevice stage)
    (hp : ok .protocol stage) (hi : ok .integrity stage) (ha : ok .authFailed stage) (hms : ProgramOk ok false ms) :
    ProgramOk ok false (readAuthenticatedPageP p stage addr ++ ms) := by
  simp only [Machine.readAuthenticatedPageP, List.append_assoc]
  exact .prologue hn (.writeAll _ (.inr rfl) (.readN _ (.readN _ (.check rfl hp (.check rfl hi (.quiet rfl nofun
    (.readN _ (.readN _ (.check rfl hi (.readStatus ha (.quiet rfl nofun hms)))))))))))

theorem ProgramOk.readMemoryP {p : Params} {stage : BitVec 3} {addr : Half} {n : Nat} (hn : ok .noDevice stage)
    (hms : ProgramOk ok false ms) : ProgramOk ok false (readMemoryP p stage addr n ++ ms) := by
  simp only [Machine.readMemoryP, List.append_assoc]
  exact .prologue hn (.writeAll _ (.inr rfl) (.readN _ (.quiet rfl nofun hms)))

theorem ProgramOk.macRounds (n : Nat) (hms : ProgramOk ok false ms) :
    ProgramOk ok false (List.replicate n .macRound ++ ms) := by
  induction n with
  | zero => exact hms
  | succ n ih => rw [List.replicate_succ]; exact .quiet rfl nofun ih

end

/-- Every operation's pseudocode has the shape, whatever the parameters and the latch hold. -/
theorem programOf_ok (i : Instr) (p : Params) (l : Latch) : ProgramOk (mayRaise i) false (programOf i p l) := by
  cases i
  case digest => exact .quiet rfl nofun (.macRounds _ (.quiet rfl nofun ⟨rfl, rfl⟩))
  case sermac => exact .quiet rfl nofun ⟨rfl, rfl⟩
  case wspad => exact .writeScratchpadP ⟨_, rfl, rfl⟩ ⟨_, rfl, rfl⟩ ⟨rfl, rfl⟩
  case rspad => exact .readScratchpadP ⟨_, rfl, rfl⟩ ⟨_, rfl, rfl⟩ ⟨rfl, rfl⟩
  case rfspad => exact .writeScratchpadP ⟨_, rfl, rfl⟩ ⟨_, rfl, rfl⟩ ⟨rfl, rfl⟩
  case cpspad => exact .copyScratchpadP ⟨_, rfl, rfl⟩ ⟨_, rfl, rfl⟩ ⟨rfl, rfl⟩
  case rdauth =>
    exact .readAuthenticatedPageP ⟨_, rfl, rfl⟩ ⟨_, rfl, rfl⟩ ⟨_, rfl, rfl⟩ ⟨_, rfl, rfl⟩ ⟨rfl, rfl⟩
  case ldsec => exact .loadFirstSecretP ⟨_, rfl, rfl⟩ ⟨_, rfl, rfl⟩ ⟨rfl, rfl⟩
  case rdmem => exact .readMemoryP ⟨_, rfl, rfl⟩ ⟨rfl, rfl⟩
  case rdchal =>
    simp only [programOf, rdchalProgram, List.append_assoc]
    exact .writeScratchpadP ⟨_, rfl, rfl⟩ ⟨_, rfl, rfl⟩
      (.readAuthenticatedPageP ⟨_, rfl, rfl⟩ ⟨_, rfl, rfl⟩ ⟨_, rfl, rfl⟩ ⟨_, rfl, rfl⟩ ⟨rfl, rfl⟩)
  case provsec =>
    simp only [programOf, provsecProgram, List.append_assoc]
    exact .writeScratchpadP ⟨_, rfl, rfl⟩ ⟨_, rfl, rfl⟩ (.readScratchpadP ⟨_, rfl, rfl⟩ ⟨_, rfl, rfl⟩
      (.loadFirstSecretP ⟨_, rfl, rfl⟩ ⟨_, rfl, rfl⟩ ⟨rfl, rfl⟩))
  case wrauth =>
    simp only [programOf, wrauthProgram, List.append_assoc]
    exact .writeScratchpadP ⟨_, rfl, rfl⟩ ⟨_, rfl, rfl⟩ (.readScratchpadP ⟨_, rfl, rfl⟩ ⟨_, rfl, rfl⟩
      (.copyScratchpadP ⟨_, rfl, rfl⟩ ⟨_, rfl, rfl⟩ (.writeScratchpadP ⟨_, rfl, rfl⟩ ⟨_, rfl, rfl⟩
        (.loadFirstSecretP ⟨_, rfl, rfl⟩ ⟨_, rfl, rfl⟩ ⟨rfl, rfl⟩))))

/-! ### The run of an operation -/

/-- Only the bus, the pending buffer, the MAC engine's working state and the sequencer state differ. -/
def SameButRun (s t : State) : Prop :=
  t = { s with bus := t.bus, pending := t.pending, work := t.work, fsm := t.fsm }

theorem SameButRun.refl (s : State) : SameButRun s s := rfl

theorem SameButRun.trans {s t u : State} (h : SameButRun s t) (h' : SameButRun t u) : SameButRun s u := by
  unfold SameButRun at *; rw [h', h]

theorem GoesOn.same {m : Micro} {s t : State} (h : GoesOn m s t) : SameButRun s t := by
  have hf : t.fsm = s.fsm.next := by rw [h.eq]
  unfold SameButRun; rw [hf]; exact h.eq

theorem GoesOn.fsm {m : Micro} {s t : State} {op : Instr} {k : Nat} (h : GoesOn m s t) (hf : s.fsm = .run op k) :
    t.fsm = .run op (k + 1) := by
  rw [h.eq]; simp [hf, Fsm.next]

theorem runMicro_goesOn {m : Micro} {ms : List Micro} {s : State} {op : Instr} {k : Nat}
    (h : GoesOn m s (microStep m s)) (hf : s.fsm = .run op k) : runMicro (m :: ms) s = runMicro ms (microStep m s) := by
  rw [runMicro, h.fsm hf]

theorem runMicro_raises {m : Micro} {ms : List Micro} {s : State} (h : Raises m s (microStep m s)) :
    runMicro (m :: ms) s = microStep m s := by
  obtain ⟨_, _, _, -, h, -⟩ := h
  rw [runMicro, h]; rfl

/-- How the run of an operation ends, begun with POWER = `power`: POWER is 0, and it raises a failure of the operation, or
succeeds with the registers of its last position. -/
inductive Ends (ok : Kind → BitVec 3 → Prop) (power : Bool) (ms : List Micro) (s t : State) : Prop where
  | raised (u : State) (kind : Kind) (stage : BitVec 3) (same : SameButRun s u)
      (power : s.bus.power = power → u.bus.power = false) (trace : ∃ es, u.bus.trace = s.bus.trace ++ es)
      (admitted : ok kind stage) (eq : t = u.raise kind stage)
  | succeeded (u : State) (regs : List ResultReg) (same : SameButRun s u)
      (power : s.bus.power = power → u.bus.power = false) (trace : ∃ es, u.bus.trace = s.bus.trace ++ es)
      (last : ms.getLast? = some (.succeed regs)) (eq : t = u.succeed regs)

/-- Pseudocode of the shape ends, from every state and for every answer of transport and token. -/
theorem runMicro_ends {ok : Kind → BitVec 3 → Prop} {power : Bool} {ms : List Micro} {s : State} {op : Instr} {k : Nat}
    (hok : ProgramOk ok power ms) (hf : s.fsm = .run op k) : Ends ok power ms s (runMicro ms s) := by
  induction ms generalizing power s k with
  | nil => exact hok.elim
  | cons m ms ih =>
    rcases microStep_cases m s with h | h | ⟨regs, rfl, h⟩
    · rw [runMicro_goesOn h hf]
      obtain ⟨-, hok⟩ := (ProgramOk.cons h.notSucceed).1 hok
      obtain ⟨es, -, htr⟩ := h.trace
      have hlast : ∀ x, ms.getLast? = some x → (m :: ms).getLast? = some x := fun x hx => by
        rw [List.getLast?_cons, hx]; rfl
      have hpow : s.bus.power = power → (microStep m s).bus.power = powerAfter power m := fun hp => by rw [h.power, hp]
      rcases ih hok (h.fsm hf) with ⟨u, kind, stage, hs, hu, ⟨es', ht⟩, ha, he⟩ | ⟨u, regs, hs, hu, ⟨es', ht⟩, hl, he⟩
      · exact .raised u kind stage (h.same.trans hs) (hu ∘ hpow) ⟨es ++ es', by rw [ht, htr, List.append_assoc]⟩ ha he
      · exact .succeeded u regs (h.same.trans hs) (hu ∘ hpow) ⟨es ++ es', by rw [ht, htr, List.append_assoc]⟩
          (hlast _ hl) he
    · rw [runMicro_raises h]
      obtain ⟨kind, stage, bus, hr, he, hb, ht⟩ := h.raised
      obtain ⟨hok, -⟩ := (ProgramOk.cons (by rintro _ rfl; cases hr)).1 hok
      obtain ⟨ha, rfl⟩ := hok _ _ hr
      refine .raised { s with bus := bus } kind stage rfl (fun hp => by rw [← hp]; exact hb) ?_ ha he
      rcases ht with ht | ht
      · exact ⟨[], by simp [ht]⟩
      · exact ⟨_, ht⟩
    · obtain ⟨rfl, rfl⟩ := hok
      exact .succeeded s regs rfl id ⟨[], by simp⟩ rfl (by rw [runMicro, h]; rfl)

/-- The registers that an operation's success commits (10_state.md R20, column "written by the core"). -/
def committedBy : Instr → List ResultReg
  | .digest => [.h]
  | .sermac => [.macout]
  | .wspad | .rfspad | .cpspad | .ldsec => []
  | .rspad | .provsec | .wrauth => [.rta, .res, .rdata]
  | .rdauth | .rdchal => [.page, .macrd]
  | .rdmem => [.mem]

theorem programOf_last (i : Instr) (p : Params) (l : Latch) :
    (programOf i p l).getLast? = some (.succeed (committedBy i)) := by
  have h : ∀ (ms : List Micro) (x : Micro), (ms ++ [x]).getLast? = some x := fun ms x => by simp
  cases i
  case digest => exact h (.macLoad :: (List.replicate 80 .macRound ++ [.macKeep])) _
  case sermac => exact h [.macSerialize] _
  all_goals exact h _ _

/-- What a meaning does when no operation runs: it refuses the START, or runs the pseudocode from RUN(i, 0). -/
theorem runOperation_idle {i : Instr} {s : State} {program : Params → Latch → List Micro} (hb : busy s.status = false) :
    runOperation i program s
      = if s.startRefused i then s.refuseStart (encode i)
        else runMicro (program s.params { operands := s.operands, h := s.results.h }) (s.start i) := by
  rw [runOperation, hb]; rfl

/-- Every meaning runs its own pseudocode. -/
theorem exec_eq (i : Instr) (s : State) : exec i s = .next (runOperation i (programOf i) s) := by cases i <;> rfl

/-- A meaning whose START is not refused: its pseudocode from RUN(i, 0). -/
theorem exec_run {i : Instr} {s : State} (hb : busy s.status = false) (hr : s.startRefused i = false) :
    exec i s
      = .next (runMicro (programOf i s.params { operands := s.operands, h := s.results.h })
          ((s.start i).moved s.bus .empty (.run i 0))) := by
  rw [exec_eq, runOperation_idle hb, hr]; rfl

/-- A meaning whose START is not refused ends as `Ends` says. -/
theorem exec_ends {i : Instr} {s : State} (hb : busy s.status = false) (hr : s.startRefused i = false) :
    Ends (mayRaise i) false (programOf i s.params { operands := s.operands, h := s.results.h }) (s.start i)
      (runOperation i (programOf i) s) := by
  rw [runOperation_idle hb, hr]
  exact runMicro_ends (programOf_ok ..) rfl

@[simp] theorem start_status (i : Instr) (s : State) : (s.start i).status = statusStarted i.code := by
  show statusStarted (cmdOp (encode i)) = _
  simp

/-- The end of a run by `succeed`, as the state the claims speak of. -/
theorem succeeded_of_run {i : Instr} {s : State} {b : Bus} {p : Pending} {k : Nat} {regs : List ResultReg}
    {res : Results} (h : commit s.params.membuf p regs s.results = res) :
    Succeeded i s (((s.start i).moved b p (.run i k)).succeed regs) res b := by
  refine ⟨⟨rfl, rfl, rfl, h, rfl, rfl, rfl, rfl, rfl⟩, ?_⟩
  show statusSucceeded (s.start i).status = _
  rw [start_status, statusSucceeded_started]; rfl

/-- The end of a run by `raise`, as the state the claims speak of. -/
theorem failed_of_run {i : Instr} {s : State} {b : Bus} {p : Pending} {k : Nat} {kind : Kind} {stage : BitVec 3} :
    Failed i s (((s.start i).moved b p (.run i k)).raise kind stage) kind stage b := by
  refine ⟨⟨rfl, rfl, rfl, rfl, rfl, rfl, rfl, rfl, rfl⟩, ?_⟩
  show statusFailed (s.start i).status kind stage = _
  rw [start_status, statusFailed_started]; rfl

/-! ### Positions of an operation -/

/-- A position that is not the `succeed` is not the last. -/
theorem programOf_notLast {i : Instr} {p : Params} {l : Latch} {k : Nat} {m : Micro} (h : (programOf i p l)[k]? = some m)
    (hm : ∀ regs, m ≠ .succeed regs) : k + 1 < (programOf i p l).length := by
  have hlast := programOf_last i p l
  rw [List.getLast?_eq_getElem?] at hlast
  obtain ⟨hk, -⟩ := List.getElem?_eq_some_iff.1 h
  by_contra hlt
  rw [show (programOf i p l).length - 1 = k by omega, h] at hlast
  cases hlast
  exact hm _ rfl

theorem ProgramOk.split {ok : Kind → BitVec 3 → Prop} {power : Bool} {pre post : List Micro}
    (h : ProgramOk ok power (pre ++ post)) (hne : post ≠ []) : ProgramOk ok (pre.foldl powerAfter power) post := by
  induction pre generalizing power with
  | nil => exact h
  | cons m ms ih =>
    have hm : ∀ regs, m ≠ .succeed regs := by
      rintro regs rfl
      exact hne (List.append_eq_nil_iff.1 h.1).2
    exact ih ((ProgramOk.cons hm).1 h).2

/-- The pseudocode from position `k` on has the shape, from POWER as it is there. -/
theorem ProgramOk.at {i : Instr} {p : Params} {l : Latch} {k : Nat} {m : Micro} (h : (programOf i p l)[k]? = some m) :
    ProgramOk (mayRaise i) (powerAlong ((programOf i p l).take k)) (m :: (programOf i p l).drop (k + 1)) := by
  have hok := programOf_ok i p l
  obtain ⟨hk, hm⟩ := List.getElem?_eq_some_iff.1 h
  rw [← List.take_append_drop k (programOf i p l), List.drop_eq_getElem_cons hk, hm] at hok
  exact hok.split (by simp)

/-! ### Moves of the core -/

/-- Everything a move of the core can do: nothing when idle, else the position its FSM names. -/
theorem coreTick_cases {s t : State} (h : coreTick s = .next t) :
    s.fsm = .idle ∧ t = s
      ∨ ∃ op k m, s.fsm = .run op k ∧ (programOf op s.params s.latch)[k]? = some m ∧ t = microStep m s := by
  unfold coreTick at h
  split at h
  · rename_i hf
    cases h
    exact .inl ⟨hf, rfl⟩
  · rename_i op k hf
    split at h
    · rename_i m hm
      cases h
      exact .inr ⟨op, k, m, hf, hm, rfl⟩
    · cases h

/-- A position leaves the operand registers, the schedule and the host's reads as they are. -/
theorem microStep_host (m : Micro) (s : State) :
    (microStep m s).operands = s.operands ∧ (microStep m s).inputs = s.inputs ∧ (microStep m s).reads = s.reads := by
  cases m <;> dsimp only [microStep] <;> (try split) <;> exact ⟨rfl, rfl, rfl⟩

/-- A position reads no operand register: it does the same beside any others (10_state.md R41). -/
theorem microStep_withOperands (m : Micro) (s : State) (o : Operands) :
    microStep m { s with operands := o } = { microStep m s with operands := o } := by
  cases m <;> dsimp only [microStep] <;> (try split) <;> rfl

/-- A move of the core leaves the operand registers, the schedule and the host's reads as they are. -/
theorem coreTick_host {s t : State} (h : coreTick s = .next t) :
    t.operands = s.operands ∧ t.inputs = s.inputs ∧ t.reads = s.reads := by
  obtain ⟨-, rfl⟩ | ⟨op, k, m, -, -, rfl⟩ := coreTick_cases h
  · exact ⟨rfl, rfl, rfl⟩
  · exact microStep_host m s

/-! ### Steps of the host's core -/

theorem core_run_zero (s : State) : Host.Core.run Sys2Proof.core 0 s = .next s := rfl

/-- One more step of `Host.Core.run` over this machine. -/
theorem core_run_next {n : Nat} {s t : State} (h : step s = .next t) :
    Host.Core.run Sys2Proof.core (n + 1) s = Host.Core.run Sys2Proof.core n t := by
  have h' : Sys2Proof.core.step s = .next t := h
  exact (Host.Core.run.eq_def Sys2Proof.core (n + 1) s).trans (by simp only [h'])

end Sys2Proof.Machine
end

