-- ==== Sys2Proof/Laws/Script.lean ====
section
/-!
SUPPORT. What the turns of a `WAIT`, the steps of a line and the lines of a script can do (30_encoding.md R98).
-/

namespace Sys2Proof.Machine

/-- Everything a turn of `WAIT` can do: with BUSY = 0 it leaves the schedule, else it stays and the core moves. -/
theorem waitTurn_cases {rest : List Input} {s t : State} (h : waitTurn rest s = .next t) :
    busy s.status = false ∧ t = recordRead (regIndex .status) 0 { s with inputs := rest }
      ∨ busy s.status = true ∧ coreTick (recordRead (regIndex .status) 0 s) = .next t ∧ t.inputs = s.inputs := by
  unfold waitTurn at h
  split at h
  · rename_i hb
    exact .inr ⟨hb, h, (coreTick_host h).2.1⟩
  · rename_i hb
    cases h
    exact .inl ⟨by simpa using hb, rfl⟩

@[simp] theorem runInputs_zero (s : State) : runInputs 0 s = .next s := rfl

theorem runInputs_done {fuel : Nat} {s : State} (h : s.inputs = []) : runInputs fuel s = .next s := by
  cases fuel <;> simp [runInputs, h]

/-- Everything the steps of a line can do: they are over, they ran out, or one step is taken and the rest follow. -/
theorem runInputs_cases {fuel : Nat} {s t : State} (h : runInputs fuel s = .next t) :
    (s.inputs = [] ∨ fuel = 0) ∧ t = s
      ∨ ∃ n u, fuel = n + 1 ∧ s.inputs ≠ [] ∧ step s = .next u ∧ runInputs n u = .next t := by
  cases fuel with
  | zero => cases h; exact .inl ⟨.inr rfl, rfl⟩
  | succ n =>
    unfold runInputs at h
    split at h
    · rename_i hi
      cases h
      exact .inl ⟨.inl hi, rfl⟩
    · rename_i hi
      split at h
      · rename_i u hu
        exact .inr ⟨n, u, rfl, by simp [hi], hu, h⟩
      · cases h
      · cases h

/-- Everything a script can do at a line: its accesses are made and it goes on or ends, or the steps ran out and it stops
there. -/
theorem runScript_cases {pace : Nat → Nat} {fuel lines pc made : Nat} {script : List Line} {line : Line} {s t : State}
    (hl : script[pc]? = some line) (h : runScript pace fuel script (lines + 1) pc made s = .next t) :
    ∃ u, runInputs fuel { s with inputs := s.inputs ++ pacedAccesses pace made (stmtAccesses s.params line.stmt) } = .next u
      ∧ ((u.inputs = [] ∧ ∃ pc', nextLine script pc u.status line.stmt = some pc'
            ∧ runScript pace fuel script lines pc' (made + (stmtAccesses s.params line.stmt).length) u = .next t)
          ∨ (u.inputs = [] ∧ nextLine script pc u.status line.stmt = none ∧ t = u)
          ∨ (u.inputs ≠ [] ∧ t = u)) := by
  unfold runScript at h
  simp only [hl] at h
  split at h
  · rename_i u hu
    refine ⟨u, hu, ?_⟩
    split at h
    · rename_i pc' hi hn
      exact .inl ⟨hi, pc', hn, h⟩
    · rename_i hi hn
      cases h
      exact .inr (.inl ⟨hi, hn, rfl⟩)
    · rename_i hi
      cases h
      exact .inr (.inr ⟨by simp [hi], rfl⟩)
  · cases h
  · cases h

end Sys2Proof.Machine
end

