-- ==== Sys2Proof/Machine/ScriptText.lean ====
section
/-!
DEFINITION. The text of a host script (30_encoding.md R97, R98): lines `[label:] statement [; comment]`, read into `Line`s
(entry 21).
-/

namespace Sys2Proof.Machine

/-- A word of a script line, or one of its punctuation marks. -/
inductive Token where
  | word (cs : List Char)
  | colon
  | comma
  | openBracket
  | closeBracket
  deriving DecidableEq, Repr

/-- The word collected so far, if there is one (it is held last character first). -/
def endWord : List Char → List Token
  | [] => []
  | c :: cs => [.word (c :: cs).reverse]

/-- The tokens of a line up to its comment; `held` is the word being collected. -/
def tokensOf (held : List Char) : List Char → List Token
  | [] => endWord held
  | c :: cs =>
    if c = ';' then endWord held
    else if c = ':' then endWord held ++ .colon :: tokensOf [] cs
    else if c = ',' then endWord held ++ .comma :: tokensOf [] cs
    else if c = '[' then endWord held ++ .openBracket :: tokensOf [] cs
    else if c = ']' then endWord held ++ .closeBracket :: tokensOf [] cs
    else if c.isWhitespace then endWord held ++ tokensOf [] cs
    else tokensOf (c :: held) cs

/-- The value of a hexadecimal digit of either case: the number below 16 whose digit it is (R97). -/
def hexDigit (c : Char) : Option Nat := (List.range 16).find? fun d => Nat.digitChar d == c.toLower

/-- Hexadecimal digits, most significant first, after those that gave `n`. -/
def hexDigits (n : Nat) : List Char → Option Nat
  | [] => some n
  | c :: cs => (hexDigit c).bind fun d => hexDigits (16 * n + d) cs

/-- A value: hexadecimal with or without `0x` (R97). -/
def hexNumber : List Char → Option Nat
  | [] => none
  | ['0', 'x'] => none
  | '0' :: 'x' :: c :: cs => hexDigits 0 (c :: cs)
  | c :: cs => hexDigits 0 (c :: cs)

/-- Register names (10_state.md R20). -/
def regName : Reg → List Char
  | .cmd => ['C', 'M', 'D']
  | .status => ['S', 'T', 'A', 'T', 'U', 'S']
  | .rom => ['R', 'O', 'M']
  | .addr => ['A', 'D', 'D', 'R']
  | .esin => ['E', 'S', 'I', 'N']
  | .data => ['D', 'A', 'T', 'A']
  | .chal => ['C', 'H', 'A', 'L']
  | .secret => ['S', 'E', 'C', 'R', 'E', 'T']
  | .macin => ['M', 'A', 'C', 'I', 'N']
  | .len => ['L', 'E', 'N']
  | .blk => ['B', 'L', 'K']
  | .rta => ['R', 'T', 'A']
  | .res => ['R', 'E', 'S']
  | .rdata => ['R', 'D', 'A', 'T', 'A']
  | .page => ['P', 'A', 'G', 'E']
  | .macrd => ['M', 'A', 'C', 'R', 'D']
  | .mem => ['M', 'E', 'M']
  | .h => ['H']
  | .macout => ['M', 'A', 'C', 'O', 'U', 'T']

/-- Mnemonics (30_encoding.md R81). -/
def mnemonic : Instr → List Char
  | .digest => ['D', 'I', 'G', 'E', 'S', 'T']
  | .sermac => ['S', 'E', 'R', 'M', 'A', 'C']
  | .wspad => ['W', 'S', 'P', 'A', 'D']
  | .rspad => ['R', 'S', 'P', 'A', 'D']
  | .rfspad => ['R', 'F', 'S', 'P', 'A', 'D']
  | .cpspad => ['C', 'P', 'S', 'P', 'A', 'D']
  | .rdauth => ['R', 'D', 'A', 'U', 'T', 'H']
  | .ldsec => ['L', 'D', 'S', 'E', 'C']
  | .rdmem => ['R', 'D', 'M', 'E', 'M']
  | .rdchal => ['R', 'D', 'C', 'H', 'A', 'L']
  | .provsec => ['P', 'R', 'O', 'V', 'S', 'E', 'C']
  | .wrauth => ['W', 'R', 'A', 'U', 'T', 'H']

/-- The register with a name. -/
def regNamed (cs : List Char) : Option Reg :=
  [Reg.cmd, .status, .rom, .addr, .esin, .data, .chal, .secret, .macin, .len, .blk, .rta, .res, .rdata, .page, .macrd, .mem,
    .h, .macout].find? fun r => regName r == cs

/-- The operation with a mnemonic. -/
def operationNamed (cs : List Char) : Option Instr :=
  [Instr.digest, .sermac, .wspad, .rspad, .rfspad, .cpspad, .rdauth, .ldsec, .rdmem, .rdchal, .provsec, .wrauth].find?
    fun i => mnemonic i == cs

/-- Values to the end of the line. -/
def valuesOf : List Token → Option (List Nat)
  | [] => some []
  | .word cs :: ts =>
    match hexNumber cs, valuesOf ts with
    | some v, some vs => some (v :: vs)
    | _, _ => none
  | _ => none

/-- What follows `SET r`: `, v0 v1 ... vn`, or `[e], v` (R97). -/
def setOf (r : Reg) : List Token → Option Stmt
  | [.openBracket, .word e, .closeBracket, .comma, .word v] =>
    match hexNumber e, hexNumber v with
    | some e, some v => some (.setElement r e v)
    | _, _ => none
  | .comma :: v :: vs => (valuesOf (v :: vs)).map (.set r)
  | _ => none

/-- The statement a keyword begins, or a mnemonic alone (R97, R98). -/
def statementOf : List Token → Option Stmt
  | .word ['S', 'E', 'T'] :: .word r :: ts => (regNamed r).bind fun r => setOf r ts
  | [.word ['G', 'E', 'T'], .word r] => (regNamed r).map .get
  | [.word ['R', 'U', 'N'], .word m] => (operationNamed m).map .run
  | [.word ['J', 'E', 'R', 'R'], .word l] => some (.jerr (String.ofList l))
  | [.word ['J', 'O', 'K'], .word l] => some (.jok (String.ofList l))
  | [.word ['W', 'A', 'I', 'T']] => some .wait
  | [.word ['H', 'A', 'L', 'T']] => some .halt
  | [.word m] => (operationNamed m).map .start
  | _ => none

/-- A line: an optional label and a statement (R97). -/
def lineOf : List Token → Option Line
  | .word l :: .colon :: ts => (statementOf ts).map fun s => ⟨some (String.ofList l), s⟩
  | ts => (statementOf ts).map fun s => ⟨none, s⟩

/-- The lines of a text; `held` is the line being collected, last character first. -/
def textLines (held : List Char) : List Char → List (List Char)
  | [] => [held.reverse]
  | c :: cs => if c = '\n' then held.reverse :: textLines [] cs else textLines (c :: held) cs

/-- The lines read; a line with no token is passed over, and a line that is none of R97's makes the whole unreadable. -/
def linesOf : List (List Char) → Option (List Line)
  | [] => some []
  | l :: ls =>
    match tokensOf [] l with
    | [] => linesOf ls
    | t :: ts =>
      match lineOf (t :: ts), linesOf ls with
      | some x, some xs => some (x :: xs)
      | _, _ => none

/-- The script a text is (R97, R98), if every line of it is one. -/
def scriptOfText (text : List Char) : Option (List Line) := linesOf (textLines [] text)

end Sys2Proof.Machine
end

