-- ==== Sys2Proof/Tests/Slice0.lean ====
section
/-!
SUPPORT. Tests. `test_...` are checks of the model on values of the spec (95_test_vectors.md, or the example of the rule
named); `witness_...` are concrete states and operands that meet all hypotheses of the obligation named, or of one of its
clauses, together.
-/

namespace Sys2Proof.Tests

open Sys2Proof.Machine Sys2Proof.Safety

-- One test after another: each `decide +kernel` waits for the kernel's check of all declarations before it, and tests
-- elaborated side by side would each hold a thread while they wait.
set_option Elab.async false

/-! ### Well-formedness: each check refuses an ill-formed term -/

theorem test_wellFormed_refuses_rsv : cmdWellFormed 0x10 = false := by decide
theorem test_wellFormed_refuses_reservedCode : cmdWellFormed 0x0C = false := by decide
theorem test_wellFormed_accepts_lastCode : cmdWellFormed 0x0B = true := by decide
theorem test_wellFormed_refuses_copyCmd_0F : ({ Params.default with copyCmd := 0x0F } : Params).wf = false := by decide
theorem test_wellFormed_accepts_defaults : Params.default.wf = true := by decide
theorem test_wellFormed_refuses_undefinedLabel :
    scriptWellFormed [⟨none, .jerr "fail"⟩, ⟨some "end", .halt⟩] = false := by decide
theorem test_wellFormed_refuses_labelTwice :
    scriptWellFormed [⟨some "end", .wait⟩, ⟨some "end", .halt⟩] = false := by decide
theorem test_wellFormed_accepts_script :
    scriptWellFormed [⟨none, .run .wspad⟩, ⟨none, .jerr "end"⟩, ⟨some "end", .halt⟩] = true := by decide

/-! ### Decoding: the words of 30_encoding.md R81, RSV in bits 7:4 and OP in bits 3:0 -/

theorem test_decode_digest : decode 0b00000000 = .operation .digest := by decide
theorem test_decode_sermac : decode 0b00000001 = .operation .sermac := by decide
theorem test_decode_wspad : decode 0b00000010 = .operation .wspad := by decide
theorem test_decode_rspad : decode 0b00000011 = .operation .rspad := by decide
theorem test_decode_rfspad : decode 0b00000100 = .operation .rfspad := by decide
theorem test_decode_cpspad : decode 0b00000101 = .operation .cpspad := by decide
theorem test_decode_rdauth : decode 0b00000110 = .operation .rdauth := by decide
theorem test_decode_ldsec : decode 0b00000111 = .operation .ldsec := by decide
theorem test_decode_rdmem : decode 0b00001000 = .operation .rdmem := by decide
theorem test_decode_rdchal : decode 0b00001001 = .operation .rdchal := by decide
theorem test_decode_provsec : decode 0b00001010 = .operation .provsec := by decide
theorem test_decode_wrauth : decode 0b00001011 = .operation .wrauth := by decide
theorem test_decode_reserved : decode 0b00001111 = .reservedCode ∧ decode 0b00010010 = .reservedField := by decide
theorem test_decodeTableWord : decodeTableWord 8 0x06 = some .rdauth ∧ decodeTableWord 8 0x0C = none := by decide

/-! ### Small states -/

/-- The state a step or a meaning gives, the reset state if it gives none. -/
def after (o : Host.Outcome State Fault Refusal) : State :=
  match o with
  | .next s => s
  | .fault _ => .reset
  | .refused _ => .reset

/-- The token of 95_test_vectors.md section 2.4. -/
def tokenRom : Vector Byte 8 := #v[0x33, 0x01, 0x02, 0x03, 0x04, 0x05, 0x06, 0x00]

def oneToEight : Vector Byte 8 := #v[0x01, 0x02, 0x03, 0x04, 0x05, 0x06, 0x07, 0x08]

def deadBeef : Vector Byte 8 := #v[0xDE, 0xAD, 0xBE, 0xEF, 0x01, 0x23, 0x45, 0x67]

/-- Operands of the vectors that provision a secret. -/
def secretOps : Operands :=
  { Operands.zero with rom := tokenRom, addr := 0x0080, esin := 0x07, data := oneToEight, secret := oneToEight }

/-- Operands of the vectors that write data (95_test_vectors.md section 1.5). -/
def dataOps : Operands :=
  { Operands.zero with
    rom := tokenRom, addr := 0x0008, esin := 0x07, data := deadBeef, macin := .replicate 20 0x5A, len := 4 }

/-- The core after reset with these operands, and these answers to come. -/
def core (o : Operands) (presence : List Bool) (bytes : List Byte) : State :=
  { State.reset with operands := o, bus := { trace := [], power := false, presence := presence, bytes := bytes } }

/-- The reference MAC of 95_test_vectors.md section 1.2. -/
def knownMac : Vector Byte 20 :=
  #v[0x0D, 0x11, 0x1C, 0xE3, 0x28, 0x73, 0x35, 0x25, 0x38, 0xA4, 0x86, 0x59, 0xCD, 0x7C, 0xA5, 0xD1, 0x04, 0x3F, 0x24,
    0x1B]

/-- A page of zeros. -/
def zeroPage : Vector Byte 32 := .replicate 32 0x00

/-- The valid answer to an RDAUTH of page 0 (95_test_vectors.md section 1.3), with this status byte. -/
def pageAnswer (status : Byte) : List Byte :=
  zeroPage.toList ++ [0xFF, 0x6D, 0x0D] ++ knownMac.toList ++ [0x07, 0xF0, status]

/-- The valid read-back of `dataOps` (95_test_vectors.md section 1.5). -/
def dataReadback : List Byte := [lo 0x0008, hi 0x0008, 0x07] ++ deadBeef.toList ++ [0xD5, 0xE9]

/-- The valid read-back of `secretOps` (95_test_vectors.md section 1.3). -/
def secretReadback : List Byte := [lo 0x0080, hi 0x0080, 0x07] ++ oneToEight.toList ++ [0x1B, 0x10]

/-- The padded block of "abc" (40_mac_engine.md R120). -/
def abcBlock : Vector Word 16 := #v[0x61626380, 0, 0, 0, 0, 0, 0, 0, 0, 0, 0, 0, 0, 0, 0, 0x18]

/-! ### The MAC engine and the CRC -/

/-- 40_mac_engine.md R120, example. -/
theorem test_digest_abc :
    computeDigest abcBlock = #v[0x42541B35, 0x5738D5E1, 0x21834873, 0x681E6DF6, 0xD8FDF6AD] := by decide +kernel

/-- 40_mac_engine.md R120, example, by the engine's positions. -/
theorem test_execDigest_abc :
    (after (exec .digest (core { Operands.zero with blk := abcBlock } [] []))).results.h
      = #v[0x42541B35, 0x5738D5E1, 0x21834873, 0x681E6DF6, 0xD8FDF6AD] := by decide +kernel

/-- 95_test_vectors.md section 2.1: W[16] to W[19] and W[79] of the "abc" block. -/
theorem test_schedule_abc :
    ((schedule abcBlock).drop 16).take 4 = [0xC2C4C700, 0x00000000, 0x00000030, 0x85898E01]
      ∧ (schedule abcBlock).getD 79 0 = 0x822E0879 := by decide +kernel

/-- 95_test_vectors.md section 2.2. -/
theorem test_execSermac :
    (after (exec .sermac
        { State.reset with
          results := { Results.zero with h := #v[0x00112233, 0x44556677, 0x8899AABB, 0xCCDDEEFF, 0x01234567] } })).results.macout
      = #v[0x67, 0x45, 0x23, 0x01, 0xFF, 0xEE, 0xDD, 0xCC, 0xBB, 0xAA, 0x99, 0x88, 0x77, 0x66, 0x55, 0x44, 0x33, 0x22,
        0x11, 0x00] := by decide +kernel

/-- 95_test_vectors.md section 2.3: the check value and the empty string. -/
theorem test_crc16 : crc16 [0x31, 0x32, 0x33, 0x34, 0x35, 0x36, 0x37, 0x38, 0x39] = 0xBB3D ∧ crc16 [] = 0x0000 := by
  decide +kernel

/-- 95_test_vectors.md section 2.6. -/
theorem test_readAuthBlock :
    readAuthBlock .default oneToEight (Vector.ofFn fun i => BitVec.ofNat 8 i.val) 0x0020 tokenRom #v[0x12, 0x34, 0x56]
      = #v[0x01020304, 0x00010203, 0x04050607, 0x08090A0B, 0x0C0D0E0F, 0x10111213, 0x14151617, 0x18191A1B, 0x1C1D1E1F,
        0xFFFFFFFF, 0x41330102, 0x03040506, 0x05060708, 0x12345680, 0x00000000, 0x000001B8] := by decide +kernel

/-! ### Operations: 95_test_vectors.md sections 1.3, 1.5, 2.4, 2.7 -/

theorem test_wspad_trace :
    (after (exec .wspad (core secretOps [true] [0x38, 0xC7]))).bus.trace
      = [.rst true, .sel tokenRom, .w 0x0F, .w 0x80, .w 0x00, .w 0x01, .w 0x02, .w 0x03, .w 0x04, .w 0x05, .w 0x06, .w 0x07,
        .w 0x08, .r 0x38, .r 0xC7] := by decide +kernel

theorem test_wspad_integrity : (after (exec .wspad (core secretOps [true] [0x38, 0xC6]))).status = 0x0416 := by
  decide +kernel

theorem test_rspad_results :
    (after (exec .rspad (core secretOps [true] secretReadback))).results
      = { Results.zero with rta := 0x0080, res := 0x07, rdata := oneToEight } := by decide +kernel

theorem test_rspad_silentBus : (after (exec .rspad (core secretOps [true] (List.replicate 13 0xFF)))).status = 0x0616 := by
  decide +kernel

theorem test_rfspad_success : (after (exec .rfspad (core dataOps [true] [0xCE, 0xCC]))).status = 0x0802 := by
  decide +kernel

/-- The WSPAD CRC does not do: the command byte is covered. -/
theorem test_rfspad_coversCommand : (after (exec .rfspad (core dataOps [true] [0xF3, 0x9E]))).status = 0x0816 := by
  decide +kernel

theorem test_cpspad_trace :
    (after (exec .cpspad (core dataOps [true] [0xAA]))).bus.trace
      = [.rst true, .sel tokenRom, .w 0x55, .w 0x08, .w 0x00, .w 0x07, .pwrOn, .dly 1500] ++ List.replicate 20 (.w 0x5A)
        ++ [.pwrOn, .dly 10000, .pwrOff, .r 0xAA] := by decide +kernel

theorem test_cpspad_rejected : (after (exec .cpspad (core dataOps [true] [0x00]))).status = 0x0A26 := by decide +kernel

theorem test_rdauth_results :
    (after (exec .rdauth (core Operands.zero [true] (pageAnswer 0xAA)))).results
      = { Results.zero with page := zeroPage, macrd := knownMac } := by decide +kernel

/-- The trailer is checked before crc1 (95_test_vectors.md section 1.6). -/
theorem test_rdauth_trailerFirst :
    (after (exec .rdauth (core Operands.zero [true] (zeroPage.toList ++ [0xFE, 0x6D, 0x0D])))).status = 0x0C1E := by
  decide +kernel

theorem test_ldsec_trace :
    (after (exec .ldsec (core secretOps [true] [0xAA]))).bus.trace
      = [.rst true, .sel tokenRom, .w 0x5A, .w 0x80, .w 0x00, .w 0x07, .pwrOn, .dly 10000, .pwrOff, .r 0xAA] := by
  decide +kernel

theorem test_ldsec_rejected : (after (exec .ldsec (core secretOps [true] [0xAB]))).status = 0x0E26 := by decide +kernel

theorem test_rdmem_results :
    (after (exec .rdmem (core { dataOps with addr := 0x0000 } [true] [0x11, 0x22, 0x33, 0x44]))).results.mem
      = [(0, 0x11), (1, 0x22), (2, 0x33), (3, 0x44)] := by decide +kernel

theorem test_rdmem_tooLong :
    (after (exec .rdmem (core { dataOps with len := 0x0101 } [true] []))).status = 0x102E := by decide +kernel

theorem test_rdchal_results :
    (after (exec .rdchal (core Operands.zero [true, true] ([0xCF, 0xEB] ++ pageAnswer 0xAA)))).results
      = { Results.zero with page := zeroPage, macrd := knownMac } := by decide +kernel

theorem test_rdchal_authFailedAtStage2 :
    (after (exec .rdchal (core Operands.zero [true, true] ([0xCF, 0xEB] ++ pageAnswer 0x00)))).status = 0x12A6 := by
  decide +kernel

/-- Step 3 sends the TA the token returned (95_test_vectors.md section 2.7, row 12). -/
theorem test_provsec_usesReturnedTa :
    ((after (exec .provsec (core secretOps [true, true, true]
        ([0x38, 0xC7] ++ [0x88, 0x00, 0x07] ++ oneToEight.toList ++ [0x31, 0x70] ++ [0xAA])))).bus.trace.drop 33).take 4
      = [.w 0x5A, .w 0x88, .w 0x00, .w 0x07] := by decide +kernel

theorem test_provsec_badReadback :
    (after (exec .provsec (core secretOps [true, true]
        ([0x38, 0xC7] ++ [0x80, 0x00, 0x07] ++ oneToEight.toList ++ [0x1B, 0x11])))).status = 0x1496 := by decide +kernel

theorem test_wrauth_success :
    (after (exec .wrauth (core dataOps [true, true, true, true, true]
        ([0xF3, 0x9E] ++ dataReadback ++ [0xAA, 0xCE, 0xCC, 0xAA])))).status = 0x1602 := by decide +kernel

theorem test_wrauth_events :
    (after (exec .wrauth (core dataOps [true, true, true] ([0xF3, 0x9E] ++ dataReadback ++ [0x00])))).bus.trace.length = 63 := by
  decide +kernel

/-! ### The host: 95_test_vectors.md section 2.5 -/

theorem test_host_illegal :
    (hostWrite 0x00 0 0x0C State.reset).status = 0x182E ∧ (hostWrite 0x00 0 0x10 State.reset).status = 0x002E
      ∧ (hostWrite 0x00 0 0x12 State.reset).status = 0x042E := by decide +kernel

theorem test_host_truncates : hostRead 0x03 0 (hostWrite 0x03 0 0x12345 State.reset) = 0x2345 := by decide +kernel

theorem test_fetchWord_outcome :
    (after (step (State.reset.withFetchWord 8 0x01))).status = 0x0202 := by decide +kernel

theorem test_transportCalls :
    transportCalls [.w 0x07, .pwrOn, .dly 5, .pwrOff, .r 0xAA]
      = [.writeByte 0x07 true, .releasePower, .readByte 0xAA] := by decide

/-- A script that starts SERMAC and skips to its end. -/
theorem test_script :
    (after (runScript (fun _ => 0) 10
        [⟨none, .run .sermac⟩, ⟨none, .jok "end"⟩, ⟨none, .set .addr [5]⟩, ⟨some "end", .get .macout⟩] 9 0 0
        State.reset)).operands.addr = 0x0000 := by decide +kernel

/-- SERMAC started and its STATUS read twice, with a move of the core before each access. -/
theorem test_script_pace :
    (after (runScript (fun _ => 1) 10 [⟨none, .start .sermac⟩, ⟨none, .get .status⟩, ⟨none, .get .status⟩] 9 0 0
        State.reset)).reads = [0x0201, 0x0202] := by decide +kernel

/-- With two steps for a line, a `RUN` is still in its `WAIT` loop: the line after it is not begun. -/
theorem test_script_stopsInWait :
    (after (runScript (fun _ => 0) 2 [⟨none, .run .sermac⟩, ⟨none, .set .addr [5]⟩] 9 0 0 State.reset)).inputs = [.wait]
      ∧ (after (runScript (fun _ => 0) 2 [⟨none, .run .sermac⟩, ⟨none, .set .addr [5]⟩] 9 0 0
          State.reset)).operands.addr = 0x0000 := by decide +kernel

/-- Lines of the forms of 30_encoding.md R97, as in programs P2 and P5 of 95_test_vectors.md. -/
theorem test_scriptText :
    scriptOfText "SET CHAL, 12 34 0x56 ; nonce\n\n RUN PROVSEC\n JERR fail\nSET DATA[7], ff\nfail: GET STATUS\nHALT".toList
      = some [⟨none, .set .chal [0x12, 0x34, 0x56]⟩, ⟨none, .run .provsec⟩, ⟨none, .jerr "fail"⟩,
          ⟨none, .setElement .data 7 0xFF⟩, ⟨some "fail", .get .status⟩, ⟨none, .halt⟩] := by decide +kernel

theorem test_scriptText_refuses : scriptOfText "SET ADDR, 12G4".toList = none := by decide +kernel

/-! ### Witnesses: decoding and starting -/

theorem witness_StepRunsTheDecodedOperation :
    ({ State.reset with inputs := [.run 0x0B] } : State).inputs = .run 0x0B :: []
      ∧ busy ({ State.reset with inputs := [.run 0x0B] } : State).status = false
      ∧ decode 0x0B = .operation .wrauth := by decide

/-- The lowest reserved code and the lowest byte with RSV not 0, one by each kind of access. -/
theorem witness_ReservedCommandsAreRefused :
    (({ State.reset with inputs := [.run 0x0C] } : State).inputs = .run 0x0C :: [] ∧ busy State.reset.status = false
        ∧ decode 0x0C = .reservedCode)
      ∧ ({ State.reset with inputs := [.write 0x00 0 0x10] } : State).inputs
          = .write 0x00 0 (0x10 : Byte).toNat :: []
        ∧ decode 0x10 = .reservedField := by decide

/-- RDMEM with LEN = P_MEMBUF. -/
theorem witness_CommandWriteStartsOperation :
    busy (core { dataOps with len := 0x0100 } [] []).status = false
      ∧ (core { dataOps with len := 0x0100 } [] []).startRefused .rdmem = false := by decide

theorem witness_CommandWriteWhileBusyHasNoEffect : busy (State.reset.start .rdauth).status = true := by decide

/-- The last CMD byte of an operation, the first beyond it, and RDMEM with LEN = P_MEMBUF + 1. -/
theorem witness_IllegalOpExactlyAtRefusedStarts :
    busy (core { dataOps with len := 0x0101 } [] []).status = false
      ∧ kindField (hostWrite 0x00 0 0x0B State.reset).status = 0 ∧ kindField (hostWrite 0x00 0 0x0C State.reset).status = 5
      ∧ kindField (hostWrite 0x00 0 0x08 (core { dataOps with len := 0x0101 } [] [])).status = 5
      ∧ kindField (hostWrite 0x00 0 0x08 (core { dataOps with len := 0x0100 } [] [])).status = 0 := by decide +kernel

/-- The hypothesis "no operation runs" of DigestWritesComputeDigest, SermacWritesSerializedH, EveryOperationCompletes. -/
theorem witness_NoOperationRuns : busy State.reset.status = false ∧ busy (core dataOps [true] [0xAA]).status = false := by
  decide

/-! ### Witnesses: the CRC and the schedule -/

/-- The two clauses of ScheduleRecurrence at the indices where they meet, and at the last. -/
theorem witness_ScheduleRecurrence :
    (schedule abcBlock)[15]? = some 0x18 ∧ (schedule abcBlock)[16]? = some 0xC2C4C700
      ∧ (schedule abcBlock)[79]? = some 0x822E0879 := by decide +kernel

theorem witness_CrcDetectsEverySingleBitError :
    crc16Ok ([0x0F, 0x80, 0x00] ++ oneToEight.toList) 0x38 0xC7 = true
      ∧ oneBitApart (([0x0F, 0x80, 0x00] ++ oneToEight.toList) ++ [0x38, 0xC7])
          (([0x0F, 0x80, 0x00] ++ oneToEight.toList) ++ [0x38, 0xC6]) :=
  ⟨by decide +kernel, ([0x0F, 0x80, 0x00] ++ oneToEight.toList) ++ [0x38], [], 0xC7, 0, by decide +kernel,
    by decide +kernel⟩

theorem witness_EveryHoldIsCarriedByAWrite :
    holdsFollowWrites false [.rst true, .sel tokenRom, .w 0x07, .pwrOn, .dly 5, .pwrOff, .r 0xAA] = true := by decide

/-! ### Witnesses: bus primitives -/

theorem witness_WspadSucceeds :
    busy (core secretOps [true] [0x38, 0xC7]).status = false
      ∧ (core secretOps [true] [0x38, 0xC7]).bus.presence = true :: []
      ∧ (core secretOps [true] [0x38, 0xC7]).bus.bytes = [0x38, 0xC7] ++ []
      ∧ scratchpadCrcOk Params.default 0x0F secretOps.addr secretOps.data 0x38 0xC7 = true := by decide +kernel

theorem witness_RfspadSucceeds :
    busy (core dataOps [true] [0xCE, 0xCC]).status = false
      ∧ (core dataOps [true] [0xCE, 0xCC]).bus.presence = true :: []
      ∧ (core dataOps [true] [0xCE, 0xCC]).bus.bytes = [0xCE, 0xCC] ++ []
      ∧ scratchpadCrcOk Params.default 0xA3 dataOps.addr dataOps.data 0xCE 0xCC = true := by decide +kernel

theorem witness_RspadSucceeds :
    busy (core secretOps [true] secretReadback).status = false
      ∧ (core secretOps [true] secretReadback).bus.presence = true :: []
      ∧ (core secretOps [true] secretReadback).bus.bytes
          = [lo 0x0080, hi 0x0080, 0x07] ++ oneToEight.toList ++ [0x1B, 0x10] ++ []
      ∧ readbackCrcOk Params.default 0x0080 0x07 oneToEight 0x1B 0x10 = true := by decide +kernel

/-- CpspadSucceeds and LdsecSucceeds. -/
theorem witness_CpspadSucceeds :
    busy (core dataOps [true] [0xAA]).status = false ∧ (core dataOps [true] [0xAA]).bus.presence = true :: []
      ∧ (core dataOps [true] [0xAA]).bus.bytes = 0xAA :: [] := by decide

/-- CpspadRejected and LdsecRejected, with a status one bit from 0xAA. -/
theorem witness_CpspadRejected :
    busy (core dataOps [true] [0xAB]).status = false ∧ (core dataOps [true] [0xAB]).bus.presence = true :: []
      ∧ (core dataOps [true] [0xAB]).bus.bytes = 0xAB :: [] ∧ (0xAB : Byte) ≠ 0xAA := by decide

theorem witness_RdauthSucceeds :
    busy (core Operands.zero [true] (pageAnswer 0xAA)).status = false
      ∧ (core Operands.zero [true] (pageAnswer 0xAA)).bus.presence = true :: []
      ∧ (core Operands.zero [true] (pageAnswer 0xAA)).bus.bytes
          = zeroPage.toList ++ [0xFF, 0x6D, 0x0D] ++ knownMac.toList ++ [0x07, 0xF0, 0xAA] ++ []
      ∧ pageCrcOk Params.default Operands.zero.addr zeroPage 0xFF 0x6D 0x0D = true
      ∧ crcOk Params.default knownMac.toList 0x07 0xF0 = true := by decide +kernel

/-- LEN = 0. -/
theorem witness_RdmemSucceeds :
    busy (core Operands.zero [true] []).status = false ∧ Memory.wf (core Operands.zero [true] []).results.mem
      ∧ (core Operands.zero [true] []).operands.len.toNat ≤ (core Operands.zero [true] []).params.membuf
      ∧ (core Operands.zero [true] []).bus.presence = true :: []
      ∧ (core Operands.zero [true] []).bus.bytes = [] ++ []
      ∧ ([] : List Byte).length = (core Operands.zero [true] []).operands.len.toNat := by decide

/-- RDMEM of the whole buffer: LEN = P_MEMBUF. -/
def wholeBuffer : State := core { Operands.zero with len := 0x0100 } [true] (List.replicate 256 0x11)

theorem witness_RdmemSucceeds_wholeBuffer :
    busy wholeBuffer.status = false ∧ Memory.wf wholeBuffer.results.mem
      ∧ wholeBuffer.operands.len.toNat ≤ wholeBuffer.params.membuf ∧ wholeBuffer.bus.presence = true :: []
      ∧ wholeBuffer.bus.bytes = List.replicate 256 0x11 ++ []
      ∧ (List.replicate 256 (0x11 : Byte)).length = wholeBuffer.operands.len.toNat := by decide +kernel

theorem witness_RdmemTooLongIsRefused :
    busy (core { dataOps with len := 0x0101 } [] []).status = false
      ∧ (core { dataOps with len := 0x0101 } [] []).params.membuf
          < (core { dataOps with len := 0x0101 } [] []).operands.len.toNat := by decide

/-- A primitive and a composite. -/
theorem witness_NoDeviceEndsEveryBusOperation :
    usesBus .rdmem = true ∧ usesBus .wrauth = true ∧ busy (core dataOps [false] []).status = false
      ∧ (core dataOps [false] []).startRefused .rdmem = false ∧ (core dataOps [false] []).startRefused .wrauth = false
      ∧ (core dataOps [false] []).bus.presence = false :: [] := by decide

/-- The first two clauses: CRC bytes one bit from WSPAD's. -/
theorem witness_BadCrcFailsScratchpadCommands :
    busy (core secretOps [true] [0x38, 0xC6]).status = false
      ∧ (core secretOps [true] [0x38, 0xC6]).bus.presence = true :: []
      ∧ (core secretOps [true] [0x38, 0xC6]).bus.bytes = [0x38, 0xC6] ++ []
      ∧ scratchpadCrcOk Params.default 0x0F secretOps.addr secretOps.data 0x38 0xC6 = false
      ∧ scratchpadCrcOk Params.default 0xA3 secretOps.addr secretOps.data 0x38 0xC6 = false := by decide +kernel

/-- The read-back of `secretOps` with a CRC wrong in one bit. -/
def badReadback : List Byte := [lo 0x0080, hi 0x0080, 0x07] ++ oneToEight.toList ++ [0x1B, 0x11]

/-- The third clause. -/
theorem witness_BadCrcFailsScratchpadCommands_rspad :
    busy (core secretOps [true] badReadback).status = false
      ∧ (core secretOps [true] badReadback).bus.presence = true :: []
      ∧ (core secretOps [true] badReadback).bus.bytes
          = [lo 0x0080, hi 0x0080, 0x07] ++ oneToEight.toList ++ [0x1B, 0x11] ++ []
      ∧ readbackCrcOk Params.default 0x0080 0x07 oneToEight 0x1B 0x11 = false := by decide +kernel

/-- A trailer one bit from 0xFF, and the right trailer with a wrong first CRC (95_test_vectors.md section 1.6). -/
theorem witness_RdauthFirstPartFailures :
    (core Operands.zero [true] (zeroPage.toList ++ [0xFE, 0xAC, 0xCD])).bus.bytes
        = zeroPage.toList ++ [0xFE, 0xAC, 0xCD] ++ []
      ∧ busy (core Operands.zero [true] []).status = false
      ∧ (core Operands.zero [true] []).bus.presence = true :: [] ∧ (0xFE : Byte) ≠ 0xFF
      ∧ pageCrcOk Params.default Operands.zero.addr zeroPage 0xFF 0xAC 0xCD = false := by decide +kernel

/-- The answer to an RDAUTH of page 0 up to a second CRC that is wrong in one bit. -/
def badMacCrcAnswer : List Byte := zeroPage.toList ++ [0xFF, 0x6D, 0x0D] ++ knownMac.toList ++ [0x07, 0xF1]

/-- A second CRC that is wrong in one bit with no status to come, and a status one bit from 0xAA. -/
theorem witness_RdauthSecondPartFailures :
    (core Operands.zero [true] badMacCrcAnswer).bus.bytes
        = zeroPage.toList ++ [0xFF, 0x6D, 0x0D] ++ knownMac.toList ++ [0x07, 0xF1] ++ []
      ∧ (core Operands.zero [true] (pageAnswer 0xAB)).bus.bytes
        = zeroPage.toList ++ [0xFF, 0x6D, 0x0D] ++ knownMac.toList ++ [0x07, 0xF0] ++ 0xAB :: []
      ∧ busy (core Operands.zero [true] badMacCrcAnswer).status = false
      ∧ (core Operands.zero [true] badMacCrcAnswer).bus.presence = true :: []
      ∧ pageCrcOk Params.default Operands.zero.addr zeroPage 0xFF 0x6D 0x0D = true
      ∧ crcOk Params.default knownMac.toList 0x07 0xF1 = false
      ∧ crcOk Params.default knownMac.toList 0x07 0xF0 = true ∧ (0xAB : Byte) ≠ 0xAA := by decide +kernel

/-! ### Witnesses: composites -/

/-- The challenge buffer of the all-zero challenge. -/
def zeroBuffer : Vector Byte 8 := .replicate 8 0x00

theorem witness_RdchalSucceeds :
    zeroBuffer.toList = [0x00, 0x00, 0x00, 0x00] ++ Operands.zero.chal.toList ++ [0x00]
      ∧ busy (core Operands.zero [true, true] ([0xCF, 0xEB] ++ pageAnswer 0xAA)).status = false
      ∧ (core Operands.zero [true, true] ([0xCF, 0xEB] ++ pageAnswer 0xAA)).bus.presence = true :: true :: []
      ∧ (core Operands.zero [true, true] ([0xCF, 0xEB] ++ pageAnswer 0xAA)).bus.bytes
          = [0xCF, 0xEB] ++ zeroPage.toList ++ [0xFF, 0x6D, 0x0D] ++ knownMac.toList ++ [0x07, 0xF0, 0xAA] ++ []
      ∧ scratchpadCrcOk Params.default 0x0F Operands.zero.addr zeroBuffer 0xCF 0xEB = true
      ∧ pageCrcOk Params.default Operands.zero.addr zeroPage 0xFF 0x6D 0x0D = true
      ∧ crcOk Params.default knownMac.toList 0x07 0xF0 = true := by decide +kernel

/-- The six clauses: step 1 with a CRC wrong in one bit; no device at step 2; a trailer one bit from 0xFF; a wrong crc1; a
crc2 wrong in one bit; a status one bit from 0xAA. -/
theorem witness_RdchalFailsAtItsStage :
    zeroBuffer.toList = [0x00, 0x00, 0x00, 0x00] ++ Operands.zero.chal.toList ++ [0x00]
      ∧ busy (core Operands.zero [true] [0xCF, 0xEA]).status = false
      ∧ scratchpadCrcOk Params.default 0x0F Operands.zero.addr zeroBuffer 0xCF 0xEA = false
      ∧ (core Operands.zero [true, false] [0xCF, 0xEB]).bus.presence = true :: false :: []
      ∧ (core Operands.zero [true, false] [0xCF, 0xEB]).bus.bytes = [0xCF, 0xEB] ++ []
      ∧ scratchpadCrcOk Params.default 0x0F Operands.zero.addr zeroBuffer 0xCF 0xEB = true
      ∧ (core Operands.zero [true, true] ([0xCF, 0xEB] ++ zeroPage.toList ++ [0xFE, 0xAC, 0xCD])).bus.bytes
          = [0xCF, 0xEB] ++ zeroPage.toList ++ [0xFE, 0xAC, 0xCD] ++ []
      ∧ (0xFE : Byte) ≠ 0xFF
      ∧ pageCrcOk Params.default Operands.zero.addr zeroPage 0xFF 0xAC 0xCD = false
      ∧ (core Operands.zero [true, true] ([0xCF, 0xEB] ++ badMacCrcAnswer)).bus.bytes
          = [0xCF, 0xEB] ++ zeroPage.toList ++ [0xFF, 0x6D, 0x0D] ++ knownMac.toList ++ [0x07, 0xF1] ++ []
      ∧ pageCrcOk Params.default Operands.zero.addr zeroPage 0xFF 0x6D 0x0D = true
      ∧ crcOk Params.default knownMac.toList 0x07 0xF1 = false
      ∧ (core Operands.zero [true, true] ([0xCF, 0xEB] ++ pageAnswer 0xAB)).bus.bytes
          = [0xCF, 0xEB] ++ zeroPage.toList ++ [0xFF, 0x6D, 0x0D] ++ knownMac.toList ++ [0x07, 0xF0] ++ 0xAB :: []
      ∧ crcOk Params.default knownMac.toList 0x07 0xF0 = true ∧ (0xAB : Byte) ≠ 0xAA := by decide +kernel

/-- ProvsecSucceeds, and the second clause of ProvsecFailsAtStage3 with a status one bit from 0xAA. -/
theorem witness_ProvsecSucceeds :
    busy (core secretOps [true, true, true] ([0x38, 0xC7] ++ secretReadback ++ [0xAA])).status = false
      ∧ (core secretOps [true, true, true] ([0x38, 0xC7] ++ secretReadback ++ [0xAA])).bus.presence
          = true :: true :: true :: []
      ∧ (core secretOps [true, true, true] ([0x38, 0xC7] ++ secretReadback ++ [0xAA])).bus.bytes
          = [0x38, 0xC7] ++ ([lo 0x0080, hi 0x0080, 0x07] ++ oneToEight.toList ++ [0x1B, 0x10]) ++ 0xAA :: []
      ∧ scratchpadCrcOk Params.default 0x0F 0x0080 secretOps.secret 0x38 0xC7 = true
      ∧ readbackCrcOk Params.default 0x0080 0x07 oneToEight 0x1B 0x10 = true ∧ (0xAB : Byte) ≠ 0xAA := by decide +kernel

/-- The first clause; rows 10 and 11 of 95_test_vectors.md section 2.7 are the two clauses. -/
theorem witness_ProvsecFailsAtStage3 :
    busy (core secretOps [true, true, false] ([0x38, 0xC7] ++ secretReadback)).status = false
      ∧ (core secretOps [true, true, false] ([0x38, 0xC7] ++ secretReadback)).bus.presence = true :: true :: false :: []
      ∧ (core secretOps [true, true, false] ([0x38, 0xC7] ++ secretReadback)).bus.bytes
          = [0x38, 0xC7] ++ ([lo 0x0080, hi 0x0080, 0x07] ++ oneToEight.toList ++ [0x1B, 0x10]) ++ []
      ∧ scratchpadCrcOk Params.default 0x0F 0x0080 secretOps.secret 0x38 0xC7 = true
      ∧ readbackCrcOk Params.default 0x0080 0x07 oneToEight 0x1B 0x10 = true := by decide +kernel

/-- The three clauses: a CRC of step 1 wrong in one bit, no device at step 2, a read-back CRC wrong in one bit. -/
theorem witness_ProvsecFailsAtStages1And2 :
    busy (core secretOps [true] [0x38, 0xC6]).status = false
      ∧ (core secretOps [true] [0x38, 0xC6]).bus.presence = true :: []
      ∧ (core secretOps [true] [0x38, 0xC6]).bus.bytes = [0x38, 0xC6] ++ []
      ∧ scratchpadCrcOk Params.default 0x0F 0x0080 secretOps.secret 0x38 0xC6 = false
      ∧ (core secretOps [true, false] [0x38, 0xC7]).bus.presence = true :: false :: []
      ∧ (core secretOps [true, false] [0x38, 0xC7]).bus.bytes = [0x38, 0xC7] ++ []
      ∧ (core secretOps [true, true] ([0x38, 0xC7] ++ badReadback)).bus.presence = true :: true :: []
      ∧ (core secretOps [true, true] ([0x38, 0xC7] ++ badReadback)).bus.bytes
          = [0x38, 0xC7] ++ ([lo 0x0080, hi 0x0080, 0x07] ++ oneToEight.toList ++ [0x1B, 0x11]) ++ []
      ∧ scratchpadCrcOk Params.default 0x0F 0x0080 secretOps.secret 0x38 0xC7 = true
      ∧ readbackCrcOk Params.default 0x0080 0x07 oneToEight 0x1B 0x11 = false := by decide +kernel

theorem witness_WrauthSucceeds :
    busy (core dataOps [true, true, true, true, true] ([0xF3, 0x9E] ++ dataReadback ++ [0xAA, 0xCE, 0xCC, 0xAA])).status
        = false
      ∧ (core dataOps [true, true, true, true, true] ([0xF3, 0x9E] ++ dataReadback ++ [0xAA, 0xCE, 0xCC, 0xAA])).bus.bytes
          = [0xF3, 0x9E] ++ ([lo 0x0008, hi 0x0008, 0x07] ++ deadBeef.toList ++ [0xD5, 0xE9]) ++ [0xAA] ++ [0xCE, 0xCC]
            ++ [0xAA] ++ []
      ∧ scratchpadCrcOk Params.default 0x0F dataOps.addr dataOps.data 0xF3 0x9E = true
      ∧ readbackCrcOk Params.default 0x0008 0x07 deadBeef 0xD5 0xE9 = true
      ∧ scratchpadCrcOk Params.default 0xA3 dataOps.addr dataOps.data 0xCE 0xCC = true := by decide +kernel

/-- The read-back of `dataOps` with a CRC wrong in one bit. -/
def badDataReadback : List Byte := [lo 0x0008, hi 0x0008, 0x07] ++ deadBeef.toList ++ [0xD5, 0xE8]

/-- The five clauses: a CRC of step 1 wrong in one bit, no device at step 2, a read-back CRC wrong in one bit, no device at
step 3, a status one bit from 0xAA. -/
theorem witness_WrauthFailsAtStages1To3 :
    (core dataOps [true] [0xF3, 0x9F]).bus.presence = true :: []
      ∧ busy (core dataOps [true] [0xF3, 0x9F]).status = false
      ∧ (core dataOps [true] [0xF3, 0x9F]).bus.bytes = [0xF3, 0x9F] ++ []
      ∧ scratchpadCrcOk Params.default 0x0F dataOps.addr dataOps.data 0xF3 0x9F = false
      ∧ (core dataOps [true, false] [0xF3, 0x9E]).bus.presence = true :: false :: []
      ∧ (core dataOps [true, false] [0xF3, 0x9E]).bus.bytes = [0xF3, 0x9E] ++ []
      ∧ (core dataOps [true, true] ([0xF3, 0x9E] ++ badDataReadback)).bus.presence = true :: true :: []
      ∧ (core dataOps [true, true] ([0xF3, 0x9E] ++ badDataReadback)).bus.bytes
          = [0xF3, 0x9E] ++ ([lo 0x0008, hi 0x0008, 0x07] ++ deadBeef.toList ++ [0xD5, 0xE8]) ++ []
      ∧ readbackCrcOk Params.default 0x0008 0x07 deadBeef 0xD5 0xE8 = false
      ∧ (core dataOps [true, true, false] ([0xF3, 0x9E] ++ dataReadback)).bus.presence = true :: true :: false :: []
      ∧ (core dataOps [true, true, false] ([0xF3, 0x9E] ++ dataReadback)).bus.bytes
          = [0xF3, 0x9E] ++ ([lo 0x0008, hi 0x0008, 0x07] ++ deadBeef.toList ++ [0xD5, 0xE9]) ++ []
      ∧ (core dataOps [true, true, true] ([0xF3, 0x9E] ++ dataReadback ++ [0xAB])).bus.presence = true :: true :: true :: []
      ∧ (core dataOps [true, true, true] ([0xF3, 0x9E] ++ dataReadback ++ [0xAB])).bus.bytes
          = [0xF3, 0x9E] ++ ([lo 0x0008, hi 0x0008, 0x07] ++ deadBeef.toList ++ [0xD5, 0xE9]) ++ 0xAB :: []
      ∧ scratchpadCrcOk Params.default 0x0F dataOps.addr dataOps.data 0xF3 0x9E = true
      ∧ readbackCrcOk Params.default 0x0008 0x07 deadBeef 0xD5 0xE9 = true ∧ (0xAB : Byte) ≠ 0xAA := by decide +kernel

/-- The answers of WRAUTH's first three steps, all good. -/
def threeGoodSteps : List Byte := [0xF3, 0x9E] ++ dataReadback ++ [0xAA]

/-- The four clauses: no device at step 4, a refresh CRC wrong in one bit, no device at step 5, a status one bit from 0xAA. -/
theorem witness_WrauthFailsAtStages4And5 :
    (core dataOps [true, true, true, false] threeGoodSteps).bus.presence = true :: true :: true :: false :: []
      ∧ busy (core dataOps [true, true, true, false] threeGoodSteps).status = false
      ∧ (core dataOps [true, true, true, false] threeGoodSteps).bus.bytes
          = [0xF3, 0x9E] ++ ([lo 0x0008, hi 0x0008, 0x07] ++ deadBeef.toList ++ [0xD5, 0xE9]) ++ [0xAA] ++ []
      ∧ (core dataOps [true, true, true, true] (threeGoodSteps ++ [0xCE, 0xCD])).bus.bytes
          = [0xF3, 0x9E] ++ ([lo 0x0008, hi 0x0008, 0x07] ++ deadBeef.toList ++ [0xD5, 0xE9]) ++ [0xAA] ++ [0xCE, 0xCD] ++ []
      ∧ scratchpadCrcOk Params.default 0xA3 dataOps.addr dataOps.data 0xCE 0xCD = false
      ∧ (core dataOps [true, true, true, true, false] (threeGoodSteps ++ [0xCE, 0xCC])).bus.presence
          = true :: true :: true :: true :: false :: []
      ∧ (core dataOps [true, true, true, true, false] (threeGoodSteps ++ [0xCE, 0xCC])).bus.bytes
          = [0xF3, 0x9E] ++ ([lo 0x0008, hi 0x0008, 0x07] ++ deadBeef.toList ++ [0xD5, 0xE9]) ++ [0xAA] ++ [0xCE, 0xCC] ++ []
      ∧ (core dataOps [true, true, true, true, true] (threeGoodSteps ++ [0xCE, 0xCC, 0xAB])).bus.bytes
          = [0xF3, 0x9E] ++ ([lo 0x0008, hi 0x0008, 0x07] ++ deadBeef.toList ++ [0xD5, 0xE9]) ++ [0xAA] ++ [0xCE, 0xCC]
            ++ 0xAB :: []
      ∧ scratchpadCrcOk Params.default 0x0F dataOps.addr dataOps.data 0xF3 0x9E = true
      ∧ readbackCrcOk Params.default 0x0008 0x07 deadBeef 0xD5 0xE9 = true
      ∧ scratchpadCrcOk Params.default 0xA3 dataOps.addr dataOps.data 0xCE 0xCC = true ∧ (0xAB : Byte) ≠ 0xAA := by
  decide +kernel

/-! ### Witnesses: every operation -/

theorem witness_FailureLeavesEveryRegister :
    ∃ t, busy (core dataOps [false] []).status = false ∧ exec .wspad (core dataOps [false] []) = .next t
      ∧ err t.status = true :=
  ⟨_, by decide, rfl, by decide +kernel⟩

/-- An operation for which every clause of ResultRegistersHaveTheirWriters speaks, and one of each writer. -/
theorem witness_ResultRegistersHaveTheirWriters :
    ∃ t, exec .wspad (core secretOps [true] [0x38, 0xC7]) = .next t ∧ err t.status = false := ⟨_, rfl, by decide +kernel⟩

theorem witness_OnlyProvsecSendsTheSecret :
    ∃ t t', Instr.wspad ≠ .provsec ∧ exec .wspad (core secretOps [true] [0x38, 0xC7]) = .next t
      ∧ exec .wspad
          { core secretOps [true] [0x38, 0xC7] with
            operands := { (core secretOps [true] [0x38, 0xC7]).operands with secret := deadBeef } } = .next t' :=
  ⟨_, _, by decide, rfl, rfl⟩

theorem witness_HoldsFollowWrites :
    ∃ t, exec .cpspad (core dataOps [true] [0xAA]) = .next t
      ∧ holdsFollowWrites false (core dataOps [true] [0xAA]).bus.trace = true := ⟨_, rfl, by decide⟩

/-! ### Witnesses: one position at a time -/

/-- StartThenTicksIsExec and RunStatementIsExec, at the least number of moves. -/
theorem witness_StartThenTicksIsExec :
    busy (core dataOps [true] [0xAA]).status = false ∧ (core dataOps [true] [0xAA]).fsm = .idle
      ∧ (programOf .cpspad Params.default { operands := dataOps, h := Results.zero.h }).length ≤ 34 := by decide +kernel

/-- SERMAC at its last position. -/
def sermacEnding : State :=
  { State.reset.start .sermac with
    fsm := .run .sermac 1, pending := { Pending.empty with macout := .replicate 20 0x01 } }

/-- A move after which SERMAC runs on, and the move that ends it. -/
theorem witness_HostWritesDoNotTouchTheRunningOperation :
    (∃ t, coreTick (State.reset.start .sermac) = .next t ∧ busy (State.reset.start .sermac).status = true
        ∧ busy t.status = true)
      ∧ (∃ t, coreTick sermacEnding = .next t ∧ busy sermacEnding.status = true ∧ busy t.status = false)
      ∧ (0x05 : BitVec 8) ≠ 0x00 :=
  ⟨⟨_, rfl, by decide, by decide +kernel⟩, ⟨_, rfl, by decide, by decide +kernel⟩, by decide⟩

/-- A `WAIT` on a running SERMAC: with two steps the run stops in the loop, with three it goes on. -/
theorem witness_ScriptLeavesWaitOnlyAtBusyZero :
    (State.reset.start .sermac).inputs = [] ∧ ([⟨none, .wait⟩] : List Line)[0]? = some ⟨none, .wait⟩
      ∧ (∃ t, runScript (fun _ => 0) 2 [⟨none, .wait⟩] 2 0 0 (State.reset.start .sermac) = .next t ∧ t.inputs ≠ [])
      ∧ (∃ t, runScript (fun _ => 0) 3 [⟨none, .wait⟩] 2 0 0 (State.reset.start .sermac) = .next t ∧ t.inputs = []) :=
  ⟨rfl, rfl, ⟨_, rfl, by decide +kernel⟩, ⟨_, rfl, by decide +kernel⟩⟩

theorem witness_ResultsChangeOnlyAtSuccess :
    ∃ t, coreTick sermacEnding = .next t ∧ t.results ≠ sermacEnding.results := ⟨_, rfl, by decide +kernel⟩

theorem witness_IdleCoreDoesNothing : (core dataOps [true] [0xAA]).fsm = .idle := by decide

/-! ### Witnesses: the host's accesses -/

/-- The last element of an array register, and a register of one element; the second clause with the next element. -/
theorem witness_OperandRegistersReadBack :
    (regReadWrite .blk = true ∧ 15 < regCount Params.default .blk) ∧ regReadWrite .addr = true
      ∧ 0 < regCount Params.default .addr ∧ (Reg.blk, 14) ≠ (Reg.blk, 15) := by decide

/-- The first clause: a read-only register, the unassigned index 0x0B, and the first element beyond DATA. -/
theorem witness_HostAccessRules_writes :
    (∀ r, regAt 0x01 = some r → r ≠ .cmd ∧ regReadWrite r = false ∨ regCount Params.default r ≤ 0)
      ∧ (∀ r, regAt 0x0B = some r → r ≠ .cmd ∧ regReadWrite r = false ∨ regCount Params.default r ≤ 0)
      ∧ (∀ r, regAt 0x05 = some r → r ≠ .cmd ∧ regReadWrite r = false ∨ regCount Params.default r ≤ 8) :=
  ⟨fun _ h => by cases h; decide, nofun, fun _ h => by cases h; decide⟩

/-- The second clause: CMD, an unassigned index, and the first element beyond MEM. -/
theorem witness_HostAccessRules_reads :
    (∀ r, regAt 0x00 = some r → r = .cmd ∨ regCount Params.default r ≤ 0)
      ∧ (∀ r, regAt 0xFF = some r → r = .cmd ∨ regCount Params.default r ≤ 0)
      ∧ (∀ r, regAt 0x15 = some r → r = .cmd ∨ regCount Params.default r ≤ 256) :=
  ⟨fun _ h => by cases h; decide, nofun, fun _ h => by cases h; decide⟩

/-- The third clause. -/
theorem witness_HostAccessRules_width : regAt 0x03 = some .addr ∧ regAt 0x00 = some .cmd := by decide

theorem witness_HostReadsHaveNoSideEffects :
    ({ State.reset with inputs := [.read 0x01 0] } : State).inputs = .read 0x01 0 :: [] := rfl

/-- A failure's record, and a host that reads, or that does nothing. -/
theorem witness_StatusStaysUntilNextStart :
    ∃ t, ({ State.reset.refuseStart 0x0C with inputs := [.read 0x01 0] } : State).fsm = .idle
      ∧ busy ({ State.reset.refuseStart 0x0C with inputs := [.read 0x01 0] } : State).status = false
      ∧ step { State.reset.refuseStart 0x0C with inputs := [.read 0x01 0] } = .next t
      ∧ ∀ a ∈ ({ State.reset.refuseStart 0x0C with inputs := [.read 0x01 0] } : State).inputs.head?,
          isCommandWrite a = false ∧ a ≠ .reset :=
  ⟨_, rfl, by decide +kernel, rfl, fun _ h => by cases h; decide⟩

/-- With a hold active, and without. -/
theorem witness_ResetAccess :
    (({ State.reset.start .cpspad with
        inputs := [.reset], bus := { trace := [.w 0x07, .pwrOn], power := true, presence := [], bytes := [] } } : State).inputs
        = .reset :: [])
      ∧ ({ State.reset with inputs := [.reset] } : State).inputs = .reset :: [] := by decide

/-! ### Witnesses: the whole machine -/

/-- A running operation, for the statements about states of the invariant, with the step it takes. -/
theorem witness_CoreInv_running : CoreInv (State.reset.start .sermac) :=
  ⟨rfl, ⟨.nil, nofun⟩, nofun, rfl, by decide, rfl, nofun⟩

/-- A completed one, with ERR = 1. -/
theorem witness_CoreInv_failed :
    CoreInv (State.reset.refuseStart 0x0C) ∧ err (State.reset.refuseStart 0x0C).status = true :=
  ⟨⟨rfl, ⟨.nil, nofun⟩, nofun, .inr (.inr (.inr ⟨0xC, by decide +kernel⟩)), rfl, rfl⟩, by decide +kernel⟩

theorem witness_StepKeepsInvariant :
    ∃ t, CoreInv (State.reset.start .sermac) ∧ step (State.reset.start .sermac) = .next t :=
  ⟨_, witness_CoreInv_running, rfl⟩

theorem witness_TraceOnlyGrows :
    ∃ t, step { core dataOps [true] [0xAA] with inputs := [.run 0x05] } = .next t ∧ t.bus.trace.length = 32 :=
  ⟨_, rfl, by decide +kernel⟩

end Sys2Proof.Tests
end

section
/-!
PROOFS. The host's accesses outside the register file (10_state.md R26): what HostRead and HostWrite do at an element at or
beyond the element count, at a register the host may not write, and with a value wider than the register.
-/

namespace Sys2Proof.Machine

/-! ### Elements of the host's view -/

theorem elementOr0_of_le {n w e : Nat} (v : Vector (BitVec w) n) (h : n ≤ e) : elementOr0 v e = 0 := by
  simp [elementOr0, Vector.getElem?_eq_none h]

theorem scalarOr0_of_le {w e : Nat} (v : BitVec w) (h : 1 ≤ e) : scalarOr0 v e = 0 :=
  if_neg (by omega)

theorem setElement_of_le {n w e : Nat} (r : Vector (BitVec w) n) (v : Nat) (h : n ≤ e) : setElement r e v = r :=
  Vector.setIfInBounds_eq_of_size_le h

theorem setScalar_of_le {w e : Nat} (r : BitVec w) (v : Nat) (h : 1 ≤ e) : setScalar r e v = r :=
  if_neg (by omega)

theorem ofNat_mod_two_pow (w v : Nat) : BitVec.ofNat w (v % 2 ^ w) = BitVec.ofNat w v :=
  BitVec.eq_of_toNat_eq (by simp only [BitVec.toNat_ofNat, Nat.mod_mod])

theorem setElement_mod {n w : Nat} (r : Vector (BitVec w) n) (e v : Nat) :
    setElement r e (v % 2 ^ w) = setElement r e v := by
  rw [setElement, setElement, ofNat_mod_two_pow]

theorem setScalar_mod {w : Nat} (r : BitVec w) (e v : Nat) : setScalar r e (v % 2 ^ w) = setScalar r e v := by
  rw [setScalar, setScalar, ofNat_mod_two_pow]

/-! ### One register -/

theorem regRead_cmd (s : State) (e : Nat) : regRead s .cmd e = 0 := rfl

theorem regRead_of_count_le (s : State) (r : Reg) (e : Nat) (h : regCount s.params r ≤ e) : regRead s r e = 0 := by
  cases r with
  | cmd => exact regRead_cmd s e
  | mem => exact if_neg (Nat.not_lt.mpr h)
  | status | addr | esin | len | rta | res => exact scalarOr0_of_le _ h
  | rom | data | chal | secret | macin | blk | rdata | page | macrd | h | macout => exact elementOr0_of_le _ h

theorem writeOperand_of_not_readWrite (r : Reg) (e v : Nat) (o : Operands) (h : regReadWrite r = false) :
    writeOperand r e v o = o := by
  cases r with
  | rom | addr | esin | data | chal | secret | macin | len | blk => cases h
  | cmd | status | rta | res | rdata | page | macrd | mem | h | macout => rfl

theorem writeOperand_of_count_le (p : Params) (r : Reg) (e v : Nat) (o : Operands) (h : regCount p r ≤ e) :
    writeOperand r e v o = o := by
  cases r with
  | rom | data | chal | secret | macin | blk =>
    simp only [regCount] at h
    simp only [writeOperand, setElement_of_le _ v h]
  | addr | esin | len =>
    simp only [regCount] at h
    simp only [writeOperand, setScalar_of_le _ v h]
  | cmd | status | rta | res | rdata | page | macrd | mem | h | macout => rfl

theorem writeOperand_mod (r : Reg) (e v : Nat) (o : Operands) :
    writeOperand r e (v % 2 ^ regWidth r) o = writeOperand r e v o := by
  cases r with
  | rom | data | chal | secret | macin | blk => simp only [writeOperand, regWidth, setElement_mod]
  | addr | esin | len => simp only [writeOperand, regWidth, setScalar_mod]
  | cmd | status | rta | res | rdata | page | macrd | mem | h | macout => rfl

/-! ### HostRead and HostWrite, per kind of index -/

theorem hostRead_of_regAt {index : BitVec 8} {r : Reg} (h : regAt index = some r) (e : Nat) (s : State) :
    hostRead index e s = regRead s r e := by
  simp only [hostRead, h]

theorem hostRead_of_unassigned {index : BitVec 8} (h : regAt index = none) (e : Nat) (s : State) :
    hostRead index e s = 0 := by
  simp only [hostRead, h]

theorem hostWrite_of_regAt_cmd {index : BitVec 8} (h : regAt index = some .cmd) (e v : Nat) (s : State) :
    hostWrite index e v s = if e = 0 then hostCommand (BitVec.ofNat 8 v) s else s := by
  simp only [hostWrite, h]

theorem hostWrite_of_regAt {index : BitVec 8} {r : Reg} (h : regAt index = some r) (hr : r ≠ .cmd) (e v : Nat)
    (s : State) : hostWrite index e v s = { s with operands := writeOperand r e v s.operands } := by
  cases r with
  | cmd => exact absurd rfl hr
  | _ => simp only [hostWrite, h]

theorem hostWrite_of_unassigned {index : BitVec 8} (h : regAt index = none) (e v : Nat) (s : State) :
    hostWrite index e v s = s := by
  simp only [hostWrite, h]

/-! ### The three rules of R26 -/

theorem hostWrite_noEffect (s : State) (index : BitVec 8) (e v : Nat)
    (h : ∀ r, regAt index = some r → r ≠ .cmd ∧ regReadWrite r = false ∨ regCount s.params r ≤ e) :
    hostWrite index e v s = s := by
  cases hreg : regAt index with
  | none => exact hostWrite_of_unassigned hreg e v s
  | some r =>
    by_cases hr : r = .cmd
    · subst hr
      have he : 1 ≤ e := (h .cmd hreg).resolve_left fun hc => hc.1 rfl
      rw [hostWrite_of_regAt_cmd hreg, if_neg (by omega)]
    · have hkeep : writeOperand r e v s.operands = s.operands := by
        obtain ⟨-, hro⟩ | hcount := h r hreg
        · exact writeOperand_of_not_readWrite r e v _ hro
        · exact writeOperand_of_count_le s.params r e v _ hcount
      rw [hostWrite_of_regAt hreg hr, hkeep]

theorem hostRead_eq_zero (s : State) (index : BitVec 8) (e : Nat)
    (h : ∀ r, regAt index = some r → r = .cmd ∨ regCount s.params r ≤ e) : hostRead index e s = 0 := by
  cases hreg : regAt index with
  | none => exact hostRead_of_unassigned hreg e s
  | some r =>
    rw [hostRead_of_regAt hreg]
    obtain rfl | hcount := h r hreg
    · exact regRead_cmd s e
    · exact regRead_of_count_le s r e hcount

theorem hostWrite_mod (s : State) {index : BitVec 8} {r : Reg} (hreg : regAt index = some r) (e v : Nat) :
    hostWrite index e v s = hostWrite index e (v % 2 ^ regWidth r) s := by
  by_cases hr : r = .cmd
  · subst hr
    rw [hostWrite_of_regAt_cmd hreg, hostWrite_of_regAt_cmd hreg, regWidth, ofNat_mod_two_pow]
  · rw [hostWrite_of_regAt hreg hr, hostWrite_of_regAt hreg hr, writeOperand_mod]

/-- Settles O50: the three rules of R26, one lemma each. -/
theorem hostAccessRules : Obligations.HostAccessRules := fun s index e v =>
  ⟨hostWrite_noEffect s index e v, hostRead_eq_zero s index e, fun _ hreg => hostWrite_mod s hreg e v⟩

end Sys2Proof.Machine
end

section
/-!
PROOFS. What a CMD byte decodes to (30_encoding.md R81 to R84): each of the decoder's three answers, by the byte's two
fields. The reserved field is checked before the operation code (60_exceptions.md R230), so the three conditions exclude
each other.
-/

namespace Sys2Proof

/-- The codes R81 leaves out of its table are those above that of WRAUTH. -/
theorem operationOf_eq_none_iff (code : BitVec 4) : operationOf code = none ↔ 0xB#4 < code := by
  revert code
  decide

theorem exists_operationOf_eq_some_iff (code : BitVec 4) : (∃ i, operationOf code = some i) ↔ code ≤ 0xB#4 := by
  rw [← Option.ne_none_iff_exists', ne_eq, operationOf_eq_none_iff, BitVec.not_lt]

/-! ### The three answers of the decoder -/

/-- The three ways through the decoder, each with the answer it gives. -/
theorem decode_cases (cmd : Byte) :
    (cmdRsv cmd ≠ 0#4 ∧ decode cmd = .reservedField)
      ∨ (cmdRsv cmd = 0#4 ∧ operationOf (cmdOp cmd) = none ∧ decode cmd = .reservedCode)
      ∨ ∃ i, cmdRsv cmd = 0#4 ∧ operationOf (cmdOp cmd) = some i ∧ decode cmd = .operation i := by
  by_cases hrsv : cmdRsv cmd = 0#4
  · cases hop : operationOf (cmdOp cmd) with
    | none => exact .inr (.inl ⟨hrsv, rfl, by simp [decode, hrsv, hop]⟩)
    | some i => exact .inr (.inr ⟨i, hrsv, rfl, by simp [decode, hrsv, hop]⟩)
  · exact .inl ⟨hrsv, if_pos hrsv⟩

theorem decode_eq_reservedField_iff (cmd : Byte) : decode cmd = .reservedField ↔ cmdRsv cmd ≠ 0#4 := by
  obtain ⟨hrsv, hd⟩ | ⟨hrsv, -, hd⟩ | ⟨i, hrsv, -, hd⟩ := decode_cases cmd <;> simp [hrsv, hd]

theorem decode_eq_reservedCode_iff (cmd : Byte) :
    decode cmd = .reservedCode ↔ cmdRsv cmd = 0#4 ∧ operationOf (cmdOp cmd) = none := by
  obtain ⟨hrsv, hd⟩ | ⟨hrsv, hop, hd⟩ | ⟨i, hrsv, hop, hd⟩ := decode_cases cmd
  · simp [hrsv, hd]
  · simp [hrsv, hop, hd]
  · simp [hop, hd]

theorem decode_eq_operation_iff (cmd : Byte) (i : Instr) :
    decode cmd = .operation i ↔ cmdRsv cmd = 0#4 ∧ operationOf (cmdOp cmd) = some i := by
  obtain ⟨hrsv, hd⟩ | ⟨hrsv, hop, hd⟩ | ⟨j, hrsv, hop, hd⟩ := decode_cases cmd
  · simp [hrsv, hd]
  · simp [hop, hd]
  · simp [hrsv, hop, hd]

theorem exists_decode_eq_operation_iff (cmd : Byte) :
    (∃ i, decode cmd = .operation i) ↔ cmdRsv cmd = 0#4 ∧ cmdOp cmd ≤ 0xB#4 := by
  simp only [decode_eq_operation_iff, exists_and_left, exists_operationOf_eq_some_iff]

/-- Settles O2: one lemma per answer of the decoder, and where the table of codes ends. -/
theorem commandByteIsOperationOrRefused : Obligations.CommandByteIsOperationOrRefused := fun cmd =>
  ⟨exists_decode_eq_operation_iff cmd, decode_eq_reservedField_iff cmd,
    (decode_eq_reservedCode_iff cmd).trans (and_congr_right fun _ => operationOf_eq_none_iff (cmdOp cmd))⟩

end Sys2Proof
end

section
/-!
PROOFS. The functions of the MAC engine: the message schedule word by word (40_mac_engine.md R113) and the byte order of
SerializeMAC (R122).
-/

namespace Sys2Proof.Machine

/-! ### The message schedule -/

/-- The right side of R113's recurrence for word `t`, over any words `w`. -/
def recurrenceWord (w : Nat → Word) (t : Nat) : Word :=
  rotl 1 (w (t - 3) ^^^ w (t - 8) ^^^ w (t - 14) ^^^ w (t - 16))

/-- The recurrence looks only at words before its own. -/
theorem recurrenceWord_congr {w w' : Nat → Word} {t : Nat} (ht : 16 ≤ t) (h : ∀ i < t, w i = w' i) :
    recurrenceWord w t = recurrenceWord w' t := by
  rw [recurrenceWord, recurrenceWord, h (t - 3) (by omega), h (t - 8) (by omega), h (t - 14) (by omega),
    h (t - 16) (by omega)]

/-- `nextScheduleWord` counts from the newest word, the recurrence from the oldest. -/
theorem nextScheduleWord_reverse {ws : List Word} (h : 16 ≤ ws.length) :
    nextScheduleWord ws.reverse = recurrenceWord (ws.getD · 0) ws.length := by
  have hback (j : Nat) (hj : j < 16) : ws.reverse.getD j 0 = ws.getD (ws.length - (j + 1)) 0 := by
    rw [List.getD_eq_getElem?_getD, List.getElem?_reverse (by omega), List.getD_eq_getElem?_getD, Nat.sub_sub,
      Nat.add_comm 1]
  rw [nextScheduleWord, hback 2 (by omega), hback 7 (by omega), hback 13 (by omega), hback 15 (by omega)]
  rfl

/-- The word `extendSchedule` makes last, where its definition names the one it makes first. -/
theorem extendSchedule_succ (n : Nat) (recent : List Word) :
    extendSchedule (n + 1) recent = nextScheduleWord (extendSchedule n recent) :: extendSchedule n recent := by
  induction n generalizing recent with
  | zero => rfl
  | succ n ih => exact ih (nextScheduleWord recent :: recent)

/-- The first `n + 16` words of the schedule, oldest first: the block and `n` words of the recurrence. -/
def scheduleAfter (block : Vector Word 16) (n : Nat) : List Word := (extendSchedule n block.toList.reverse).reverse

theorem scheduleAfter_zero (block : Vector Word 16) : scheduleAfter block 0 = block.toList := List.reverse_reverse _

@[simp] theorem scheduleAfter_length (block : Vector Word 16) (n : Nat) : (scheduleAfter block n).length = n + 16 := by
  induction n with
  | zero => simp [scheduleAfter_zero]
  | succ n ih =>
    simp only [scheduleAfter, List.length_reverse] at ih
    simp only [scheduleAfter, extendSchedule_succ, List.length_reverse, List.length_cons, ih]

theorem scheduleAfter_succ (block : Vector Word 16) (n : Nat) :
    scheduleAfter block (n + 1)
      = scheduleAfter block n ++ [recurrenceWord ((scheduleAfter block n).getD · 0) (n + 16)] := by
  have h := nextScheduleWord_reverse (ws := scheduleAfter block n) (by simp)
  rw [scheduleAfter_length] at h
  rw [← h, scheduleAfter, scheduleAfter, extendSchedule_succ, List.reverse_cons, List.reverse_reverse]

/-- More words of the recurrence leave those before them as they are. -/
theorem scheduleAfter_prefix (block : Vector Word 16) {n m : Nat} (h : n ≤ m) :
    scheduleAfter block n <+: scheduleAfter block m := by
  induction m, h using Nat.le_induction with
  | base => exact List.prefix_refl _
  | succ m _ ih => exact ih.trans ⟨_, (scheduleAfter_succ block m).symm⟩

/-- Any part of the schedule that holds word `i` has it where the whole schedule has it. -/
theorem schedule_getElem? (block : Vector Word 16) {n i : Nat} (hn : n ≤ 64) (hi : i < n + 16) :
    (schedule block)[i]? = (scheduleAfter block n)[i]? := by
  obtain ⟨rest, hrest⟩ : scheduleAfter block n <+: schedule block := scheduleAfter_prefix block hn
  rw [← hrest, List.getElem?_append_left (by simpa using hi)]

@[simp] theorem schedule_length (block : Vector Word 16) : (schedule block).length = 80 := scheduleAfter_length block 64

theorem schedule_getElem?_of_lt (block : Vector Word 16) {t : Nat} (h : t < 16) :
    (schedule block)[t]? = some block[t] := by
  rw [schedule_getElem? block (Nat.zero_le 64) (by omega), scheduleAfter_zero]
  simp [h]

theorem schedule_getElem?_of_ge (block : Vector Word 16) {t : Nat} (ht : 16 ≤ t) (h : t < 80) :
    (schedule block)[t]? = some (recurrenceWord ((schedule block).getD · 0) t) := by
  obtain ⟨n, rfl⟩ := Nat.exists_eq_add_of_le' ht
  have hword : (scheduleAfter block (n + 1))[n + 16]?
      = some (recurrenceWord ((scheduleAfter block n).getD · 0) (n + 16)) := by
    rw [scheduleAfter_succ, List.getElem?_append_right (by simp)]
    simp
  rw [schedule_getElem? block (n := n + 1) (by omega) (by omega), hword, Option.some_inj]
  refine recurrenceWord_congr ht fun i hi => ?_
  simp only [List.getD_eq_getElem?_getD, schedule_getElem? block (n := n) (by omega) hi]

/-- Settles O10: the words of the block stand in front, and each word the recurrence adds stays where it was put. -/
theorem scheduleRecurrence : Obligations.ScheduleRecurrence := fun block =>
  ⟨schedule_length block, fun _ => schedule_getElem?_of_lt block, fun _ => schedule_getElem?_of_ge block⟩

/-! ### SerializeMAC -/

theorem leBytes_length (w : Word) : (leBytes w).length = 4 := rfl

theorem leBytes_getD (w : Word) (j : Fin 4) : (leBytes w).getD j 0 = w.extractLsb' (8 * j) 8 := by
  fin_cases j <;> rfl

/-- Words serialised one after another: word `k` takes the bytes from 4k on. -/
theorem flatMap_leBytes_getD (ws : List Word) (k : Nat) (j : Fin 4) (hk : k < ws.length) :
    (ws.flatMap leBytes).getD (4 * k + j) 0 = ws[k].extractLsb' (8 * j) 8 := by
  induction ws generalizing k with
  | nil => cases hk
  | cons w ws ih =>
    cases k with
    | zero =>
      rw [List.flatMap_cons, Nat.mul_zero, Nat.zero_add, List.getD_append _ _ _ _ (by simp [leBytes_length])]
      exact leBytes_getD w j
    | succ k =>
      rw [List.flatMap_cons, List.getD_append_right _ _ _ _ (by rw [leBytes_length]; omega), leBytes_length,
        show 4 * (k + 1) + j.val - 4 = 4 * k + j by omega]
      exact ih k (by simpa using hk)

theorem serializeMac_eq (h : Vector Word 5) :
    serializeMac h = bytesAt 20 0 ([h[4], h[3], h[2], h[1], h[0]].flatMap leBytes) := rfl

/-- Settles O12: byte 4k + j belongs to the word at place k of the words written from H[4] down. -/
theorem serializeMacByteOrder : Obligations.SerializeMacByteOrder := by
  intro h k j
  have hword : [h[4], h[3], h[2], h[1], h[0]][k] = h[4 - k.val] := by fin_cases k <;> rfl
  simp only [serializeMac_eq, bytesAt, Vector.getElem_ofFn, Nat.zero_add]
  rw [flatMap_leBytes_getD _ _ _ k.isLt, ← hword]
  rfl

end Sys2Proof.Machine
end

section
/-!
PROOFS. DIGEST and SERMAC (40_mac_engine.md R120, R123). The engine's 80 rounds, one at a position, compute
ComputeDigest: `RoundsDone` holds after the block is taken, and each round keeps it.
-/

namespace Sys2Proof.Machine

open Sys2Proof.Safety

/-! ### One position of the MAC engine -/

section
variable (s : State) (b : Bus) (p : Pending) (op : Instr) (k : Nat) (ms : List Micro)

theorem run_macLoad :
    runMicro (.macLoad :: ms) (s.moved b p (.run op k))
      = runMicro ms ({ s with work := macLoad s.latch.operands.blk s.work }.moved b p (.run op (k + 1))) := rfl

theorem run_macRound :
    runMicro (.macRound :: ms) (s.moved b p (.run op k))
      = runMicro ms ({ s with work := macRound s.work }.moved b p (.run op (k + 1))) := rfl

theorem run_macKeep :
    runMicro (.macKeep :: ms) (s.moved b p (.run op k))
      = runMicro ms (s.moved b { p with h := digestWords s.work.v } (.run op (k + 1))) := rfl

theorem run_macRounds (n : Nat) :
    runMicro (List.replicate n .macRound ++ ms) (s.moved b p (.run op k))
      = runMicro ms ({ s with work := macRound^[n] s.work }.moved b p (.run op (k + n))) := by
  induction n generalizing s k with
  | zero => rfl
  | succ n ih =>
    rw [List.replicate_succ, List.cons_append, run_macRound, ih, Function.iterate_succ_apply, Nat.add_assoc,
      Nat.add_comm 1]

/-- The end of an operation forgets the engine's working state, whatever it was. -/
theorem succeed_moved_work (m : MacWork) (f : Fsm) (regs : List ResultReg) :
    ({ s with work := m }.moved b p f).succeed regs = (s.moved b p f).succeed regs := rfl

end

/-! ### The block taken, and one round -/

theorem macLoad_wordAt (block : Vector Word 16) (m : MacWork) {i : Nat} (h : i < 16) :
    scheduleWordAt (macLoad block m).w i = block[i] := by
  simp [scheduleWordAt, macLoad, h, show i < 80 by omega]

section
variable {m : MacWork}

theorem macRound_t (h : m.t.val < 80) : (macRound m).t.val = m.t + 1 := by
  simp [macRound, h]

theorem macRound_v (h : m.t.val < 80) :
    (macRound m).v = shaRound m.t (scheduleWordAt (macRound m).w m.t) m.v := by
  simp [macRound, h]

/-- The first 16 rounds make no word. -/
theorem macRound_w_of_lt (h : m.t.val < 16) : (macRound m).w = m.w := by
  simp [macRound, h, show m.t.val < 80 by omega]

/-- A later round makes its own word. -/
theorem macRound_wordAt_same (ht : 16 ≤ m.t.val) (h : m.t.val < 80) :
    scheduleWordAt (macRound m).w m.t = recurrenceWord (scheduleWordAt m.w) m.t := by
  simp [macRound, h, Nat.not_lt.2 ht, scheduleWordAt, recurrenceWord]

/-- A round leaves every other word as it is. -/
theorem macRound_wordAt_other {i : Nat} (hi : i ≠ m.t.val) :
    scheduleWordAt (macRound m).w i = scheduleWordAt m.w i := by
  by_cases h : m.t.val < 80
  · by_cases ht : m.t.val < 16
    · rw [macRound_w_of_lt ht]
    · simp [macRound, h, ht, scheduleWordAt, Vector.getElem?_set_ne _ hi.symm]
  · simp [macRound, h]

end

/-! ### The rounds together -/

theorem schedule_getD_of_lt (block : Vector Word 16) {t : Nat} (h : t < 16) : (schedule block).getD t 0 = block[t] := by
  rw [List.getD_eq_getElem?_getD, schedule_getElem?_of_lt block h, Option.getD_some]

theorem schedule_getD_of_ge (block : Vector Word 16) {t : Nat} (ht : 16 ≤ t) (h : t < 80) :
    (schedule block).getD t 0 = recurrenceWord ((schedule block).getD · 0) t := by
  rw [List.getD_eq_getElem?_getD, schedule_getElem?_of_ge block ht h, Option.getD_some]

/-- One round more, at the end of those made. -/
theorem shaRounds_append_singleton (t : Nat) (ws : List Word) (w : Word) (v : Working) :
    shaRounds t (ws ++ [w]) v = shaRound (t + ws.length) w (shaRounds t ws v) := by
  induction ws generalizing t v with
  | nil => rfl
  | cons x ws ih =>
    rw [List.cons_append, shaRounds, ih, shaRounds, List.length_cons, Nat.add_assoc, Nat.add_comm 1]

/-- The first `t + 1` rounds are the first `t`, then round `t`. -/
theorem shaRounds_take_succ {ws : List Word} {t : Nat} (h : t < ws.length) (v : Working) :
    shaRounds 0 (ws.take (t + 1)) v = shaRound t (ws.getD t 0) (shaRounds 0 (ws.take t) v) := by
  rw [List.take_succ_eq_append_getElem h, shaRounds_append_singleton, List.length_take_of_le h.le, Nat.zero_add,
    List.getD_eq_getElem _ _ h]

/-- The engine after `t` rounds on a block: the schedule words it has, and the working words of R114. -/
structure RoundsDone (block : Vector Word 16) (t : Nat) (m : MacWork) : Prop where
  count : m.t.val = t
  words : ∀ i, i < 16 ∨ i < t → scheduleWordAt m.w i = (schedule block).getD i 0
  working : m.v = shaRounds 0 ((schedule block).take t) sha1Iv

theorem macLoad_roundsDone (block : Vector Word 16) (m : MacWork) : RoundsDone block 0 (macLoad block m) where
  count := rfl
  words i hi := by
    have hi : i < 16 := by omega
    rw [macLoad_wordAt block m hi, schedule_getD_of_lt block hi]
  working := rfl

/-- The word a round uses, in the store from before it or made by it, is the schedule's. -/
theorem RoundsDone.wordAt_round {block : Vector Word 16} {m : MacWork} (hm : RoundsDone block m.t m)
    (h : m.t.val < 80) : scheduleWordAt (macRound m).w m.t = (schedule block).getD m.t 0 := by
  rcases Nat.lt_or_ge m.t.val 16 with ht | ht
  · rw [macRound_w_of_lt ht, hm.words _ (.inl ht)]
  · rw [macRound_wordAt_same ht h, schedule_getD_of_ge block ht h]
    exact recurrenceWord_congr ht fun i hi => hm.words i (.inr hi)

theorem RoundsDone.macRound {block : Vector Word 16} {t : Nat} {m : MacWork} (hm : RoundsDone block t m) (h : t < 80) :
    RoundsDone block (t + 1) (macRound m) := by
  obtain rfl := hm.count
  have hword := hm.wordAt_round h
  refine ⟨macRound_t h, fun i hi => ?_, ?_⟩
  · by_cases hit : i = m.t.val
    · rw [hit, hword]
    · rw [macRound_wordAt_other hit, hm.words i (by omega)]
  · rw [macRound_v h, hword, hm.working, shaRounds_take_succ (by simpa using h)]

theorem macRounds_roundsDone (block : Vector Word 16) (m : MacWork) {n : Nat} (h : n ≤ 80) :
    RoundsDone block n (macRound^[n] (macLoad block m)) := by
  induction n with
  | zero => exact macLoad_roundsDone block m
  | succ n ih =>
    rw [Function.iterate_succ_apply']
    exact (ih (by omega)).macRound (by omega)

/-- The engine computes ComputeDigest (R115), whatever its working state was before the block. -/
theorem digestWords_macRounds (block : Vector Word 16) (m : MacWork) :
    digestWords (macRound^[80] (macLoad block m)).v = computeDigest block := by
  rw [(macRounds_roundsDone block m le_rfl).working, List.take_of_length_le (schedule_length block).le, computeDigest]

/-! ### The two operations -/

/-- DIGEST's pseudocode, from any position it is begun at: it succeeds with the digest of the latched block. -/
theorem run_digestProgram (s : State) (b : Bus) (p : Pending) (op : Instr) (k : Nat) (prm : Params) (l : Latch) :
    runMicro (digestProgram prm l) (s.moved b p (.run op k))
      = (s.moved b { p with h := computeDigest s.latch.operands.blk } (.run op (k + 82))).succeed [.h] := by
  rw [digestProgram, run_macLoad, run_macRounds, run_macKeep, run_succeed, succeed_moved_work, succeed_moved_work,
    digestWords_macRounds]

/-- Settles O9: the block is taken, 80 rounds make the digest, and only H is committed. -/
theorem digestWritesComputeDigest : Obligations.DigestWritesComputeDigest := by
  intro s hb
  refine ⟨_, exec_run hb rfl, ?_⟩
  rw [programOf, run_digestProgram]
  exact succeeded_of_run rfl

/-- Settles O11: the two positions of SERMAC, on the H that START latched. -/
theorem sermacWritesSerializedH : Obligations.SermacWritesSerializedH := by
  intro s hb
  refine ⟨_, exec_run hb rfl, ?_⟩
  rw [programOf, sermacProgram, run_macSerialize, run_succeed]
  exact succeeded_of_run rfl

end Sys2Proof.Machine
end

section
/-!
PROOFS. The CRC-16 validator (41_crc_bus.md R142, R143). One bit of the CRC is linear over XOR and loses nothing. So two
bytes after a message give the residue exactly when they are the complement of its CRC, and messages that differ in one byte
have different CRCs.
-/

namespace Sys2Proof.Machine

/-! ### One bit -/

theorem getLsbD_crcBit (x : Half) (i : Nat) :
    (crcBit x).getLsbD i = (x.getLsbD (i + 1) ^^ (x.getLsbD 0 && (0xA001#16).getLsbD i)) := by
  rw [crcBit]
  split
  · next h => rw [h, BitVec.getLsbD_xor, BitVec.getLsbD_ushiftRight, Nat.add_comm, Bool.true_and]
  · next h => rw [Bool.eq_false_of_not_eq_true h, BitVec.getLsbD_ushiftRight, Nat.add_comm, Bool.false_and, Bool.xor_false]

theorem crcBit_xor (x y : Half) : crcBit (x ^^^ y) = crcBit x ^^^ crcBit y := by
  refine BitVec.eq_of_getLsbD_eq fun i _ => ?_
  simp only [BitVec.getLsbD_xor, getLsbD_crcBit, Bool.and_xor_distrib_right, Bool.xor_assoc,
    Bool.xor_left_comm]

theorem getLsbD_crcBit_top (x : Half) : (crcBit x).getLsbD 15 = x.getLsbD 0 := by
  rw [getLsbD_crcBit, BitVec.getLsbD_of_ge x _ le_rfl, Bool.false_xor]
  exact Bool.and_true _

/-- No bit of the CRC is lost: the one shifted out comes back as the top bit of 0xA001. -/
theorem crcBit_injective : Function.Injective crcBit := by
  intro x y h
  have hlow : x.getLsbD 0 = y.getLsbD 0 := by rw [← getLsbD_crcBit_top, h, getLsbD_crcBit_top]
  refine BitVec.eq_of_getLsbD_eq fun i _ => ?_
  cases i with
  | zero => exact hlow
  | succ i =>
    have hbit : (crcBit x).getLsbD i = (crcBit y).getLsbD i := by rw [h]
    rwa [getLsbD_crcBit, getLsbD_crcBit, hlow, Bool.xor_left_inj] at hbit

theorem crcBit_of_even {x : Half} (h : x.getLsbD 0 = false) : crcBit x = x >>> 1 := by
  rw [crcBit, h, if_neg Bool.false_ne_true]

/-! ### Several bits -/

theorem iterate_crcBit_xor (n : Nat) (x y : Half) : crcBit^[n] (x ^^^ y) = crcBit^[n] x ^^^ crcBit^[n] y := by
  induction n generalizing x y with
  | zero => rfl
  | succ n ih => simp only [Function.iterate_succ_apply, crcBit_xor, ih]

/-- A byte above zeros is only shifted down. -/
theorem iterate_crcBit_shiftLeft (c : Byte) {n : Nat} (h : n ≤ 8) :
    crcBit^[n] (c.setWidth 16 <<< n) = c.setWidth 16 := by
  induction n with
  | zero => exact BitVec.shiftLeft_zero _
  | succ n ih =>
    have hshift : crcBit (c.setWidth 16 <<< (n + 1)) = c.setWidth 16 <<< n := by
      rw [crcBit_of_even (by simp)]
      refine BitVec.eq_of_getLsbD_eq fun i _ => ?_
      have htop : 16 ≤ 1 + i → c.getLsbD (i - n) = false := fun _ => BitVec.getLsbD_of_ge _ _ (by omega)
      simp only [BitVec.getLsbD_ushiftRight, BitVec.getLsbD_shiftLeft, BitVec.getLsbD_setWidth]
      grind
    rw [Function.iterate_succ_apply, hshift, ih (by omega)]

/-! ### Bytes -/

theorem crcByte_eq_iterate (s : Half) (b : Byte) : crcByte s b = crcBit^[8] (s ^^^ b.setWidth 16) := rfl

theorem crcByte_left_injective (b : Byte) : Function.Injective (crcByte · b) := fun _ _ h =>
  (BitVec.xor_left_inj _).mp (crcBit_injective.iterate 8 h)

theorem crcByte_right_injective (s : Half) : Function.Injective (crcByte s) := fun b c h => by
  have hw : b.setWidth 16 = c.setWidth 16 := (BitVec.xor_right_inj s).mp (crcBit_injective.iterate 8 h)
  simpa using congrArg (BitVec.setWidth 8) hw

theorem foldl_crcByte_injective (bytes : List Byte) : Function.Injective (bytes.foldl crcByte) := by
  induction bytes with
  | nil => exact Function.injective_id
  | cons b bytes ih => exact ih.comp (crcByte_left_injective b)

theorem byte_append_eq_xor (c1 c0 : Byte) : c1 ++ c0 = c0.setWidth 16 ^^^ c1.setWidth 16 <<< 8 := by
  refine BitVec.eq_of_getLsbD_eq fun i _ => ?_
  simp only [BitVec.getLsbD_append, BitVec.getLsbD_xor, BitVec.getLsbD_shiftLeft, BitVec.getLsbD_setWidth]
  grind

theorem byte_append_eq_iff (c1 c0 : Byte) (w : Half) :
    c1 ++ c0 = w ↔ c0 = w.extractLsb' 0 8 ∧ c1 = w.extractLsb' 8 8 := by
  constructor
  · rintro rfl
    exact ⟨BitVec.extractLsb'_append_eq_right.symm, BitVec.extractLsb'_append_eq_left.symm⟩
  · rintro ⟨rfl, rfl⟩
    exact BitVec.extractLsb'_append_extractLsb' (w := 8) (len := 8)

/-- Two bytes, low byte first, are taken as one word of sixteen bits. -/
theorem crcByte_crcByte (s : Half) (c0 c1 : Byte) : crcByte (crcByte s c0) c1 = crcBit^[16] (s ^^^ (c1 ++ c0)) := by
  calc crcByte (crcByte s c0) c1
    _ = crcBit^[8] (crcBit^[8] (s ^^^ c0.setWidth 16) ^^^ crcBit^[8] (c1.setWidth 16 <<< 8)) := by
        rw [iterate_crcBit_shiftLeft c1 le_rfl, crcByte_eq_iterate, crcByte_eq_iterate]
    _ = crcBit^[8] (crcBit^[8] (s ^^^ (c1 ++ c0))) := by
        rw [← iterate_crcBit_xor, byte_append_eq_xor, BitVec.xor_assoc]
    _ = crcBit^[16] (s ^^^ (c1 ++ c0)) := (Function.iterate_add_apply crcBit 8 8 _).symm

/-! ### The check -/

theorem crc16Ok_iff (bytes : List Byte) (c0 c1 : Byte) :
    crc16Ok bytes c0 c1 = true
      ↔ c0 = (~~~ crc16 bytes).extractLsb' 0 8 ∧ c1 = (~~~ crc16 bytes).extractLsb' 8 8 := by
  rw [crc16Ok, Bool.and_eq_true, beq_iff_eq, beq_iff_eq]

theorem crc16_append_pair (bytes : List Byte) (c0 c1 : Byte) :
    crc16 (bytes ++ [c0, c1]) = crcBit^[16] (crc16 bytes ^^^ (c1 ++ c0)) := by
  rw [← crcByte_crcByte, crc16, List.foldl_append]
  rfl

/-- The residue is sixteen bits of a word of ones, and only of that word. -/
theorem iterate_crcBit_eq_residue_iff (w : Half) : crcBit^[16] w = 0xB001#16 ↔ w = BitVec.allOnes 16 := by
  have hones : crcBit^[16] (BitVec.allOnes 16) = 0xB001#16 := by decide +kernel
  rw [← hones, (crcBit_injective.iterate 16).eq_iff]

theorem crc16Ok_iff_residue (bytes : List Byte) (c0 c1 : Byte) :
    crc16Ok bytes c0 c1 = true ↔ crc16 (bytes ++ [c0, c1]) = 0xB001#16 := by
  rw [crc16_append_pair, iterate_crcBit_eq_residue_iff, xor_eq_iff_right_eq, BitVec.xor_allOnes,
    byte_append_eq_iff, crc16Ok_iff]

theorem crc16_ne_of_byte_ne (pre post : List Byte) {x y : Byte} (h : x ≠ y) :
    crc16 (pre ++ x :: post) ≠ crc16 (pre ++ y :: post) := by
  rw [crc16, crc16, List.foldl_append, List.foldl_append]
  exact fun heq => h (crcByte_right_injective _ (foldl_crcByte_injective post heq))

theorem ne_xor_bit (x : Byte) (j : Fin 8) : x ≠ x ^^^ (1#8 <<< j.val) := by
  have hbit : ∀ j : Fin 8, 1#8 <<< j.val ≠ 0#8 := by decide
  exact fun h => hbit j (by simpa using h.symm)

/-- Settles O13: two bytes make a word of ones with the CRC exactly when they are its complement. -/
theorem crcResidueCharacterisesCrcOk : Obligations.CrcResidueCharacterisesCrcOk :=
  fun bytes c0 c1 => ⟨crc16Ok_iff bytes c0 c1, crc16Ok_iff_residue bytes c0 c1⟩

/-- Settles O14: both responses would have the residue as their CRC, but one byte of them differs. -/
theorem crcDetectsEverySingleBitError : Obligations.CrcDetectsEverySingleBitError := by
  rintro bytes bytes' c0 c1 c0' c1' hok - ⟨pre, post, x, j, ha, hb⟩
  refine Bool.eq_false_iff.mpr fun hok' => crc16_ne_of_byte_ne pre post (ne_xor_bit x j) ?_
  rw [← ha, ← hb, (crc16Ok_iff_residue bytes c0 c1).mp hok, (crc16Ok_iff_residue bytes' c0' c1').mp hok']

end Sys2Proof.Machine
end

section
/-!
PROOFS. A START that the core refuses for its operand (42_bus_commands.md R174): the meaning is `refuseStart` alone, with no
position of the pseudocode run.
-/

namespace Sys2Proof.Machine

open Sys2Proof.Safety

theorem startRefused_rdmem_iff (s : State) :
    s.startRefused .rdmem = true ↔ s.params.membuf < s.operands.len.toNat := by
  simp [State.startRefused]

/-- A meaning whose START is refused: the counterpart of `exec_run`. -/
theorem exec_refused {i : Instr} {s : State} (hb : busy s.status = false) (hr : s.startRefused i = true) :
    exec i s = .next (s.refuseStart (encode i)) := by
  rw [exec_eq, runOperation_idle hb, if_pos hr]

/-- A refused START is a START that raises before its first position, so before any bus event. -/
theorem refuseStart_encode (i : Instr) (s : State) :
    s.refuseStart (encode i) = ((s.start i).moved s.bus .empty (.run i 0)).raise .illegalOp 0 := rfl

/-- The end of a refused START, as the state the claims speak of. -/
theorem failed_refuseStart (i : Instr) (s : State) : Failed i s (s.refuseStart (encode i)) .illegalOp 0 s.bus := by
  rw [refuseStart_encode]
  exact failed_of_run

/-- Settles O22: LEN above P_MEMBUF is exactly what RDMEM's START check refuses. -/
theorem rdmemTooLongIsRefused : Obligations.RdmemTooLongIsRefused := fun s hb hlen =>
  ⟨s.refuseStart (encode .rdmem), exec_refused hb ((startRefused_rdmem_iff s).2 hlen), failed_refuseStart .rdmem s⟩

end Sys2Proof.Machine
end

section
/-!
PROOFS. How any operation ends (60_exceptions.md R221, R226): it failed or it succeeded, for every answer of transport and
token. A failure commits no result, and every host read but that of STATUS depends on the parameters, the operands and the
results alone (R224).
-/

namespace Sys2Proof.Machine

open Sys2Proof.Safety

/-! ### The two ends of an operation -/

section
variable {s u : State}

/-- A failure keeps nothing of the run but the bus. -/
theorem SameButRun.raise_eq (h : SameButRun s u) (f : Fsm) (kind : Kind) (stage : BitVec 3) :
    u.raise kind stage = (s.moved u.bus u.pending f).raise kind stage := by
  rw [h]; rfl

/-- A success keeps nothing of the run but the bus and the pending results it commits. -/
theorem SameButRun.succeed_eq (h : SameButRun s u) (f : Fsm) (regs : List ResultReg) :
    u.succeed regs = (s.moved u.bus u.pending f).succeed regs := by
  rw [h]; rfl

end

/-- Every operation begun with none running fails or succeeds. -/
theorem exec_cases {i : Instr} {s t : State} (hb : busy s.status = false) (h : exec i s = .next t) :
    (∃ kind stage bus, Failed i s t kind stage bus) ∨ ∃ res bus, Succeeded i s t res bus := by
  cases hr : s.startRefused i with
  | true =>
    cases (exec_refused hb hr).symm.trans h
    exact .inl ⟨_, _, _, failed_refuseStart i s⟩
  | false =>
    cases (exec_eq i s).symm.trans h
    rcases exec_ends hb hr with ⟨u, kind, stage, same, -, -, -, hend⟩ | ⟨u, regs, same, -, -, -, hend⟩
    · rw [hend, same.raise_eq (.run i 0)]
      exact .inl ⟨_, _, _, failed_of_run⟩
    · rw [hend, same.succeed_eq (.run i 0)]
      exact .inr ⟨_, _, succeeded_of_run rfl⟩

section
variable {i : Instr} {s t : State}

theorem err_of_succeeded {res : Results} {bus : Bus} (h : Succeeded i s t res bus) : err t.status = false := by
  rw [h.status, successWord, statusWord_err]

/-- ERR = 1 after an operation says that it failed. -/
theorem failed_of_exec_err (hb : busy s.status = false) (h : exec i s = .next t) (herr : err t.status = true) :
    ∃ kind stage bus, Failed i s t kind stage bus := by
  obtain hfailed | ⟨res, bus, hsucceeded⟩ := exec_cases hb h
  · exact hfailed
  · exact absurd herr (Bool.eq_false_iff.mp (err_of_succeeded hsucceeded))

end

/-! ### What a host read depends on -/

theorem regIndex_of_regAt {index : BitVec 8} {r : Reg} (h : regAt index = some r) : regIndex r = index := by
  have htable : ∀ index : BitVec 8, ∀ r ∈ regAt index, regIndex r = index := by decide +kernel
  exact htable index r h

section
variable {s t : State}

theorem regRead_congr (hp : t.params = s.params) (ho : t.operands = s.operands) (hr : t.results = s.results) {r : Reg}
    (h : r ≠ .status) (e : Nat) : regRead t r e = regRead s r e := by
  cases r with
  | cmd => rfl
  | status => exact absurd rfl h
  | rom | addr | esin | data | chal | secret | macin | len | blk => simp only [regRead, ho]
  | rta | res | rdata | page | macrd | h | macout => simp only [regRead, hr]
  | mem => simp only [regRead, hp, hr]

theorem hostRead_congr (hp : t.params = s.params) (ho : t.operands = s.operands) (hr : t.results = s.results)
    {index : BitVec 8} (h : index ≠ 0x01) (e : Nat) : hostRead index e t = hostRead index e s := by
  cases hreg : regAt index with
  | none => rw [hostRead_of_unassigned hreg, hostRead_of_unassigned hreg]
  | some r =>
    have hstatus : r ≠ .status := by
      rintro rfl
      exact h (regIndex_of_regAt hreg).symm
    rw [hostRead_of_regAt hreg, hostRead_of_regAt hreg, regRead_congr hp ho hr hstatus]

end

/-- Settles O38: ERR = 1 says that the operation failed, and a failure leaves all that those reads depend on. -/
theorem failureLeavesEveryRegister : Obligations.FailureLeavesEveryRegister := by
  intro i s t hb h herr
  obtain ⟨kind, stage, bus, hfailed⟩ := failed_of_exec_err hb h herr
  have hend := hfailed.completed
  exact ⟨hend.results, hend.operands, fun _ e hindex =>
    hostRead_congr hend.params hend.operands hend.results hindex e⟩

end Sys2Proof.Machine
end

section
/-!
PROOFS. A reset of the core at any moment (70_reset_and_hazards.md R250, R251, R253): with STATUS, the operands and the
results all 0, every host read is 0; the bus records `PWR_OFF` exactly when a hold is active.
-/

namespace Sys2Proof.Machine

/-! ### Registers that hold 0 -/

theorem elementOr0_replicate_zero (n w e : Nat) : elementOr0 (Vector.replicate n (0 : BitVec w)) e = 0 := by
  by_cases h : e < n
  · simp [elementOr0, h]
  · exact elementOr0_of_le _ (Nat.le_of_not_lt h)

theorem scalarOr0_zero (w e : Nat) : scalarOr0 (0 : BitVec w) e = 0 := by
  simp [scalarOr0]

section
variable {s : State}

theorem regRead_of_zero (hst : s.status = 0) (ho : s.operands = .zero) (hr : s.results = .zero) (r : Reg) (e : Nat) :
    regRead s r e = 0 := by
  cases r with
  | cmd => exact regRead_cmd s e
  | status => rw [regRead, hst, scalarOr0_zero]
  | addr | esin | len => rw [regRead, ho, Operands.zero, scalarOr0_zero]
  | rom | data | chal | secret | macin | blk => rw [regRead, ho, Operands.zero, elementOr0_replicate_zero]
  | rta | res => rw [regRead, hr, Results.zero, scalarOr0_zero]
  | rdata | page | macrd | h | macout => rw [regRead, hr, Results.zero, elementOr0_replicate_zero]
  | mem => simp [regRead, hr, Results.zero, memDefault]

theorem hostRead_of_zero (hst : s.status = 0) (ho : s.operands = .zero) (hr : s.results = .zero) (index : BitVec 8)
    (e : Nat) : hostRead index e s = 0 := by
  cases hreg : regAt index with
  | none => exact hostRead_of_unassigned hreg e s
  | some r => rw [hostRead_of_regAt hreg, regRead_of_zero hst ho hr]

end

/-! ### The step -/

theorem busOnCoreReset_trace (b : Bus) :
    (busOnCoreReset b).trace = b.trace ++ if b.power = true then [.pwrOff] else [] := by
  cases h : b.power <;> simp [busOnCoreReset, h]

theorem step_reset {s : State} {rest : List Input} (h : s.inputs = .reset :: rest) :
    step s = .next (coreReset { s with inputs := rest }) := by
  simp only [step, h]

/-- Settles O54: the step is `coreReset`, whose host registers are all 0, and whose trace is `busOnCoreReset`'s. -/
theorem resetAccess : Obligations.ResetAccess := fun s _ h =>
  ⟨_, step_reset h, coreReset_status _, coreReset_fsm _, rfl, coreReset_pending _,
    hostRead_of_zero (coreReset_status _) (coreReset_operands _) (coreReset_results _), busOnCoreReset_trace s.bus⟩

end Sys2Proof.Machine
end

section
/-!
PROOFS. A CMD write (10_state.md R21, 30_encoding.md R81 to R83, 60_exceptions.md R225): it is dropped while an operation
runs, else it starts the operation its byte encodes, or the core refuses it. `hostCommand_cases` says so once.
-/

namespace Sys2Proof

open Machine

/-! ### Encoding -/

theorem operationOf_eq_some_iff (code : BitVec 4) (i : Instr) : operationOf code = some i ↔ code = i.code := by
  have htable : ∀ code : BitVec 4, ∀ j, operationOf code = some j → code = j.code := by decide
  refine ⟨htable code i, ?_⟩
  rintro rfl
  cases i <;> rfl

/-- A byte is its two fields. -/
theorem cmd_eq_iff (cmd cmd' : Byte) : cmd = cmd' ↔ cmdRsv cmd = cmdRsv cmd' ∧ cmdOp cmd = cmdOp cmd' := by
  have hfields : ∀ c : Byte, c = cmdRsv c ++ cmdOp c := fun c => by
    rw [cmdRsv, cmdOp, BitVec.extractLsb'_append_extractLsb'_eq_extractLsb' (show 4 = 0 + 4 from rfl)]
    exact BitVec.extractLsb'_eq_self.symm
  refine ⟨by rintro rfl; exact ⟨rfl, rfl⟩, fun ⟨hrsv, hop⟩ => ?_⟩
  rw [hfields cmd, hfields cmd', hrsv, hop]

theorem decode_eq_operation_iff_eq_encode (cmd : Byte) (i : Instr) : decode cmd = .operation i ↔ cmd = encode i := by
  rw [decode_eq_operation_iff, operationOf_eq_some_iff, cmd_eq_iff, cmdRsv_encode, cmdOp_encode]

@[simp] theorem decode_encode (i : Instr) : decode (encode i) = .operation i :=
  (decode_eq_operation_iff_eq_encode _ i).2 rfl

/-- Settles O1: both say RSV = 0 and OP = the operation's code. -/
theorem decodeIsInverseOfEncode : Obligations.DecodeIsInverseOfEncode := decode_eq_operation_iff_eq_encode

/-- Settles O3: the twelve codes of the table, and the four above them. -/
theorem commandBytesDecodeAsTabled : Obligations.CommandBytesDecodeAsTabled := by
  have hreserved : ∀ op : BitVec 4, 0xB#4 < op → decode (0#4 ++ op) = .reservedCode := by decide
  exact ⟨decode_encode .digest, decode_encode .sermac, decode_encode .wspad, decode_encode .rspad, decode_encode .rfspad,
    decode_encode .cpspad, decode_encode .rdauth, decode_encode .ldsec, decode_encode .rdmem, decode_encode .rdchal,
    decode_encode .provsec, decode_encode .wrauth, hreserved 0xC (by decide), hreserved 0xD (by decide),
    hreserved 0xE (by decide), hreserved 0xF (by decide)⟩

end Sys2Proof

namespace Sys2Proof.Machine

open Sys2Proof.Safety

/-! ### What a CMD write can do -/

theorem startRefused_iff (i : Instr) (s : State) :
    s.startRefused i = true ↔ i = .rdmem ∧ s.params.membuf < s.operands.len.toNat := by
  simp [State.startRefused]

theorem hostCommand_busy {s : State} (hb : busy s.status = true) (cmd : Byte) : hostCommand cmd s = s := by
  rw [hostCommand, if_pos hb]

/-- Everything a CMD write can do with no operation running: start the operation it encodes, or be refused. -/
theorem hostCommand_cases {s : State} (hb : busy s.status = false) (cmd : Byte) :
    (∃ i, cmd = encode i ∧ s.startRefused i = false ∧ hostCommand cmd s = s.start i)
      ∨ ((∀ i, cmd = encode i → s.startRefused i = true) ∧ hostCommand cmd s = s.refuseStart cmd) := by
  simp only [← decode_eq_operation_iff_eq_encode]
  cases hd : decode cmd with
  | operation i =>
    cases hr : s.startRefused i with
    | false => exact .inl ⟨i, rfl, hr, by simp [hostCommand, hb, hd, hr]⟩
    | true => exact .inr ⟨by rintro _ ⟨⟩; exact hr, by simp [hostCommand, hb, hd, hr]⟩
  | reservedField => exact .inr ⟨nofun, by simp [hostCommand, hb, hd]⟩
  | reservedCode => exact .inr ⟨nofun, by simp [hostCommand, hb, hd]⟩

theorem hostCommand_encode {i : Instr} {s : State} (hb : busy s.status = false) :
    hostCommand (encode i) s = if s.startRefused i then s.refuseStart (encode i) else s.start i := by
  simp [hostCommand, hb]

theorem hostCommand_not_operation {cmd : Byte} {s : State} (hb : busy s.status = false)
    (hd : ∀ i, decode cmd ≠ .operation i) : hostCommand cmd s = s.refuseStart cmd := by
  obtain ⟨i, rfl, -⟩ | ⟨-, h⟩ := hostCommand_cases hb cmd
  · exact absurd (decode_encode i) (hd i)
  · exact h

theorem hostWrite_cmd (e v : Nat) (s : State) :
    hostWrite 0x00 e v s = if e = 0 then hostCommand (BitVec.ofNat 8 v) s else s :=
  hostWrite_of_regAt_cmd rfl e v s

theorem hostWrite_cmd_toNat (cmd : Byte) (s : State) : hostWrite 0x00 0 cmd.toNat s = hostCommand cmd s := by
  rw [hostWrite_cmd, if_pos rfl, BitVec.ofNat_toNat, BitVec.setWidth_eq]

theorem hostWrite_cmd_busy {s : State} (hb : busy s.status = true) (e v : Nat) : hostWrite 0x00 e v s = s := by
  rw [hostWrite_cmd, hostCommand_busy hb, ite_self]

/-- The only index that answers as CMD is CMD's. -/
theorem regAt_ne_cmd {index : BitVec 8} (h : index ≠ 0x00) : regAt index ≠ some .cmd := fun hreg =>
  h (regIndex_of_regAt hreg).symm

/-- A write anywhere but CMD changes the operand registers at most, and does not depend on the rest of the state. -/
theorem exists_hostWrite_eq {index : BitVec 8} (h : index ≠ 0x00) (e v : Nat) :
    ∃ f : Operands → Operands, ∀ s : State, hostWrite index e v s = { s with operands := f s.operands } := by
  cases hreg : regAt index with
  | none => exact ⟨id, fun s => hostWrite_of_unassigned hreg e v s⟩
  | some r =>
    exact ⟨writeOperand r e v, fun s => hostWrite_of_regAt hreg (fun hr => regAt_ne_cmd h (hr ▸ hreg)) e v s⟩

/-! ### The step that makes a START -/

theorem step_run {s : State} {cmd : Byte} {rest : List Input} (h : s.inputs = .run cmd :: rest) :
    step s = runCommand cmd { s with inputs := rest } := by
  simp only [step, h]

theorem step_write {s : State} {index : BitVec 8} {e v : Nat} {rest : List Input}
    (h : s.inputs = .write index e v :: rest) : step s = .next (hostWrite index e v { s with inputs := rest }) := by
  simp only [step, h]

/-- With no operation running, `RUN` of an operation's byte is its meaning (30_encoding.md R98). -/
theorem runCommand_operation {s : State} {cmd : Byte} {i : Instr} (hb : busy s.status = false)
    (hd : decode cmd = .operation i) : runCommand cmd s = exec i s := by
  simp [runCommand, hb, hd]

theorem runCommand_not_operation {s : State} {cmd : Byte} (hb : busy s.status = false)
    (hd : ∀ i, decode cmd ≠ .operation i) : runCommand cmd s = .next (s.refuseStart cmd) := by
  cases h : decode cmd with
  | operation i => exact absurd h (hd i)
  | reservedField | reservedCode => simp [runCommand, hb, h]

/-- Settles O4: the step takes the access from the schedule, and `RUN` decodes its byte. -/
theorem stepRunsTheDecodedOperation : Obligations.StepRunsTheDecodedOperation := fun s cmd rest i hi hb hd => by
  rw [step_run hi]
  exact runCommand_operation (s := { s with inputs := rest }) hb hd

/-- Settles O5: both kinds of access refuse the START in the step that makes it. -/
theorem reservedCommandsAreRefused : Obligations.ReservedCommandsAreRefused := by
  intro s cmd rest hi hb hd
  refine ⟨State.refuseStart cmd { s with inputs := rest }, ?_, statusFailed_started _ .illegalOp 0, rfl, rfl, rfl, rfl, rfl,
    rfl, rfl⟩
  rcases hi with hi | hi
  · rw [step_run hi]
    exact runCommand_not_operation (s := { s with inputs := rest }) hb hd
  · rw [step_write hi, hostWrite_cmd_toNat]
    exact congrArg _ (hostCommand_not_operation (s := { s with inputs := rest }) hb hd)

/-- Settles O6: a CMD write that starts an operation leaves KIND = 0, and one that is refused leaves ILLEGAL_OP. -/
theorem illegalOpExactlyAtRefusedStarts : Obligations.IllegalOpExactlyAtRefusedStarts := by
  intro s cmd hb
  have hop := exists_decode_eq_operation_iff cmd
  simp only [decode_eq_operation_iff_eq_encode] at hop
  simp only [hostWrite_cmd_toNat]
  obtain ⟨i, rfl, hr, h⟩ | ⟨hr, h⟩ := hostCommand_cases hb cmd
  · obtain ⟨hrsv, hcode⟩ := hop.1 ⟨i, rfl⟩
    have hlen : ¬ (encode i = encode .rdmem ∧ s.params.membuf < s.operands.len.toNat) := by
      rintro ⟨he, hl⟩
      obtain rfl : i = .rdmem := by simpa using congrArg decode he
      simp [(startRefused_rdmem_iff s).2 hl] at hr
    refine ⟨?_, by rw [h]; rfl, by rw [h]; rfl⟩
    rw [h, start_status, statusStarted, statusWord_kind]
    exact iff_of_false (by decide) fun hor => hor.elim (· hrsv) fun hor => hor.elim (BitVec.not_lt.2 hcode) hlen
  · refine ⟨?_, by rw [h]; rfl, by rw [h]; rfl⟩
    rw [h, State.refuseStart_status, statusFailed, statusWord_kind]
    refine iff_of_true rfl ?_
    by_contra hnone
    rw [not_or, not_or, not_not, BitVec.not_lt] at hnone
    obtain ⟨hrsv, hcode, hlen⟩ := hnone
    obtain ⟨i, rfl⟩ := hop.2 ⟨hrsv, hcode⟩
    obtain ⟨rfl, hl⟩ := (startRefused_iff i s).1 (hr i rfl)
    exact hlen ⟨rfl, hl⟩

/-- Settles O7: the CMD write is `State.start`. -/
theorem commandWriteStartsOperation : Obligations.CommandWriteStartsOperation := by
  intro s i hb hr
  rw [hostWrite_cmd_toNat, hostCommand_encode hb, hr]
  refine ⟨?_, rfl, rfl, rfl, rfl, rfl, rfl⟩
  cases i <;> rfl

/-- Settles O8: both the CMD write and the meaning look at BUSY first. -/
theorem commandWriteWhileBusyHasNoEffect : Obligations.CommandWriteWhileBusyHasNoEffect := fun s hb =>
  ⟨hostWrite_cmd_busy hb 0, fun i => by rw [exec_eq, runOperation, if_pos hb]⟩

end Sys2Proof.Machine
end

section
/-!
PROOFS. The invariant of the machine (`CoreInv`): what each kind of step makes of it, from one lemma for a run of positions
to its end (`CoreInv.of_ends`) and one for a position that goes on (`CoreInv.of_goesOn`).
-/

namespace Sys2Proof.Machine

open Sys2Proof.Safety

/-! ### Positions that go on, and positions that end the operation -/

/-- A position goes on, or it ends the operation and the rest of the pseudocode is not run. -/
theorem microStep_goesOn_or_ends (m : Micro) (ms : List Micro) (s : State) :
    GoesOn m s (microStep m s) ∨ (microStep m s).fsm = .idle ∧ runMicro (m :: ms) s = microStep m s := by
  rcases microStep_cases m s with h | h | ⟨regs, -, h⟩
  · exact .inl h
  · obtain ⟨_, _, _, -, he, -⟩ := h.raised
    exact .inr ⟨by rw [he]; rfl, runMicro_raises h⟩
  · have hf : (microStep m s).fsm = .idle := by rw [h]; rfl
    exact .inr ⟨hf, by rw [runMicro, hf]⟩

/-- The pseudocode from a position that exists on. -/
theorem drop_of_getElem? {ms : List Micro} {k : Nat} {m : Micro} (h : ms[k]? = some m) :
    ms.drop k = m :: ms.drop (k + 1) := by
  obtain ⟨hk, rfl⟩ := List.getElem?_eq_some_iff.1 h
  exact List.drop_eq_getElem_cons hk

/-- The run from position `k` on ends as `Ends` says, begun with POWER as the positions before it leave it. -/
theorem runMicro_drop_ends {s : State} {op : Instr} {k : Nat} (hf : s.fsm = .run op k)
    (hk : k < (programOf op s.params s.latch).length) :
    Ends (mayRaise op) (powerAlong ((programOf op s.params s.latch).take k)) ((programOf op s.params s.latch).drop k) s
      (runMicro ((programOf op s.params s.latch).drop k) s) := by
  refine runMicro_ends ?_ hf
  have h := List.getElem?_eq_getElem hk
  rw [drop_of_getElem? h]
  exact ProgramOk.at h

theorem programOf_length_pos (i : Instr) (p : Params) (l : Latch) : 0 < (programOf i p l).length := by
  refine List.length_pos_iff.2 fun hnil => ?_
  have hlast := programOf_last i p l
  rw [hnil] at hlast
  cases hlast

/-- Everything `settle` can do: nothing when idle, else it runs the pseudocode from the position its FSM names. -/
theorem settle_cases {s t : State} (h : settle s = .next t) :
    s.fsm = .idle ∧ t = s
      ∨ ∃ op k, s.fsm = .run op k ∧ k < (programOf op s.params s.latch).length
        ∧ t = runMicro ((programOf op s.params s.latch).drop k) s := by
  unfold settle at h
  split at h
  · rename_i hf
    cases h
    exact .inl ⟨hf, rfl⟩
  · rename_i op k hf
    split at h
    · rename_i hk
      cases h
      exact .inr ⟨op, k, hf, hk, rfl⟩
    · cases h

/-- A meaning begun with BUSY = 0: refused at START, or ended as `Ends` says. -/
theorem exec_refused_or_ends {i : Instr} {s t : State} (hb : busy s.status = false) (h : exec i s = .next t) :
    s.startRefused i = true ∧ t = s.refuseStart (encode i)
      ∨ s.startRefused i = false
        ∧ Ends (mayRaise i) false (programOf i s.params { operands := s.operands, h := s.results.h }) (s.start i) t := by
  cases hr : s.startRefused i with
  | true =>
    cases (exec_refused hb hr).symm.trans h
    exact .inl ⟨rfl, rfl⟩
  | false =>
    cases (exec_eq i s).symm.trans h
    exact .inr ⟨rfl, exec_ends hb hr⟩

/-- Everything `RUN` can do: refuse the START, run a meaning, or with BUSY = 1 let the running operation end. -/
theorem runCommand_cases {cmd : Byte} {s t : State} (h : runCommand cmd s = .next t) :
    busy s.status = true ∧ settle s = .next t
      ∨ busy s.status = false ∧ (t = s.refuseStart cmd ∨ ∃ i, exec i s = .next t) := by
  cases hb : busy s.status with
  | true => exact .inl ⟨rfl, by simpa [runCommand, hb] using h⟩
  | false =>
    by_cases hd : ∃ i, decode cmd = .operation i
    · obtain ⟨i, hd⟩ := hd
      exact .inr ⟨rfl, .inr ⟨i, (runCommand_operation hb hd).symm.trans h⟩⟩
    · cases (runCommand_not_operation hb (not_exists.1 hd)).symm.trans h
      exact .inr ⟨rfl, .inl rfl⟩

/-- Everything a step can do, by the item of the schedule it takes. -/
theorem step_cases {s t : State} (h : step s = .next t) :
    (s.inputs = [] ∧ coreTick s = .next t)
      ∨ (∃ rest, s.inputs = .tick :: rest ∧ coreTick { s with inputs := rest } = .next t)
      ∨ (∃ index e v rest, s.inputs = .write index e v :: rest ∧ t = hostWrite index e v { s with inputs := rest })
      ∨ (∃ index e rest, s.inputs = .read index e :: rest ∧ t = recordRead index e { s with inputs := rest })
      ∨ (∃ rest, s.inputs = .wait :: rest ∧ waitTurn rest s = .next t)
      ∨ (∃ cmd rest, s.inputs = .run cmd :: rest ∧ runCommand cmd { s with inputs := rest } = .next t)
      ∨ (∃ rest, s.inputs = .reset :: rest ∧ t = coreReset { s with inputs := rest }) := by
  unfold step at h
  split at h
  next hi => exact .inl ⟨hi, h⟩
  next rest hi => exact .inr (.inl ⟨rest, hi, h⟩)
  next index e v rest hi => cases h; exact .inr (.inr (.inl ⟨index, e, v, rest, hi, rfl⟩))
  next index e rest hi => cases h; exact .inr (.inr (.inr (.inl ⟨index, e, rest, hi, rfl⟩)))
  next rest hi => exact .inr (.inr (.inr (.inr (.inl ⟨rest, hi, h⟩))))
  next cmd rest hi => exact .inr (.inr (.inr (.inr (.inr (.inl ⟨cmd, rest, hi, h⟩)))))
  next rest hi => cases h; exact .inr (.inr (.inr (.inr (.inr (.inr ⟨rest, hi, rfl⟩)))))

/-! ### The parts of the invariant -/

/-- MEM as the invariant has it: canonical, within its P_MEMBUF bytes. -/
def MemOk (membuf : Nat) (m : Memory) : Prop := Memory.wf m ∧ ∀ c ∈ m, c.1 < membuf

theorem commitOne_memOk {membuf : Nat} {p : Pending} {res : Results} (h : MemOk membuf res.mem) (r : ResultReg) :
    MemOk membuf (commitOne membuf p res r).mem := by
  cases r with
  | mem =>
    refine ⟨memWriteBytes_wf h.1 0 _, fun c hc => ?_⟩
    rcases memWriteBytes_mem hc with hc | ⟨-, hc⟩
    · exact h.2 c hc
    · rw [List.length_take] at hc
      omega
  | rta | res | rdata | page | macrd | h | macout => exact h

theorem commit_memOk {membuf : Nat} {p : Pending} {res : Results} (h : MemOk membuf res.mem) (regs : List ResultReg) :
    MemOk membuf (commit membuf p regs res).mem := by
  induction regs generalizing res with
  | nil => exact h
  | cons r regs ih => exact ih (commitOne_memOk h r)

theorem sequencerOk_idle {s : State} (hf : s.fsm = .idle) :
    sequencerOk s ↔ idleStatus s.status ∧ s.bus.power = false ∧ s.pending = .empty := by
  simp only [sequencerOk, hf]

theorem sequencerOk_run {s : State} {op : Instr} {k : Nat} (hf : s.fsm = .run op k) :
    sequencerOk s ↔ s.status = statusStarted op.code ∧ k < (programOf op s.params s.latch).length
      ∧ s.bus.power = powerAlong ((programOf op s.params s.latch).take k)
      ∧ (op = .rdmem → s.latch.operands.len.toNat ≤ s.params.membuf) := by
  simp only [sequencerOk, hf]

theorem idleStatus_succeeded (op : Instr) : idleStatus (statusSucceeded (statusStarted op.code)) :=
  .inr (.inl ⟨op, statusSucceeded_started _⟩)

theorem idleStatus_failed {op : Instr} {kind : Kind} {stage : BitVec 3} (h : mayRaise op kind stage) :
    idleStatus (statusFailed (statusStarted op.code) kind stage) := by
  obtain ⟨command, hc, hr⟩ := h
  exact .inr (.inr (.inl ⟨op, kind, stage, command, hc, hr, statusFailed_started ..⟩))

theorem idleStatus_refused (opc : BitVec 4) : idleStatus (statusFailed (statusStarted opc) .illegalOp 0) :=
  .inr (.inr (.inr ⟨opc, statusFailed_started ..⟩))

theorem idleStatus_not_busy {st : Half} (h : idleStatus st) : busy st = false := by
  obtain rfl | ⟨i, rfl⟩ | ⟨i, kind, stage, _, -, -, rfl⟩ | ⟨opc, rfl⟩ := h
  · rfl
  · exact statusWord_busy ..
  · exact statusWord_busy ..
  · exact statusWord_busy ..

end Sys2Proof.Machine

namespace Sys2Proof.Safety

open Sys2Proof.Machine

section
variable {s t : State}

theorem CoreInv.memOk (h : CoreInv s) : MemOk s.params.membuf s.results.mem := ⟨h.mem, h.memBound⟩

/-- BUSY says whether an operation runs. -/
theorem CoreInv.busy_iff (h : CoreInv s) : busy s.status = true ↔ s.fsm ≠ .idle := by
  cases hf : s.fsm with
  | idle => simp [idleStatus_not_busy ((sequencerOk_idle hf).1 h.sequencer).1]
  | run op k => simp [((sequencerOk_run hf).1 h.sequencer).1]

theorem CoreInv.idle_of_not_busy (h : CoreInv s) (hb : busy s.status = false) : s.fsm = .idle := by
  by_contra hf
  rw [h.busy_iff.2 hf] at hb
  cases hb

/-- The schedule, the host's reads, the operand registers and the last CMD byte are no part of the invariant. -/
theorem CoreInv.host (h : CoreInv s) (operands : Operands) (inputs : List Input) (reads : List Word) :
    CoreInv { s with operands := operands, inputs := inputs, reads := reads } :=
  ⟨h.params, h.mem, h.memBound, h.sequencer⟩

theorem CoreInv.withInputs (h : CoreInv s) (inputs : List Input) : CoreInv { s with inputs := inputs } :=
  h.host s.operands inputs s.reads

theorem CoreInv.recordRead (h : CoreInv s) (index : BitVec 8) (e : Nat) : CoreInv (recordRead index e s) :=
  h.host s.operands s.inputs _

/-! ### The two ends of an operation, and a run to its end -/

theorem CoreInv.of_idle (hp : s.params.wf = true) (hm : MemOk s.params.membuf s.results.mem) (hf : s.fsm = .idle)
    (hs : idleStatus s.status) (hpow : s.bus.power = false) (hpend : s.pending = .empty) : CoreInv s :=
  ⟨hp, hm.1, hm.2, (sequencerOk_idle hf).2 ⟨hs, hpow, hpend⟩⟩

theorem CoreInv.of_ends {op : Instr} {ms : List Micro} {power : Bool} (hp : s.params.wf = true)
    (hm : MemOk s.params.membuf s.results.mem) (hs : s.status = statusStarted op.code) (hpow : s.bus.power = power)
    (h : Ends (mayRaise op) power ms s t) : CoreInv t := by
  obtain ⟨u, kind, stage, same, hu, -, hadm, rfl⟩ | ⟨u, regs, same, hu, -, -, rfl⟩ := h
  all_goals
    have hparams : u.params = s.params := by rw [same]
    have hresults : u.results = s.results := by rw [same]
    have hstatus : u.status = statusStarted op.code := by rw [same]; exact hs
    have hmem : MemOk u.params.membuf u.results.mem := by rw [hparams, hresults]; exact hm
  · refine .of_idle (hparams ▸ hp) hmem rfl ?_ (hu hpow) rfl
    rw [State.raise_status, hstatus]
    exact idleStatus_failed hadm
  · refine .of_idle (hparams ▸ hp) (commit_memOk hmem regs) rfl ?_ (hu hpow) rfl
    rw [State.succeed_status, hstatus]
    exact idleStatus_succeeded op

/-- The running operation taken to its end, from any of its positions. -/
theorem CoreInv.runMicro_drop {op : Instr} {k : Nat} (h : CoreInv s) (hf : s.fsm = .run op k) :
    CoreInv (runMicro ((programOf op s.params s.latch).drop k) s) := by
  obtain ⟨hs, hk, hpow, -⟩ := (sequencerOk_run hf).1 h.sequencer
  exact .of_ends h.params h.memOk hs hpow (runMicro_drop_ends hf hk)

/-- A position that goes on: the next position exists, and POWER is as that position leaves it. -/
theorem CoreInv.of_goesOn {op : Instr} {k : Nat} {m : Micro} (h : CoreInv s) (hf : s.fsm = .run op k)
    (hm : (programOf op s.params s.latch)[k]? = some m) (ht : GoesOn m s t) : CoreInv t := by
  obtain ⟨hs, hk, hpow, hlen⟩ := (sequencerOk_run hf).1 h.sequencer
  have hparams : t.params = s.params := by rw [ht.eq]
  have hlatch : t.latch = s.latch := by rw [ht.eq]
  have hstatus : t.status = s.status := by rw [ht.eq]
  have hresults : t.results = s.results := by rw [ht.eq]
  refine ⟨hparams ▸ h.params, hresults ▸ h.mem, ?_, (sequencerOk_run (ht.fsm hf)).2 ⟨hstatus.trans hs, ?_, ?_, ?_⟩⟩
  · rw [hparams, hresults]; exact h.memBound
  · rw [hparams, hlatch]; exact programOf_notLast hm ht.notSucceed
  · rw [ht.power, hpow, hparams, hlatch, List.take_add_one, hm, powerAlong, powerAlong, List.foldl_append]
    rfl
  · rw [hparams, hlatch]; exact hlen

/-! ### The steps -/

theorem CoreInv.coreTick (h : CoreInv s) (ht : coreTick s = .next t) : CoreInv t := by
  obtain ⟨-, rfl⟩ | ⟨op, k, m, hf, hm, rfl⟩ := coreTick_cases ht
  · exact h
  · obtain hgo | ⟨-, hend⟩ := microStep_goesOn_or_ends m ((programOf op s.params s.latch).drop (k + 1)) s
    · exact h.of_goesOn hf hm hgo
    · rw [← hend, ← drop_of_getElem? hm]
      exact h.runMicro_drop hf

theorem CoreInv.settle (h : CoreInv s) (ht : settle s = .next t) : CoreInv t := by
  obtain ⟨-, rfl⟩ | ⟨op, k, hf, -, rfl⟩ := settle_cases ht
  · exact h
  · exact h.runMicro_drop hf

theorem CoreInv.idle (h : CoreInv s) (hb : busy s.status = false) :
    idleStatus s.status ∧ s.bus.power = false ∧ s.pending = .empty :=
  (sequencerOk_idle (h.idle_of_not_busy hb)).1 h.sequencer

theorem CoreInv.refuseStart (h : CoreInv s) (hb : busy s.status = false) (cmd : Byte) :
    CoreInv (s.refuseStart cmd) := by
  obtain ⟨-, hpow, -⟩ := h.idle hb
  exact .of_idle h.params h.memOk rfl (idleStatus_refused _) hpow rfl

/-- A START that is not refused: RDMEM's LEN is within P_MEMBUF. -/
theorem CoreInv.start (h : CoreInv s) (hb : busy s.status = false) {i : Instr} (hr : s.startRefused i = false) :
    CoreInv (s.start i) := by
  obtain ⟨-, hpow, -⟩ := h.idle hb
  refine ⟨h.params, h.mem, h.memBound, (sequencerOk_run rfl).2 ⟨start_status i s, programOf_length_pos .., hpow, ?_⟩⟩
  rintro rfl
  by_contra hlen
  rw [(startRefused_rdmem_iff s).2 (Nat.lt_of_not_le hlen)] at hr
  cases hr

theorem CoreInv.exec (h : CoreInv s) {i : Instr} (hb : busy s.status = false) (ht : exec i s = .next t) : CoreInv t := by
  obtain ⟨-, rfl⟩ | ⟨hr, hends⟩ := exec_refused_or_ends hb ht
  · exact h.refuseStart hb _
  · obtain ⟨-, hpow, -⟩ := h.idle hb
    exact .of_ends (s := s.start i) h.params h.memOk (start_status i s) hpow hends

theorem CoreInv.hostCommand (h : CoreInv s) (cmd : Byte) : CoreInv (hostCommand cmd s) := by
  cases hb : busy s.status with
  | true => rw [hostCommand_busy hb]; exact h
  | false =>
    obtain ⟨i, -, hr, heq⟩ | ⟨-, heq⟩ := hostCommand_cases hb cmd <;> rw [heq]
    · exact h.start hb hr
    · exact h.refuseStart hb cmd

theorem CoreInv.hostWrite (h : CoreInv s) (index : BitVec 8) (e v : Nat) : CoreInv (hostWrite index e v s) := by
  by_cases hi : index = 0x00
  · rw [hi, hostWrite_cmd]
    split
    · exact h.hostCommand _
    · exact h
  · obtain ⟨f, hf⟩ := exists_hostWrite_eq hi e v
    rw [hf]
    exact h.host _ s.inputs s.reads

theorem CoreInv.waitTurn (h : CoreInv s) {rest : List Input} (ht : waitTurn rest s = .next t) : CoreInv t := by
  obtain ⟨-, rfl⟩ | ⟨-, ht, -⟩ := waitTurn_cases ht
  · exact (h.withInputs rest).recordRead _ _
  · exact (h.recordRead _ _).coreTick ht

theorem CoreInv.runCommand (h : CoreInv s) {cmd : Byte} (ht : runCommand cmd s = .next t) : CoreInv t := by
  obtain ⟨-, ht⟩ | ⟨hb, rfl | ⟨i, ht⟩⟩ := runCommand_cases ht
  · exact h.settle ht
  · exact h.refuseStart hb cmd
  · exact h.exec hb ht

theorem CoreInv.coreReset (h : CoreInv s) : CoreInv (coreReset s) :=
  .of_idle h.params ⟨reset_mem_wf, nofun⟩ rfl (.inl rfl) rfl rfl

end

/-- Settles O55: the parameters are the defaults, MEM is empty and nothing runs. -/
theorem invariantAtReset : Obligations.InvariantAtReset :=
  .of_idle rfl ⟨reset_mem_wf, nofun⟩ rfl (.inl rfl) rfl rfl

/-- Settles O56: one lemma for each item of the schedule. -/
theorem stepKeepsInvariant : Obligations.StepKeepsInvariant := by
  intro s t h ht
  obtain ⟨-, ht⟩ | ⟨rest, -, ht⟩ | ⟨index, e, v, rest, -, rfl⟩ | ⟨index, e, rest, -, rfl⟩ | ⟨rest, -, ht⟩
    | ⟨cmd, rest, -, ht⟩ | ⟨rest, -, rfl⟩ := step_cases ht
  · exact h.coreTick ht
  · exact (h.withInputs rest).coreTick ht
  · exact (h.withInputs rest).hostWrite index e v
  · exact (h.withInputs rest).recordRead index e
  · exact h.waitTurn ht
  · exact (h.withInputs rest).runCommand ht
  · exact (h.withInputs rest).coreReset

end Sys2Proof.Safety
end

section
/-!
PROOFS. What follows from the invariant (10_state.md R22 to R24, 60_exceptions.md R232): the values STATUS can show, and
that no step stops the machine. And what every step keeps, the invariant or not: the trace so far and the parameters.
-/

namespace Sys2Proof.Safety

open Sys2Proof.Machine

/-! ### STATUS -/

/-- Composites have steps up to 5 (43_composite.md R205). -/
theorem stage_le_of_commandAt {i : Instr} {stage : BitVec 3} {command : WireCommand}
    (h : commandAt i stage = some command) : stage ≤ 5#3 := by
  have htable : ∀ stage : BitVec 3, (commandAt i stage).isSome → stage ≤ 5#3 := by
    cases i <;> decide
  exact htable stage (by rw [h]; rfl)

theorem kind_ne_none_of_raisedBy {command : WireCommand} {kind : Kind} (h : raisedBy command kind = true) :
    kind.code ≠ 0#3 := by
  cases kind with
  | none => cases command <;> cases h
  | noDevice | integrity | protocol | authFailed | illegalOp => decide

theorem kindCode_le (kind : Kind) : kind.code ≤ 5#3 := by
  cases kind <;> decide

/-- The fields of STATUS, as 10_state.md R22 to R24 bound them. -/
structure FieldsOk (st : Half) : Prop where
  rsv : rsvField st = 0
  kind : kindField st ≤ 5#3
  stage : stageField st ≤ 5#3
  noError : err st = false → kindField st = 0 ∧ stageField st = 0
  error : err st = true → done st = true ∧ kindField st ≠ 0

theorem fieldsOk_noError (b d : Bool) (opc : BitVec 4) : FieldsOk (statusWord b d false 0 0 opc) := by
  constructor <;> simp

theorem fieldsOk_failed {kind : Kind} {stage : BitVec 3} (hkind : kind.code ≠ 0#3) (hstage : stage ≤ 5#3) (opc : BitVec 4) :
    FieldsOk (statusWord false true true kind.code stage opc) := by
  constructor <;> simp [kindCode_le, hkind, hstage]

theorem idleStatus_fieldsOk {st : Half} (h : idleStatus st) : FieldsOk st := by
  obtain rfl | ⟨i, rfl⟩ | ⟨i, kind, stage, command, hc, hr, rfl⟩ | ⟨opc, rfl⟩ := h
  · exact fieldsOk_noError false false 0
  · exact fieldsOk_noError false true i.code
  · exact fieldsOk_failed (kind_ne_none_of_raisedBy hr) (stage_le_of_commandAt hc) i.code
  · exact fieldsOk_failed (kind := .illegalOp) (by decide) (by decide) opc

theorem CoreInv.fieldsOk {s : State} (h : CoreInv s) : FieldsOk s.status := by
  cases hf : s.fsm with
  | idle => exact idleStatus_fieldsOk ((sequencerOk_idle hf).1 h.sequencer).1
  | run op k =>
    rw [((sequencerOk_run hf).1 h.sequencer).1]
    exact fieldsOk_noError true false op.code

/-- Settles O57: `FieldsOk` of STATUS, and STATUS of a running operation is the word of its START. -/
theorem statusFieldsOfInvariantStates : Obligations.StatusFieldsOfInvariantStates := by
  intro s h
  obtain ⟨hrsv, hkind, hstage, hnoError, herror⟩ := h.fieldsOk
  refine ⟨hrsv, hkind, hstage, h.busy_iff, fun op k hf => ?_, hnoError, herror⟩
  rw [((sequencerOk_run hf).1 h.sequencer).1]
  simp [statusStarted]

/-! ### No step stops -/

section
variable {s : State}

/-- The position that FSM names exists. -/
theorem CoreInv.position_lt (h : CoreInv s) {op : Instr} {k : Nat} (hf : s.fsm = .run op k) :
    k < (programOf op s.params s.latch).length :=
  ((sequencerOk_run hf).1 h.sequencer).2.1

theorem CoreInv.exists_coreTick (h : CoreInv s) : ∃ t, Machine.coreTick s = .next t := by
  unfold Machine.coreTick
  split
  · exact ⟨_, rfl⟩
  · rename_i op k hf
    rw [List.getElem?_eq_getElem (h.position_lt hf)]
    exact ⟨_, rfl⟩

theorem CoreInv.exists_settle (h : CoreInv s) : ∃ t, Machine.settle s = .next t := by
  unfold Machine.settle
  split
  · exact ⟨_, rfl⟩
  · rename_i op k hf
    rw [if_pos (h.position_lt hf)]
    exact ⟨_, rfl⟩

theorem CoreInv.exists_waitTurn (h : CoreInv s) (rest : List Input) : ∃ t, Machine.waitTurn rest s = .next t := by
  unfold Machine.waitTurn
  split
  · exact (h.recordRead _ _).exists_coreTick
  · exact ⟨_, rfl⟩

theorem CoreInv.exists_runCommand (h : CoreInv s) (cmd : Byte) : ∃ t, Machine.runCommand cmd s = .next t := by
  unfold Machine.runCommand
  split
  · exact h.exists_settle
  · split
    · exact ⟨_, exec_eq _ _⟩
    · exact ⟨_, rfl⟩
    · exact ⟨_, rfl⟩

end

/-- Settles O58: a move of the core, a turn of `WAIT` and a `RUN` find the position they take; other items always act. -/
theorem invariantStatesNeverStop : Obligations.InvariantStatesNeverStop := by
  intro s h
  unfold step
  split
  next => exact h.exists_coreTick
  next rest _ => exact (h.withInputs rest).exists_coreTick
  next => exact ⟨_, rfl⟩
  next => exact ⟨_, rfl⟩
  next rest _ => exact h.exists_waitTurn rest
  next cmd rest _ => exact (h.withInputs rest).exists_runCommand cmd
  next => exact ⟨_, rfl⟩

end Sys2Proof.Safety

namespace Sys2Proof.Machine

open Sys2Proof.Safety

/-! ### What every step keeps -/

/-- The trace of `t` is that of `s` with more events behind it, and the parameters are the same. -/
structure Grows (s t : State) : Prop where
  trace : ∃ events, t.bus.trace = s.bus.trace ++ events
  params : t.params = s.params

section
variable {s t : State}

/-- What changes neither the bus nor the parameters. -/
theorem Grows.of_eq (hb : t.bus = s.bus) (hp : t.params = s.params) : Grows s t :=
  ⟨⟨[], by rw [hb, List.append_nil]⟩, hp⟩

theorem Grows.of_goesOn {m : Micro} (h : GoesOn m s t) : Grows s t := by
  obtain ⟨es, -, ht⟩ := h.trace
  exact ⟨⟨es, ht⟩, by rw [h.eq]⟩

theorem Grows.of_ends {ok : Kind → BitVec 3 → Prop} {power : Bool} {ms : List Micro} (h : Ends ok power ms s t) :
    Grows s t := by
  obtain ⟨u, kind, stage, same, -, htr, -, rfl⟩ | ⟨u, regs, same, -, htr, -, rfl⟩ := h
  all_goals
    have hp : u.params = s.params := by rw [same]
    exact ⟨htr, hp⟩

theorem runMicro_drop_grows {op : Instr} {k : Nat} (hf : s.fsm = .run op k)
    (hk : k < (programOf op s.params s.latch).length) :
    Grows s (runMicro ((programOf op s.params s.latch).drop k) s) :=
  .of_ends (runMicro_drop_ends hf hk)

theorem coreTick_grows (h : coreTick s = .next t) : Grows s t := by
  obtain ⟨-, rfl⟩ | ⟨op, k, m, hf, hm, rfl⟩ := coreTick_cases h
  · exact .of_eq rfl rfl
  · obtain hgo | ⟨-, hend⟩ := microStep_goesOn_or_ends m ((programOf op s.params s.latch).drop (k + 1)) s
    · exact .of_goesOn hgo
    · rw [← hend, ← drop_of_getElem? hm]
      exact runMicro_drop_grows hf (List.getElem?_eq_some_iff.1 hm).1

theorem settle_grows (h : settle s = .next t) : Grows s t := by
  obtain ⟨-, rfl⟩ | ⟨op, k, hf, hk, rfl⟩ := settle_cases h
  · exact .of_eq rfl rfl
  · exact runMicro_drop_grows hf hk

theorem exec_grows {i : Instr} (hb : busy s.status = false) (h : exec i s = .next t) : Grows s t := by
  obtain ⟨-, rfl⟩ | ⟨-, hends⟩ := exec_refused_or_ends hb h
  · exact .of_eq rfl rfl
  · obtain ⟨htr, hp⟩ := Grows.of_ends hends
    exact ⟨htr, hp⟩

theorem hostCommand_grows (cmd : Byte) (s : State) : Grows s (hostCommand cmd s) := by
  cases hb : busy s.status with
  | true => rw [hostCommand_busy hb]; exact .of_eq rfl rfl
  | false =>
    obtain ⟨i, -, -, heq⟩ | ⟨-, heq⟩ := hostCommand_cases hb cmd <;> rw [heq] <;> exact .of_eq rfl rfl

theorem hostWrite_grows (index : BitVec 8) (e v : Nat) (s : State) : Grows s (hostWrite index e v s) := by
  by_cases hi : index = 0x00
  · rw [hi, hostWrite_cmd]
    split
    · exact hostCommand_grows _ s
    · exact .of_eq rfl rfl
  · obtain ⟨f, hf⟩ := exists_hostWrite_eq hi e v
    rw [hf]
    exact .of_eq rfl rfl

theorem waitTurn_grows {rest : List Input} (h : waitTurn rest s = .next t) : Grows s t := by
  obtain ⟨-, rfl⟩ | ⟨-, ht, -⟩ := waitTurn_cases h
  · exact .of_eq rfl rfl
  · obtain ⟨htr, hp⟩ := coreTick_grows ht
    exact ⟨htr, hp⟩

theorem runCommand_grows {cmd : Byte} (h : runCommand cmd s = .next t) : Grows s t := by
  obtain ⟨-, ht⟩ | ⟨hb, rfl | ⟨i, ht⟩⟩ := runCommand_cases h
  · exact settle_grows ht
  · exact .of_eq rfl rfl
  · exact exec_grows hb ht

theorem step_grows (h : step s = .next t) : Grows s t := by
  obtain ⟨-, ht⟩ | ⟨rest, -, ht⟩ | ⟨index, e, v, rest, -, rfl⟩ | ⟨index, e, rest, -, rfl⟩ | ⟨rest, -, ht⟩
    | ⟨cmd, rest, -, ht⟩ | ⟨rest, -, rfl⟩ := step_cases h
  · exact coreTick_grows ht
  · obtain ⟨htr, hp⟩ := coreTick_grows ht
    exact ⟨htr, hp⟩
  · obtain ⟨htr, hp⟩ := hostWrite_grows index e v { s with inputs := rest }
    exact ⟨htr, hp⟩
  · exact .of_eq rfl rfl
  · exact waitTurn_grows ht
  · obtain ⟨htr, hp⟩ := runCommand_grows ht
    exact ⟨htr, hp⟩
  · exact ⟨⟨_, busOnCoreReset_trace s.bus⟩, rfl⟩

end

/-- Settles O59: one lemma for each item of the schedule. -/
theorem traceOnlyGrows : Obligations.TraceOnlyGrows := fun _ _ h => ⟨(step_grows h).trace, (step_grows h).params⟩

end Sys2Proof.Machine
end

section
/-!
PROOFS. What holds of every operation alike: it completes (70_reset_and_hazards.md R262), it writes the result registers of
its own row only (10_state.md R20), all of them in the step that ends it with success (20_memory.md R71), and none but
PROVSEC depends on SECRET (43_composite.md R202).
-/

namespace Sys2Proof.Machine

open Sys2Proof.Safety

/-! ### Completion -/

section
variable {i : Instr} {s t : State}

/-- However an operation ends, it leaves what `Completed` says and a STATUS word with DONE = 1, BUSY = 0. -/
theorem exec_completed (hb : busy s.status = false) (h : exec i s = .next t) :
    ∃ res bus error kind stage, Completed i s t res bus ∧ t.status = statusWord false true error kind stage i.code := by
  obtain ⟨kind, stage, bus, hend⟩ | ⟨res, bus, hend⟩ := exec_cases hb h
  · exact ⟨_, _, _, _, _, hend.completed, hend.status⟩
  · exact ⟨_, _, _, _, _, hend.completed, hend.status⟩

/-- An operation leaves no power hold behind (10_state.md R45). -/
theorem exec_power (hb : busy s.status = false) (h : exec i s = .next t) (hp : s.bus.power = false) :
    t.bus.power = false := by
  obtain ⟨-, rfl⟩ | ⟨-, hends⟩ := exec_refused_or_ends hb h
  · exact hp
  · obtain ⟨u, kind, stage, -, hu, -, -, rfl⟩ | ⟨u, regs, -, hu, -, -, rfl⟩ := hends <;> exact hu hp

theorem exec_busy (hb : busy s.status = true) (i : Instr) : exec i s = .next s :=
  (commandWriteWhileBusyHasNoEffect s hb).2 i

end

/-- Settles O37: both ends of an operation leave what `Completed` says, and the run kept POWER and extended the trace. -/
theorem everyOperationCompletes : Obligations.EveryOperationCompletes := by
  intro i s hb
  have h := exec_eq i s
  obtain ⟨res, bus, error, kind, stage, hend, hst⟩ := exec_completed hb h
  refine ⟨_, h, hend.fsm, ?_, ?_, ?_, ?_, hend.pending, hend.operands, hend.params, hend.inputs, hend.reads,
    (exec_grows hb h).trace, exec_power hb h⟩ <;> rw [hst]
  · exact statusWord_busy ..
  · exact statusWord_done ..
  · exact statusWord_opc ..
  · exact statusWord_rsv ..

/-! ### Result registers -/

/-- An operation leaves the result registers, or commits those of its row of the register table. -/
theorem exec_results {i : Instr} {s t : State} (h : exec i s = .next t) :
    t.results = s.results ∨ ∃ p, t.results = commit s.params.membuf p (committedBy i) s.results := by
  cases hb : busy s.status with
  | true =>
    cases (exec_busy hb i).symm.trans h
    exact .inl rfl
  | false =>
    obtain ⟨-, rfl⟩ | ⟨-, hends⟩ := exec_refused_or_ends hb h
    · exact .inl rfl
    · obtain ⟨u, kind, stage, same, -, -, -, rfl⟩ | ⟨u, regs, same, -, -, hlast, rfl⟩ := hends
      · exact .inl (by rw [same]; rfl)
      · obtain rfl : committedBy i = regs := by simpa [programOf_last] using hlast
        exact .inr ⟨u.pending, by rw [same]; rfl⟩

/-- Settles O39: the register table's rows, each operation's commit against each group of registers. -/
theorem resultRegistersHaveTheirWriters : Obligations.ResultRegistersHaveTheirWriters := by
  intro i s t h
  obtain h | ⟨p, h⟩ := exec_results h <;> rw [h]
  · exact ⟨fun _ _ _ => ⟨rfl, rfl, rfl⟩, fun _ _ => ⟨rfl, rfl⟩, fun _ _ => rfl, fun _ => rfl, fun _ => rfl⟩
  · cases i with
    | digest =>
      exact ⟨fun _ _ _ => ⟨rfl, rfl, rfl⟩, fun _ _ => ⟨rfl, rfl⟩, fun _ _ => rfl, fun hi => absurd rfl hi, fun _ => rfl⟩
    | sermac =>
      exact ⟨fun _ _ _ => ⟨rfl, rfl, rfl⟩, fun _ _ => ⟨rfl, rfl⟩, fun _ _ => rfl, fun _ => rfl, fun hi => absurd rfl hi⟩
    | wspad | rfspad | cpspad | ldsec =>
      exact ⟨fun _ _ _ => ⟨rfl, rfl, rfl⟩, fun _ _ => ⟨rfl, rfl⟩, fun _ _ => rfl, fun _ => rfl, fun _ => rfl⟩
    | rspad | provsec | wrauth =>
      exact ⟨fun h1 h2 h3 => by contradiction, fun _ _ => ⟨rfl, rfl⟩, fun _ _ => rfl, fun _ => rfl, fun _ => rfl⟩
    | rdauth | rdchal =>
      exact ⟨fun _ _ _ => ⟨rfl, rfl, rfl⟩, fun h1 h2 => by contradiction, fun _ _ => rfl, fun _ => rfl, fun _ => rfl⟩
    | rdmem =>
      exact ⟨fun _ _ _ => ⟨rfl, rfl, rfl⟩, fun _ _ => ⟨rfl, rfl⟩, fun hi => absurd rfl hi, fun _ => rfl, fun _ => rfl⟩

/-- Settles O46: of the three things a position can do, only `succeed` writes results. -/
theorem resultsChangeOnlyAtSuccess : Obligations.ResultsChangeOnlyAtSuccess := by
  intro s t h hne
  obtain ⟨-, rfl⟩ | ⟨op, k, m, -, -, rfl⟩ := coreTick_cases h
  · exact absurd rfl hne
  · rcases microStep_cases m s with hgo | hraise | ⟨regs, -, hsucceed⟩
    · exact absurd (by rw [hgo.eq]) hne
    · obtain ⟨kind, stage, bus, -, heq, -⟩ := hraise
      exact absurd (by rw [heq]; rfl) hne
    · rw [hsucceed, State.succeed_status, State.succeed_fsm, statusSucceeded]
      simp

/-! ### Two runs that differ in SECRET -/

/-- The states differ in the operand registers and in the latch at most, and agree on what a position reads of the latch:
ROM, BLK and H. -/
def SameButLatch (s s' : State) : Prop :=
  ∃ (o : Operands) (l : Latch), s' = { s with operands := o, latch := l }
    ∧ l.operands.rom = s.latch.operands.rom ∧ l.operands.blk = s.latch.operands.blk ∧ l.h = s.latch.h

section
variable {s s' : State}

/-- A position keeps the agreement: it reads no other latched operand, and the end of an operation forgets the latch. -/
theorem SameButLatch.microStep (h : SameButLatch s s') (m : Micro) :
    SameButLatch (microStep m s) (microStep m s') := by
  obtain ⟨o, l, rfl, hrom, hblk, hh⟩ := h
  cases m with
  | busReset stage | checkTrailer stage pos | checkCrc stage sent start len | checkStatus stage pos =>
    dsimp only [Machine.microStep]
    split
    · exact ⟨o, l, rfl, hrom, hblk, hh⟩
    · exact ⟨o, _, rfl, rfl, rfl, rfl⟩
  | succeed regs => exact ⟨o, _, rfl, rfl, rfl, rfl⟩
  | busSelect => exact ⟨o, l, by simp only [Machine.microStep, hrom]; rfl, hrom, hblk, hh⟩
  | macLoad => exact ⟨o, l, by simp only [Machine.microStep, hblk]; rfl, hrom, hblk, hh⟩
  | macSerialize => exact ⟨o, l, by simp only [Machine.microStep, hh]; rfl, hrom, hblk, hh⟩
  | busWrite _ | busHold | wait _ | busRelease | busRead | keepScratchpad | keepPage | keepMemory | macRound | macKeep =>
    exact ⟨o, l, rfl, hrom, hblk, hh⟩

theorem SameButLatch.runMicro (h : SameButLatch s s') (ms : List Micro) :
    SameButLatch (runMicro ms s) (runMicro ms s') := by
  induction ms generalizing s s' with
  | nil => exact h
  | cons m ms ih =>
    have hm := h.microStep m
    have hf : (Machine.microStep m s').fsm = (Machine.microStep m s).fsm := by
      obtain ⟨o, l, heq, -⟩ := hm
      rw [heq]
    rw [Machine.runMicro, Machine.runMicro, hf]
    split
    · exact hm
    · exact ih hm

end

/-- No pseudocode but PROVSEC's names SECRET. -/
theorem programOf_withSecret {i : Instr} (hi : i ≠ .provsec) (p : Params) (o : Operands) (h : Vector Word 5)
    (secret : Vector Byte 8) :
    programOf i p { operands := { o with secret := secret }, h := h } = programOf i p { operands := o, h := h } := by
  cases i with
  | provsec => exact absurd rfl hi
  | digest | sermac | wspad | rspad | rfspad | cpspad | rdauth | ldsec | rdmem | rdchal | wrauth => rfl

/-- The state with another value in SECRET. -/
def State.withSecret (secret : Vector Byte 8) (s : State) : State :=
  { s with operands := { s.operands with secret := secret } }

theorem runOperation_withSecret {i : Instr} (hi : i ≠ .provsec) (s : State) (secret : Vector Byte 8) :
    SameButLatch (runOperation i (programOf i) s) (runOperation i (programOf i) (s.withSecret secret)) := by
  cases hb : busy s.status with
  | true =>
    rw [runOperation, if_pos hb, runOperation, if_pos (show busy (s.withSecret secret).status = true from hb)]
    exact ⟨_, _, rfl, rfl, rfl, rfl⟩
  | false =>
    have hrefused : (s.withSecret secret).startRefused i = s.startRefused i := rfl
    rw [runOperation_idle hb, runOperation_idle (s := s.withSecret secret) hb, hrefused]
    split
    · exact ⟨_, _, rfl, rfl, rfl, rfl⟩
    · have hprogram : programOf i (s.withSecret secret).params
          { operands := (s.withSecret secret).operands, h := (s.withSecret secret).results.h }
            = programOf i s.params { operands := s.operands, h := s.results.h } :=
        programOf_withSecret hi s.params s.operands s.results.h secret
      have hstart : SameButLatch (s.start i) ((s.withSecret secret).start i) := ⟨_, _, rfl, rfl, rfl, rfl⟩
      rw [hprogram]
      exact hstart.runMicro _

/-- Settles O40: the two runs take the same positions, and no position reads the secret. -/
theorem onlyProvsecSendsTheSecret : Obligations.OnlyProvsecSendsTheSecret := by
  intro i s t t' secret hi h h'
  cases (exec_eq i _).symm.trans h
  cases (exec_eq i _).symm.trans h'
  obtain ⟨o, l, heq, -⟩ := runOperation_withSecret hi s secret
  rw [State.withSecret] at heq
  rw [heq]
  exact ⟨rfl, rfl, rfl⟩

end Sys2Proof.Machine
end

section
/-!
PROOFS. Power holds (41_crc_bus.md R144, R147). Every `BusHold` of an operation's pseudocode stands directly after a
`BusWrite` (`HoldsOk`, `programOf_holdsOk`), so in the trace every `PWR_ON` stands directly after a `W`; and such a trace,
read as transport calls, carries each hold on its write.
-/

namespace Sys2Proof.Machine

open Sys2Proof.Safety

/-! ### The rule on a trace, in two parts -/

/-- A `W`. -/
def isWrite : BusEvent → Bool
  | .w _ => true
  | .rst _ | .sel _ | .r _ | .pwrOn | .pwrOff | .dly _ => false

/-- Whether the last event is a `W`; `afterWrite` answers for no event. -/
def endsInWrite (afterWrite : Bool) (es : List BusEvent) : Bool := es.foldl (fun _ e => isWrite e) afterWrite

@[simp] theorem endsInWrite_append (afterWrite : Bool) (es es' : List BusEvent) :
    endsInWrite afterWrite (es ++ es') = endsInWrite (endsInWrite afterWrite es) es' :=
  List.foldl_append

theorem holdsFollowWrites_append (afterWrite : Bool) (es es' : List BusEvent) :
    holdsFollowWrites afterWrite (es ++ es')
      = (holdsFollowWrites afterWrite es && holdsFollowWrites (endsInWrite afterWrite es) es') := by
  induction es generalizing afterWrite with
  | nil => rfl
  | cons e es ih =>
    cases e with
    | pwrOn => simp only [List.cons_append, holdsFollowWrites, ih, Bool.and_assoc]; rfl
    | rst _ | sel _ | w _ | r _ | pwrOff | dly _ => exact ih _

/-! ### The rule on pseudocode -/

/-- A `BusWrite`, the only position that appends a `W`. -/
def isBusWrite : Micro → Bool
  | .busWrite _ => true
  | _ => false

/-- Every `BusHold` stands directly after a `BusWrite`; `afterWrite` says whether the position before the list is one. -/
def HoldsOk : Bool → List Micro → Prop
  | _, [] => True
  | afterWrite, m :: ms => (m = .busHold → afterWrite = true) ∧ HoldsOk (isBusWrite m) ms

section
variable {afterWrite : Bool} {pre ms : List Micro}

theorem HoldsOk.mono (h : HoldsOk false ms) : HoldsOk afterWrite ms := by
  cases ms with
  | nil => trivial
  | cons m ms => exact ⟨fun hm => (nomatch h.1 hm), h.2⟩

/-- Positions with no `BusHold` among them, in front. -/
theorem HoldsOk.append_noHold (hpre : .busHold ∉ pre) (h : HoldsOk false ms) : HoldsOk afterWrite (pre ++ ms) := by
  induction pre generalizing afterWrite with
  | nil => exact h.mono
  | cons m pre ih =>
    rw [List.mem_cons, not_or] at hpre
    exact ⟨fun hm => absurd hm.symm hpre.1, ih hpre.2⟩

/-- A `WriteAll` of at least one byte, its last write carrying a hold. -/
theorem HoldsOk.writeAll_hold {bs : List Byte} (hbs : bs ≠ []) (h : HoldsOk false ms) :
    HoldsOk afterWrite (writeAll bs ++ .busHold :: ms) := by
  obtain ⟨init, last, rfl⟩ := (List.eq_nil_or_concat' bs).resolve_left hbs
  rw [writeAll, List.map_append, List.append_assoc]
  refine .append_noHold (by simp) ?_
  exact ⟨nofun, fun _ => rfl, h⟩

theorem HoldsOk.writeCommandEs_hold {cmd : Byte} {addr : AddrSrc} {es : ByteSrc} (h : HoldsOk false ms) :
    HoldsOk afterWrite (writeCommandEs cmd addr es ++ .busHold :: ms) :=
  ⟨nofun, nofun, nofun, nofun, fun _ => rfl, h⟩

theorem noHold_prologue (stage : BitVec 3) : .busHold ∉ prologue stage := by simp [prologue]

theorem noHold_writeAll (bs : List Byte) : .busHold ∉ writeAll bs := by simp [writeAll]

theorem noHold_readN (n : Nat) : .busHold ∉ readN n := by simp [readN]

theorem HoldsOk.writeScratchpadP {stage : BitVec 3} {addr : Half} {d : Vector Byte 8} {cmd : Byte}
    (h : HoldsOk false ms) : HoldsOk afterWrite (writeScratchpadP stage addr d cmd ++ ms) :=
  .append_noHold (by simp [Machine.writeScratchpadP, noHold_prologue, noHold_writeAll, noHold_readN]) h

theorem HoldsOk.readScratchpadP {p : Params} {stage : BitVec 3} (h : HoldsOk false ms) :
    HoldsOk afterWrite (readScratchpadP p stage ++ ms) :=
  .append_noHold (by simp [Machine.readScratchpadP, noHold_prologue, noHold_writeAll, noHold_readN]) h

theorem HoldsOk.readAuthenticatedPageP {p : Params} {stage : BitVec 3} {addr : Half} (h : HoldsOk false ms) :
    HoldsOk afterWrite (readAuthenticatedPageP p stage addr ++ ms) :=
  .append_noHold
    (by simp [Machine.readAuthenticatedPageP, noHold_prologue, noHold_writeAll, noHold_readN, readStatus]) h

theorem HoldsOk.readMemoryP {p : Params} {stage : BitVec 3} {addr : Half} {n : Nat} (h : HoldsOk false ms) :
    HoldsOk afterWrite (readMemoryP p stage addr n ++ ms) :=
  .append_noHold (by simp [Machine.readMemoryP, noHold_prologue, noHold_writeAll, noHold_readN]) h

/-- The first hold follows the command's ES, the second the MAC's last byte. -/
theorem HoldsOk.copyScratchpadP {p : Params} {stage : BitVec 3} {addr : AddrSrc} {es : ByteSrc} {mac : Vector Byte 20}
    (h : HoldsOk false ms) : HoldsOk afterWrite (copyScratchpadP p stage addr es mac ++ ms) := by
  simp only [Machine.copyScratchpadP, List.append_assoc]
  have hmac : mac.toList ≠ [] := fun hnil => by simpa using congrArg List.length hnil
  refine .append_noHold (noHold_prologue stage) (.writeCommandEs_hold ⟨nofun, ?_⟩)
  exact .writeAll_hold hmac ⟨nofun, nofun, .append_noHold (pre := readStatus stage 0) (by simp [readStatus]) h⟩

theorem HoldsOk.loadFirstSecretP {p : Params} {stage : BitVec 3} {addr : AddrSrc} {es : ByteSrc}
    (h : HoldsOk false ms) : HoldsOk afterWrite (loadFirstSecretP p stage addr es ++ ms) := by
  simp only [Machine.loadFirstSecretP, List.append_assoc]
  refine .append_noHold (noHold_prologue stage) (.writeCommandEs_hold ⟨nofun, nofun, ?_⟩)
  exact .append_noHold (pre := readStatus stage 0) (by simp [readStatus]) h

theorem HoldsOk.succeed (regs : List ResultReg) : HoldsOk afterWrite [.succeed regs] := ⟨nofun, trivial⟩

end

/-- Every operation's pseudocode keeps the rule, whatever the parameters and the latch hold. -/
theorem programOf_holdsOk (i : Instr) (p : Params) (l : Latch) : HoldsOk false (programOf i p l) := by
  cases i with
  | digest => exact .append_noHold (pre := .macLoad :: List.replicate 80 .macRound) (by simp) ⟨nofun, .succeed _⟩
  | sermac => exact ⟨nofun, .succeed _⟩
  | wspad | rfspad => exact .writeScratchpadP (.succeed _)
  | rspad => exact .readScratchpadP (.succeed _)
  | cpspad => exact .copyScratchpadP (.succeed _)
  | rdauth => exact .readAuthenticatedPageP (.succeed _)
  | ldsec => exact .loadFirstSecretP (.succeed _)
  | rdmem => exact .readMemoryP (.succeed _)
  | rdchal =>
    simp only [programOf, rdchalProgram, List.append_assoc]
    exact .writeScratchpadP (.readAuthenticatedPageP (.succeed _))
  | provsec =>
    simp only [programOf, provsecProgram, List.append_assoc]
    exact .writeScratchpadP (.readScratchpadP (.loadFirstSecretP (.succeed _)))
  | wrauth =>
    simp only [programOf, wrauthProgram, List.append_assoc]
    exact .writeScratchpadP (.readScratchpadP (.copyScratchpadP (.writeScratchpadP (.loadFirstSecretP (.succeed _)))))

/-! ### From pseudocode to trace -/

/-- The trace keeps the rule so far, and ends in a `W` if `afterWrite` says so. -/
def TraceOk (afterWrite : Bool) (trace : List BusEvent) : Prop :=
  holdsFollowWrites false trace = true ∧ (afterWrite = true → endsInWrite false trace = true)

theorem TraceOk.append {afterWrite afterWrite' : Bool} {trace es : List BusEvent} (h : TraceOk afterWrite trace)
    (hes : holdsFollowWrites (endsInWrite false trace) es = true)
    (hlast : afterWrite' = true → endsInWrite (endsInWrite false trace) es = true) :
    TraceOk afterWrite' (trace ++ es) :=
  ⟨by rw [holdsFollowWrites_append, h.1, hes]; rfl, by rw [endsInWrite_append]; exact hlast⟩

theorem TraceOk.goesOn {afterWrite : Bool} {m : Micro} {s t : State} (h : TraceOk afterWrite s.bus.trace)
    (hm : m = .busHold → afterWrite = true) (ht : GoesOn m s t) : TraceOk (isBusWrite m) t.bus.trace := by
  obtain ⟨es, happ, htr⟩ := ht.trace
  rw [htr]
  cases m with
  | busHold =>
    obtain rfl := happ
    exact h.append (by rw [h.2 (hm rfl)]; rfl) nofun
  | busSelect | busWrite _ | wait _ | busRead =>
    obtain ⟨_, rfl⟩ := happ
    exact h.append rfl fun hw => hw
  | busReset _ | busRelease | checkTrailer _ _ | checkCrc _ _ _ _ | checkStatus _ _ | keepScratchpad | keepPage | keepMemory
  | macLoad | macRound | macKeep | macSerialize | succeed _ =>
    obtain rfl := happ
    exact h.append rfl nofun

theorem runMicro_traceOk {afterWrite : Bool} {ms : List Micro} {s : State} {op : Instr} {k : Nat}
    (hms : HoldsOk afterWrite ms) (hf : s.fsm = .run op k) (h : TraceOk afterWrite s.bus.trace) :
    TraceOk false (runMicro ms s).bus.trace := by
  induction ms generalizing afterWrite s k with
  | nil => exact ⟨h.1, nofun⟩
  | cons m ms ih =>
    rcases microStep_cases m s with hgo | hraise | ⟨regs, -, hsucceed⟩
    · rw [runMicro_goesOn hgo hf]
      exact ih hms.2 (hgo.fsm hf) (h.goesOn hms.1 hgo)
    · rw [runMicro_raises hraise]
      obtain ⟨kind, stage, bus, -, heq, -, htr⟩ := hraise
      rw [heq]
      show TraceOk false bus.trace
      rcases htr with htr | htr <;> rw [htr]
      · exact ⟨h.1, nofun⟩
      · exact h.append rfl nofun
    · rw [runMicro, hsucceed]
      exact ⟨h.1, nofun⟩

/-! ### The trace as transport calls -/

/-- Settles O42: the calls are read off the trace in the same order, and a `PWR_ON` is read with the `W` before it. -/
theorem everyHoldIsCarriedByAWrite : Obligations.EveryHoldIsCarriedByAWrite := by
  intro trace h
  induction trace using transportCalls.induct with
  | case1 => rfl
  | case2 b es ih => simpa [transportCalls] using ih h
  | case3 b es hes ih =>
    have hes' : holdsFollowWrites false es = true := by
      cases es with
      | nil => rfl
      | cons e es =>
        cases e with
        | pwrOn => exact absurd rfl (hes es)
        | rst _ | sel _ | w _ | r _ | pwrOff | dly _ => exact h
    simpa [transportCalls] using ih hes'
  | case4 p es ih => simpa [transportCalls] using ih h
  | case5 rom es ih => simpa [transportCalls] using ih h
  | case6 v es ih => simpa [transportCalls] using ih h
  | case7 es ih => simpa [transportCalls] using ih h
  | case8 es ih => cases h
  | case9 t es ih => simpa [transportCalls] using ih h

/-! ### The rule, for every operation -/

/-- Settles O41: the pseudocode keeps the rule, so its run keeps it on the trace. -/
theorem holdsFollowWrites : Obligations.HoldsFollowWrites := by
  intro i s t h htrace
  cases hb : busy s.status with
  | true =>
    cases (exec_busy hb i).symm.trans h
    exact htrace
  | false =>
    cases hr : s.startRefused i with
    | true =>
      cases (exec_refused hb hr).symm.trans h
      exact htrace
    | false =>
      cases (exec_run hb hr).symm.trans h
      have hrun := runMicro_traceOk (programOf_holdsOk i s.params { operands := s.operands, h := s.results.h })
        (s := (s.start i).moved s.bus .empty (.run i 0)) rfl ⟨htrace, nofun⟩
      exact hrun.1

end Sys2Proof.Machine
end

section
/-!
PROOFS. The operation taken one position at a time, by moves of the core or by the turns of a `WAIT`, against the operation
taken as one step (10_state.md R44, 30_encoding.md R98). A position touches nothing of the host's (`microStep_withHost`), so
a run is the same beside any schedule, any reads and any operand registers.
-/

namespace Sys2Proof.Machine

open Sys2Proof.Safety

/-! ### The host's fields beside a run -/

/-- The state with another schedule and other reads. -/
def State.withHost (inputs : List Input) (reads : List Word) (s : State) : State :=
  { s with inputs := inputs, reads := reads }

theorem microStep_withHost (m : Micro) (s : State) (inputs : List Input) (reads : List Word) :
    microStep m (s.withHost inputs reads) = (microStep m s).withHost inputs reads := by
  cases m with
  | busReset _ | checkTrailer _ _ | checkCrc _ _ _ _ | checkStatus _ _ =>
    dsimp only [microStep, State.withHost]
    split <;> rfl
  | busSelect | busWrite _ | busHold | wait _ | busRelease | busRead | keepScratchpad | keepPage | keepMemory | macLoad
  | macRound | macKeep | macSerialize | succeed _ => rfl

theorem runMicro_withHost (ms : List Micro) (s : State) (inputs : List Input) (reads : List Word) :
    runMicro ms (s.withHost inputs reads) = (runMicro ms s).withHost inputs reads := by
  induction ms generalizing s with
  | nil => rfl
  | cons m ms ih =>
    have hf : (microStep m (s.withHost inputs reads)).fsm = (microStep m s).fsm := by rw [microStep_withHost]; rfl
    rw [runMicro, runMicro, hf, microStep_withHost]
    split
    · rfl
    · exact ih _

theorem hostCommand_withHost (cmd : Byte) (s : State) (inputs : List Input) (reads : List Word) :
    hostCommand cmd (s.withHost inputs reads) = (hostCommand cmd s).withHost inputs reads := by
  cases hb : busy s.status with
  | true => rw [hostCommand_busy hb, hostCommand_busy (s := s.withHost inputs reads) hb]
  | false =>
    cases hd : decode cmd with
    | operation i =>
      obtain rfl := (decode_eq_operation_iff_eq_encode cmd i).1 hd
      rw [hostCommand_encode hb, hostCommand_encode (s := s.withHost inputs reads) hb]
      rw [apply_ite (State.withHost inputs reads)]
      rfl
    | reservedField | reservedCode =>
      have hnone : ∀ i, decode cmd ≠ .operation i := by simp [hd]
      rw [hostCommand_not_operation hb hnone, hostCommand_not_operation (s := s.withHost inputs reads) hb hnone]
      rfl

theorem runOperation_withHost (i : Instr) (s : State) (inputs : List Input) (reads : List Word) :
    runOperation i (programOf i) (s.withHost inputs reads)
      = (runOperation i (programOf i) s).withHost inputs reads := by
  cases hb : busy s.status with
  | true => rw [runOperation, if_pos (show busy (s.withHost inputs reads).status = true from hb), runOperation, if_pos hb]
  | false =>
    rw [runOperation_idle hb, runOperation_idle (s := s.withHost inputs reads) hb, apply_ite (State.withHost inputs reads),
      ← runMicro_withHost]
    rfl

/-- A meaning beside another schedule. -/
theorem exec_withInputs (i : Instr) (s : State) (inputs : List Input) :
    exec i { s with inputs := inputs } = .next ((runOperation i (programOf i) s).withHost inputs s.reads) :=
  (exec_eq i _).trans (congrArg _ (runOperation_withHost i s inputs s.reads))

/-- The CMD write of an operation, as a step. -/
theorem step_startWrite (i : Instr) (s : State) (rest : List Input) :
    step { s with inputs := .write 0x00 0 (encode i).toNat :: rest }
      = .next ((hostCommand (encode i) s).withHost rest s.reads) := by
  rw [step_write rfl, hostWrite_cmd_toNat]
  exact congrArg _ (hostCommand_withHost (encode i) s rest s.reads)

/-! ### Moves of the core -/

/-- Settles O47: `coreTick` looks at FSM first. -/
theorem idleCoreDoesNothing : Obligations.IdleCoreDoesNothing := fun s hf => by
  simp only [coreTick, hf]

theorem coreTick_run {s : State} {op : Instr} {k : Nat} {m : Micro} (hf : s.fsm = .run op k)
    (hm : (programOf op s.params s.latch)[k]? = some m) : coreTick s = .next (microStep m s) := by
  simp only [coreTick, hf, hm]

theorem GoesOn.program {m : Micro} {s t : State} (h : GoesOn m s t) (op : Instr) :
    programOf op t.params t.latch = programOf op s.params s.latch := by
  rw [h.eq]

theorem step_empty {s : State} (hi : s.inputs = []) : step s = coreTick s := by
  simp only [step, hi]

theorem core_run_idle {n : Nat} {s : State} (hi : s.inputs = []) (hf : s.fsm = .idle) :
    Host.Core.run Sys2Proof.core n s = .next s := by
  induction n with
  | zero => rfl
  | succ n ih => rw [core_run_next ((step_empty hi).trans (idleCoreDoesNothing s hf)), ih]

/-- Moves of the core, as many as there are positions left or more, are the run of those positions. -/
theorem core_run_ticks {n k : Nat} {s : State} {op : Instr} (hi : s.inputs = []) (hf : s.fsm = .run op k)
    (hn : (programOf op s.params s.latch).length ≤ k + n) (hk : k < (programOf op s.params s.latch).length) :
    Host.Core.run Sys2Proof.core n s = .next (runMicro ((programOf op s.params s.latch).drop k) s) := by
  induction n generalizing k s with
  | zero => omega
  | succ n ih =>
    obtain ⟨m, hm⟩ : ∃ m, (programOf op s.params s.latch)[k]? = some m := ⟨_, List.getElem?_eq_getElem hk⟩
    have hi' : (microStep m s).inputs = [] := (microStep_host m s).2.1.trans hi
    rw [core_run_next ((step_empty hi).trans (coreTick_run hf hm)), drop_of_getElem? hm]
    obtain hgo | ⟨hidle, hend⟩ := microStep_goesOn_or_ends m ((programOf op s.params s.latch).drop (k + 1)) s
    · have hnext := programOf_notLast hm hgo.notSucceed
      rw [ih hi' (hgo.fsm hf) (by rw [hgo.program]; omega) (by rwa [hgo.program]), hgo.program, runMicro_goesOn hgo hf]
    · rw [hend, core_run_idle hi' hidle]

/-- Settles O43: the CMD write starts the operation, and the moves run its positions. -/
theorem startThenTicksIsExec : Obligations.StartThenTicksIsExec := by
  intro i s n hb hf hn
  rw [core_run_next (step_startWrite i s []), exec_withInputs, hostCommand_encode hb, runOperation_idle hb]
  cases hr : s.startRefused i with
  | true => exact core_run_idle rfl rfl
  | false =>
    have hrun := core_run_ticks (n := n) (k := 0) (s := (s.start i).withHost [] s.reads) rfl rfl
      (hn.trans (Nat.le_add_left ..)) (programOf_length_pos ..)
    rwa [runMicro_withHost] at hrun

/-! ### Turns of a `WAIT` -/

theorem step_wait {s : State} {rest : List Input} (hi : s.inputs = .wait :: rest) : step s = waitTurn rest s := by
  simp only [step, hi]

theorem runInputs_step {fuel : Nat} {s t : State} (hi : s.inputs ≠ []) (h : step s = .next t) :
    runInputs (fuel + 1) s = runInputs fuel t := by
  cases hi' : s.inputs with
  | nil => exact absurd hi' hi
  | cons _ _ => rw [runInputs, hi', h]

theorem waitTurn_done {s : State} {rest : List Input} (hb : busy s.status = false) :
    waitTurn rest s = .next (recordRead (regIndex .status) 0 { s with inputs := rest }) := by
  rw [waitTurn, hb]; rfl

theorem waitTurn_busy {s : State} {rest : List Input} (hb : busy s.status = true) :
    waitTurn rest s = coreTick (recordRead (regIndex .status) 0 s) := by
  rw [waitTurn, if_pos hb]

/-- The last turn of a `WAIT` reads STATUS and leaves. -/
theorem runInputs_wait_done {fuel : Nat} {s : State} (hi : s.inputs = [.wait]) (hb : busy s.status = false) :
    runInputs (fuel + 1) s = .next (s.withHost [] (s.reads ++ [hostRead (regIndex .status) 0 s])) := by
  rw [runInputs_step (by rw [hi]; exact List.cons_ne_nil _ _) ((step_wait hi).trans (waitTurn_done hb))]
  exact runInputs_done rfl

/-- A position that does not go on leaves BUSY = 0. -/
theorem microStep_not_busy {m : Micro} {s : State} (h : (microStep m s).fsm = .idle) {op : Instr} {k : Nat}
    (hf : s.fsm = .run op k) : busy (microStep m s).status = false := by
  rcases microStep_cases m s with hgo | hraise | ⟨regs, -, hsucceed⟩
  · rw [hgo.fsm hf] at h
    cases h
  · obtain ⟨kind, stage, bus, -, heq, -⟩ := hraise
    rw [heq]
    exact statusFailed_busy ..
  · rw [hsucceed]
    exact statusSucceeded_busy ..

/-- A turn of a `WAIT` with BUSY = 1: STATUS is read and the core takes its position. -/
theorem step_wait_busy {s : State} {op : Instr} {k : Nat} {m : Micro} (hi : s.inputs = [.wait])
    (hb : busy s.status = true) (hf : s.fsm = .run op k) (hm : (programOf op s.params s.latch)[k]? = some m) :
    step s = .next ((microStep m s).withHost [.wait] (s.reads ++ [hostRead (regIndex .status) 0 s])) := by
  have hread : recordRead (regIndex .status) 0 s
      = s.withHost [.wait] (s.reads ++ [hostRead (regIndex .status) 0 s]) := by
    rw [← hi]; rfl
  rw [step_wait hi, waitTurn_busy hb, hread, coreTick_run (s := State.withHost [.wait] _ s) hf hm,
    microStep_withHost]

/-- The turns of a `WAIT`, one for each position left and one more, or more, are the run of those positions, but that the
host has read STATUS at each. -/
theorem runInputs_wait {n k : Nat} {s : State} {op : Instr} (hi : s.inputs = [.wait]) (hf : s.fsm = .run op k)
    (hb : busy s.status = true) (hn : (programOf op s.params s.latch).length ≤ k + n)
    (hk : k < (programOf op s.params s.latch).length) :
    ∃ reads, runInputs (n + 1) s
      = .next ((runMicro ((programOf op s.params s.latch).drop k) s).withHost [] reads) := by
  induction n generalizing k s with
  | zero => omega
  | succ n ih =>
    obtain ⟨m, hm⟩ : ∃ m, (programOf op s.params s.latch)[k]? = some m := ⟨_, List.getElem?_eq_getElem hk⟩
    rw [runInputs_step (by simp [hi]) (step_wait_busy hi hb hf hm), drop_of_getElem? hm]
    generalize s.reads ++ [hostRead (regIndex .status) 0 s] = reads
    obtain hgo | ⟨hidle, hend⟩ := microStep_goesOn_or_ends m ((programOf op s.params s.latch).drop (k + 1)) s
    · have hnext := programOf_notLast hm hgo.notSucceed
      have hprogram : programOf op ((microStep m s).withHost [.wait] reads).params
          ((microStep m s).withHost [.wait] reads).latch = programOf op s.params s.latch := hgo.program op
      obtain ⟨reads', hrun⟩ := ih (s := (microStep m s).withHost [.wait] reads) rfl (hgo.fsm hf)
        (by rw [hgo.eq]; exact hb) (by rw [hprogram]; omega) (by rwa [hprogram])
      rw [hrun, hprogram, runMicro_withHost, runMicro_goesOn hgo hf]
      exact ⟨reads', rfl⟩
    · rw [hend, runInputs_wait_done (s := (microStep m s).withHost [.wait] reads) rfl (microStep_not_busy hidle hf)]
      exact ⟨_, rfl⟩

/-- Settles O44: the CMD write starts the operation, and the turns of the `WAIT` run its positions. -/
theorem runStatementIsExec : Obligations.RunStatementIsExec := by
  intro i s n hb hf hn
  rw [stmtAccesses, runInputs_step (List.cons_ne_nil _ _) (step_startWrite i s [.wait]), exec_withInputs,
    hostCommand_encode hb, runOperation_idle hb]
  cases hr : s.startRefused i with
  | true =>
    exact ⟨_, _, runInputs_wait_done (s := (s.refuseStart (encode i)).withHost [.wait] s.reads) rfl
      (statusFailed_busy ..), rfl, rfl⟩
  | false =>
    obtain ⟨reads, hrun⟩ := runInputs_wait (n := n) (k := 0) (s := (s.start i).withHost [.wait] s.reads) rfl rfl
      (statusStarted_busy _) (hn.trans (Nat.le_add_left ..)) (programOf_length_pos ..)
    rw [runMicro_withHost] at hrun
    exact ⟨_, _, hrun, rfl, rfl⟩

/-! ### Host writes between moves -/

/-- A move of the core is the same beside any operand registers (10_state.md R41). -/
theorem coreTick_withOperands {s t : State} (h : coreTick s = .next t) (o : Operands) :
    coreTick { s with operands := o } = .next { t with operands := o } := by
  obtain ⟨hf, rfl⟩ | ⟨op, k, m, hf, hm, rfl⟩ := coreTick_cases h
  · exact idleCoreDoesNothing _ hf
  · rw [coreTick_run (s := { s with operands := o }) hf hm, microStep_withOperands]

/-- Settles O45: a write anywhere but CMD changes operand registers only, and one to CMD is dropped while BUSY. -/
theorem hostWritesDoNotTouchTheRunningOperation : Obligations.HostWritesDoNotTouchTheRunningOperation := by
  intro s t index e v h
  refine ⟨fun hindex => ?_, fun hb => by rw [hostWrite_cmd_busy hb, h], fun hb => hostWrite_cmd_busy hb e v⟩
  obtain ⟨f, hwrite⟩ := exists_hostWrite_eq hindex e v
  obtain ⟨ho, -⟩ := coreTick_host h
  rw [hwrite, hwrite, ho]
  exact coreTick_withOperands h _

/-! ### A script at a `WAIT` -/

theorem step_tick {s : State} {rest : List Input} (hi : s.inputs = .tick :: rest) :
    step s = coreTick { s with inputs := rest } := by
  simp only [step, hi]

/-- The steps of a `WAIT` line, moves of the core in front: when its accesses are all made, STATUS shows BUSY = 0. -/
theorem runInputs_waitLine {fuel j : Nat} {s u : State} (hi : s.inputs = List.replicate j .tick ++ [.wait])
    (h : runInputs fuel s = .next u) (hu : u.inputs = []) : busy u.status = false := by
  induction fuel generalizing j s with
  | zero =>
    cases h
    simp [hi] at hu
  | succ fuel ih =>
    obtain ⟨-, rfl⟩ | ⟨n, w, hn, -, hstep, hrest⟩ := runInputs_cases h
    · simp [hi] at hu
    · obtain rfl : fuel = n := by omega
      cases j with
      | succ j =>
        rw [step_tick (rest := List.replicate j .tick ++ [.wait]) hi] at hstep
        exact ih (coreTick_host hstep).2.1 hrest
      | zero =>
        rw [step_wait (rest := []) hi] at hstep
        obtain ⟨hb, rfl⟩ | ⟨-, -, hw⟩ := waitTurn_cases hstep
        · cases (runInputs_done (fuel := fuel) rfl).symm.trans hrest
          exact hb
        · exact ih (j := 0) (hw.trans hi) hrest

/-- Settles O48: a script leaves a line when its accesses are all made, and for a `WAIT` line BUSY = 0 then. -/
theorem scriptLeavesWaitOnlyAtBusyZero : Obligations.ScriptLeavesWaitOnlyAtBusyZero := by
  intro pace fuel script lines pc made label s t hi hl h
  obtain ⟨u, hu, hcases⟩ := runScript_cases hl h
  have hinputs : s.inputs ++ pacedAccesses pace made (stmtAccesses s.params .wait)
      = List.replicate (pace made) .tick ++ [.wait] := by
    rw [hi]; rfl
  rw [hinputs] at hu
  refine ⟨u, hu, ?_⟩
  obtain ⟨hdone, pc', hnext, hgo⟩ | ⟨-, hnext, -⟩ | hout := hcases
  · cases hnext
    exact .inl ⟨hdone, runInputs_waitLine rfl hu hdone, hgo⟩
  · cases hnext
  · exact .inr hout

end Sys2Proof.Machine
end

section
/-!
PROOFS. The host's accesses to registers and their steps (10_state.md R20, R26, 20_memory.md R72, 60_exceptions.md R233): an
operand register reads back what was written and no other element changes; a read changes nothing of the core; STATUS stays
while nothing starts.
-/

namespace Sys2Proof.Machine

open Sys2Proof.Safety

/-! ### One element after a write -/

theorem setWidth_ofNat (w v : Nat) : (BitVec.ofNat w v).setWidth 32 = BitVec.ofNat 32 (v % 2 ^ w) :=
  BitVec.eq_of_toNat_eq (by simp)

section
variable {n w e e' : Nat}

theorem elementOr0_setElement_same (r : Vector (BitVec w) n) (v : Nat) (h : e < n) :
    elementOr0 (setElement r e v) e = BitVec.ofNat 32 (v % 2 ^ w) := by
  simp [elementOr0, setElement, h, setWidth_ofNat]

theorem elementOr0_setElement_other (r : Vector (BitVec w) n) (v : Nat) (h : e' ≠ e) :
    elementOr0 (setElement r e v) e' = elementOr0 r e' := by
  simp [elementOr0, setElement, h.symm]

theorem scalarOr0_setScalar_same (r : BitVec w) (v : Nat) (h : e < 1) :
    scalarOr0 (setScalar r e v) e = BitVec.ofNat 32 (v % 2 ^ w) := by
  obtain rfl : e = 0 := by omega
  exact setWidth_ofNat w v

theorem scalarOr0_setScalar_other (r : BitVec w) (v : Nat) (h : e' ≠ e) :
    scalarOr0 (setScalar r e v) e' = scalarOr0 r e' := by
  rcases Nat.eq_zero_or_pos e' with rfl | he'
  · rw [setScalar, if_neg h.symm]
  · rw [scalarOr0_of_le _ he', scalarOr0_of_le _ he']

end

/-! ### One register after a write -/

/-- The state with other operand registers. -/
def State.withOperands (o : Operands) (s : State) : State := { s with operands := o }

theorem regRead_writeOperand_same (s : State) {r : Reg} {e : Nat} (v : Nat) (hr : regReadWrite r = true)
    (he : e < regCount s.params r) :
    regRead (s.withOperands (writeOperand r e v s.operands)) r e = BitVec.ofNat 32 (v % 2 ^ regWidth r) := by
  cases r with
  | rom | data | chal | secret | macin | blk => exact elementOr0_setElement_same _ v he
  | addr | esin | len => exact scalarOr0_setScalar_same _ v he
  | cmd | status | rta | res | rdata | page | macrd | mem | h | macout => cases hr

theorem regRead_writeOperand_other_element (s : State) (r : Reg) {e e' : Nat} (v : Nat) (he : e' ≠ e) :
    regRead (s.withOperands (writeOperand r e v s.operands)) r e' = regRead s r e' := by
  cases r with
  | rom | data | chal | secret | macin | blk => exact elementOr0_setElement_other _ v he
  | addr | esin | len => exact scalarOr0_setScalar_other _ v he
  | cmd | status | rta | res | rdata | page | macrd | mem | h | macout => rfl

theorem regRead_writeOperand_other_register (s : State) {r r' : Reg} (e e' v : Nat) (h : r' ≠ r) :
    regRead (s.withOperands (writeOperand r e v s.operands)) r' e' = regRead s r' e' := by
  cases r with
  | cmd | status | rta | res | rdata | page | macrd | mem | h | macout => rfl
  | rom =>
    cases r' with
    | rom => exact absurd rfl h
    | _ => rfl
  | addr =>
    cases r' with
    | addr => exact absurd rfl h
    | _ => rfl
  | esin =>
    cases r' with
    | esin => exact absurd rfl h
    | _ => rfl
  | data =>
    cases r' with
    | data => exact absurd rfl h
    | _ => rfl
  | chal =>
    cases r' with
    | chal => exact absurd rfl h
    | _ => rfl
  | secret =>
    cases r' with
    | secret => exact absurd rfl h
    | _ => rfl
  | macin =>
    cases r' with
    | macin => exact absurd rfl h
    | _ => rfl
  | len =>
    cases r' with
    | len => exact absurd rfl h
    | _ => rfl
  | blk =>
    cases r' with
    | blk => exact absurd rfl h
    | _ => rfl

/-! ### The host's view after a write -/

theorem regAt_regIndex (r : Reg) : regAt (regIndex r) = some r := by
  cases r <;> rfl

theorem hostRead_regIndex (r : Reg) (e : Nat) (s : State) : hostRead (regIndex r) e s = regRead s r e :=
  hostRead_of_regAt (regAt_regIndex r) e s

theorem hostWrite_operand {r : Reg} (hr : regReadWrite r = true) (e v : Nat) (s : State) :
    hostWrite (regIndex r) e v s = s.withOperands (writeOperand r e v s.operands) :=
  hostWrite_of_regAt (regAt_regIndex r) (by rintro rfl; cases hr) e v s

/-- Settles O49: the element written, another element of the same register, and another register. -/
theorem operandRegistersReadBack : Obligations.OperandRegistersReadBack := by
  intro s r e v hr he
  simp only [hostWrite_operand hr, hostRead_regIndex]
  refine ⟨regRead_writeOperand_same s v hr he, fun r' e' hne => ?_⟩
  by_cases hreg : r' = r
  · subst hreg
    exact regRead_writeOperand_other_element s r' v fun he' => hne (by rw [he'])
  · exact regRead_writeOperand_other_register s e e' v hreg

/-! ### Steps of the host -/

theorem step_read {s : State} {index : BitVec 8} {e : Nat} {rest : List Input} (hi : s.inputs = .read index e :: rest) :
    step s = .next (recordRead index e { s with inputs := rest }) := by
  simp only [step, hi]

theorem hostRead_withInputs (index : BitVec 8) (e : Nat) (s : State) (inputs : List Input) :
    hostRead index e { s with inputs := inputs } = hostRead index e s := by
  cases hreg : regAt index with
  | none => rw [hostRead_of_unassigned hreg, hostRead_of_unassigned hreg]
  | some r =>
    rw [hostRead_of_regAt hreg, hostRead_of_regAt hreg]
    cases r <;> rfl

/-- Settles O51: the step is `recordRead`, and what a read returns does not depend on the schedule. -/
theorem hostReadsHaveNoSideEffects : Obligations.HostReadsHaveNoSideEffects := by
  intro s index e rest hi
  rw [step_read hi, recordRead, hostRead_withInputs]

/-- A host write but a CMD write leaves STATUS. -/
theorem hostWrite_status {index : BitVec 8} {e v : Nat} (h : isCommandWrite (.write index e v) = false) (s : State) :
    (hostWrite index e v s).status = s.status := by
  by_cases hindex : index = 0x00
  · have he : e ≠ 0 := by simpa [isCommandWrite, hindex] using h
    rw [hindex, hostWrite_cmd, if_neg he]
  · obtain ⟨f, hf⟩ := exists_hostWrite_eq hindex e v
    rw [hf]

/-- Settles O52: an idle core does not move, a read and a turn of `WAIT` only read, a write leaves STATUS. -/
theorem statusStaysUntilNextStart : Obligations.StatusStaysUntilNextStart := by
  intro s t hf hb h hhead
  have hidle : ∀ u : State, u.fsm = .idle → coreTick u = .next t → t = u := fun u hu ht => by
    cases (idleCoreDoesNothing u hu).symm.trans ht
    rfl
  obtain ⟨-, ht⟩ | ⟨rest, -, ht⟩ | ⟨index, e, v, rest, hi, rfl⟩ | ⟨index, e, rest, -, rfl⟩ | ⟨rest, -, ht⟩
    | ⟨cmd, rest, hi, -⟩ | ⟨rest, hi, -⟩ := step_cases h
  · rw [hidle s hf ht]
  · rw [hidle { s with inputs := rest } hf ht]
  · exact hostWrite_status (hhead (.write index e v) (by simp [hi])).1 _
  · rfl
  · cases (waitTurn_done hb).symm.trans ht
    rfl
  · cases (hhead (.run cmd) (by simp [hi])).1
  · exact absurd rfl (hhead .reset (by simp [hi])).2

/-- Settles O53: every register of `State.reset` is 0. -/
theorem resetState : Obligations.ResetState :=
  ⟨rfl, rfl, rfl, rfl, rfl, hostRead_of_zero rfl rfl rfl⟩

end Sys2Proof.Machine
end

section
/-!
PROOFS. The fixed words of the block a host forms to check a ReadAuthenticatedPage MAC (40_mac_engine.md R125; informative):
the bytes of its message that come from no input.
-/

namespace Sys2Proof.Machine

/-- A byte of an array register, behind the first `n` bytes of its list. -/
theorem bytesAt_getElem_append {size n : Nat} {pre : List Byte} (post : List Byte) (hn : pre.length = n) {j : Nat}
    (h : n + j < size) : (bytesAt size 0 (pre ++ post))[n + j] = post.getD j 0 := by
  subst hn
  simp only [bytesAt, Vector.getElem_ofFn, Nat.zero_add]
  rw [List.getD_append_right _ _ _ _ (Nat.le_add_right ..), Nat.add_sub_cancel_left]

theorem be32_lowByte (b0 b1 b2 b3 : Byte) : (be32 b0 b1 b2 b3).extractLsb' 0 8 = b3 := by
  ext j hj
  simp only [be32, BitVec.getElem_extractLsb', BitVec.getLsbD_or, BitVec.getLsbD_shiftLeft, BitVec.getLsbD_setWidth]
  simp [show j < 8 by omega, show j < 16 by omega, show j < 24 by omega, show j < 32 by omega]

theorem blockOfBytes_getElem (m : Vector Byte 64) {i : Nat} (h : i < 16) :
    (blockOfBytes m)[i] = be32 m[4 * i] m[4 * i + 1] m[4 * i + 2] m[4 * i + 3] := by
  simp [blockOfBytes]

section
variable (p : Params) (secret : Vector Byte 8) (page : Vector Byte 32) (addr : Half) (rom : Vector Byte 8)
  (chal : Vector Byte 3)

/-- Bytes 36 to 39 of the message, behind the first half of the secret and the page. -/
theorem readAuthMessage_ones {j : Nat} (h : j < 4) :
    (readAuthMessage p secret page addr rom chal)[36 + j] = 0xFF := by
  have hpre : (secret.toList.take 4 ++ page.toList).length = 36 := by simp
  have hmessage : readAuthMessage p secret page addr rom chal
      = bytesAt 64 0 ((secret.toList.take 4 ++ page.toList)
          ++ ([0xFF, 0xFF, 0xFF, 0xFF]
            ++ ([mpByte p addr] ++ rom.toList.take 7 ++ secret.toList.drop 4 ++ chal.toList ++ [0x80]
              ++ List.replicate 6 0x00 ++ [0x01, 0xB8]))) := by
    simp only [readAuthMessage, List.append_assoc]
  simp only [hmessage]
  rw [bytesAt_getElem_append _ hpre (by omega)]
  interval_cases j <;> rfl

/-- Bytes 55 to 63 of the message, behind the last operand: the pad byte, zeros and the length. -/
theorem readAuthMessage_tail {j : Nat} (h : j < 9) :
    (readAuthMessage p secret page addr rom chal)[55 + j]
      = [0x80, 0x00, 0x00, 0x00, 0x00, 0x00, 0x00, 0x01, 0xB8].getD j 0 := by
  have hpre : (secret.toList.take 4 ++ page.toList ++ [0xFF, 0xFF, 0xFF, 0xFF] ++ [mpByte p addr] ++ rom.toList.take 7
      ++ secret.toList.drop 4 ++ chal.toList).length = 55 := by simp
  have hmessage : readAuthMessage p secret page addr rom chal
      = bytesAt 64 0 ((secret.toList.take 4 ++ page.toList ++ [0xFF, 0xFF, 0xFF, 0xFF] ++ [mpByte p addr]
          ++ rom.toList.take 7 ++ secret.toList.drop 4 ++ chal.toList) ++ ([0x80] ++ (List.replicate 6 0x00 ++ [0x01, 0xB8]))) := by
    simp only [readAuthMessage, List.append_assoc]
  simp only [hmessage]
  rw [bytesAt_getElem_append _ hpre (by omega)]
  rfl

end

/-- Settles O60: each of the four words is made of bytes 36 to 39 or 55 to 63 of the message. -/
theorem readAuthBlockFixedWords : Obligations.ReadAuthBlockFixedWords := by
  intro p secret page addr rom chal
  have hones := fun j h => readAuthMessage_ones p secret page addr rom chal (j := j) h
  have htail := fun j h => readAuthMessage_tail p secret page addr rom chal (j := j) h
  simp only [readAuthBlock, blockOfBytes_getElem]
  refine ⟨?_, ?_, ?_, ?_⟩
  · rw [hones 0 (by decide), hones 1 (by decide), hones 2 (by decide), hones 3 (by decide)]
    rfl
  · rw [be32_lowByte]
    exact htail 0 (by decide)
  · rw [htail 1 (by decide), htail 2 (by decide), htail 3 (by decide), htail 4 (by decide)]
    rfl
  · rw [htail 5 (by decide), htail 6 (by decide), htail 7 (by decide), htail 8 (by decide)]
    rfl

end Sys2Proof.Machine
end

section
/-!
PROOFS. The bus primitives (42_bus_commands.md). `Reaches` says how far an operation has come: which positions are to come,
at which bus and pending buffer. One lemma for each procedure takes it past the procedure, or to the failure of its check; an
operation is then a chain of these.
-/

namespace Sys2Proof.Machine

open Sys2Proof.Safety

/-- The meaning of operation `i` from `s` has come to the positions `ms`, at this bus and this pending buffer. -/
def Reaches (i : Instr) (s : State) (b : Bus) (p : Pending) (ms : List Micro) : Prop :=
  ∃ k, exec i s = .next (runMicro ms ((s.start i).moved b p (.run i k)))

/-- The meaning of operation `i` from `s` succeeds. -/
def ExecSucceeds (i : Instr) (s : State) (res : Results) (bus : Bus) : Prop :=
  ∃ t, exec i s = .next t ∧ Succeeded i s t res bus

/-- The meaning of operation `i` from `s` fails. -/
def ExecFails (i : Instr) (s : State) (kind : Kind) (stage : BitVec 3) (bus : Bus) : Prop :=
  ∃ t, exec i s = .next t ∧ Failed i s t kind stage bus

theorem reaches_start {i : Instr} {s : State} (hb : busy s.status = false) (hr : s.startRefused i = false) :
    Reaches i s s.bus .empty (programOf i s.params { operands := s.operands, h := s.results.h }) :=
  ⟨0, exec_run hb hr⟩

section
variable {i : Instr} {s : State} {b b' : Bus} {p : Pending} {ms : List Micro} {stage : BitVec 3} {present : List Bool}
  {rest : List Byte}

/-! ### The two ends -/

theorem Reaches.succeed {regs : List ResultReg} {res : Results} (h : Reaches i s b p [.succeed regs])
    (hres : commit s.params.membuf p regs s.results = res) : ExecSucceeds i s res b := by
  obtain ⟨k, h⟩ := h
  exact ⟨_, h, succeeded_of_run hres⟩

/-- The positions to come raise, from wherever they are begun. -/
theorem Reaches.fail {kind : Kind} (h : Reaches i s b p ms)
    (hrun : ∀ k, ∃ p' k', runMicro ms ((s.start i).moved b p (.run i k))
      = ((s.start i).moved b' p' (.run i k')).raise kind stage) : ExecFails i s kind stage b' := by
  obtain ⟨k, h⟩ := h
  obtain ⟨p', k', hrun⟩ := hrun k
  exact ⟨_, h.trans (congrArg _ hrun), failed_of_run⟩

/-! ### No device -/

/-- The positions begin with the prologue of a bus step. -/
def BeginsStep (stage : BitVec 3) (ms : List Micro) : Prop := ∃ ms', ms = prologue stage ++ ms'

theorem beginsStep_prologue (stage : BitVec 3) : BeginsStep stage (prologue stage) := ⟨[], rfl⟩

theorem BeginsStep.append (h : BeginsStep stage ms) (ms' : List Micro) : BeginsStep stage (ms ++ ms') := by
  obtain ⟨rest, rfl⟩ := h
  exact ⟨rest ++ ms', List.append_assoc ..⟩

theorem beginsStep_writeScratchpadP (stage : BitVec 3) (addr : Half) (d : Vector Byte 8) (cmd : Byte) :
    BeginsStep stage (writeScratchpadP stage addr d cmd) :=
  (((beginsStep_prologue stage).append _).append _).append _

theorem beginsStep_readScratchpadP (p : Params) (stage : BitVec 3) : BeginsStep stage (readScratchpadP p stage) :=
  ((((beginsStep_prologue stage).append _).append _).append _).append _

theorem beginsStep_copyScratchpadP (p : Params) (stage : BitVec 3) (addr : AddrSrc) (es : ByteSrc)
    (mac : Vector Byte 20) : BeginsStep stage (copyScratchpadP p stage addr es mac) :=
  (((((beginsStep_prologue stage).append _).append _).append _).append _).append _

theorem beginsStep_loadFirstSecretP (p : Params) (stage : BitVec 3) (addr : AddrSrc) (es : ByteSrc) :
    BeginsStep stage (loadFirstSecretP p stage addr es) :=
  (((beginsStep_prologue stage).append _).append _).append _

theorem beginsStep_readAuthenticatedPageP (p : Params) (stage : BitVec 3) (addr : Half) :
    BeginsStep stage (readAuthenticatedPageP p stage addr) :=
  (((((((((beginsStep_prologue stage).append _).append _).append _).append _).append _).append _).append _).append
    _).append _

theorem beginsStep_readMemoryP (p : Params) (stage : BitVec 3) (addr : Half) (n : Nat) :
    BeginsStep stage (readMemoryP p stage addr n) :=
  (((beginsStep_prologue stage).append _).append _).append _

theorem Reaches.noDevice (h : Reaches i s b p ms) (hms : BeginsStep stage ms) (hp : b.presence = false :: present) :
    ExecFails i s .noDevice stage { b with presence := present, trace := b.trace ++ [.rst false] } := by
  obtain ⟨rest, hms⟩ := hms
  exact h.fail fun k => ⟨p, k, run_noDevice hp hms⟩

/-- No device at the reset of a later step. -/
theorem Reaches.noDevice_after {b0 : Bus} {es : List BusEvent} {bytes : List Byte}
    (h : Reaches i s (busAfter b0 es (false :: present) bytes) p ms) (hms : BeginsStep stage ms) :
    ExecFails i s .noDevice stage (busAfter b0 (es ++ [.rst false]) present bytes) := by
  rw [busAfter, ← List.append_assoc]
  exact h.noDevice hms rfl

/-! ### WriteScratchpad, RefreshScratchpad -/

section
variable {addr : Half} {d : Vector Byte 8} {cmd c0 c1 : Byte}

theorem Reaches.writeScratchpad (h : Reaches i s b p (writeScratchpadP stage addr d cmd ++ ms))
    (hp : b.presence = true :: present) (hb : b.bytes = [c0, c1] ++ rest)
    (hc : scratchpadCrcOk s.params cmd addr d c0 c1 = true) :
    Reaches i s (busAfter b (scratchpadWritten s.operands.rom cmd addr d c0 c1) present rest) { p with rx := [c0, c1] }
      ms := by
  obtain ⟨k, h⟩ := h
  obtain ⟨k', hrun⟩ := run_writeScratchpadP_pass (s := s.start i) (stage := stage) (ms := ms) (op := i) (p := p) (k := k)
    hp hb hc
  exact ⟨k', h.trans (congrArg _ hrun)⟩

theorem Reaches.writeScratchpad_badCrc (h : Reaches i s b p (writeScratchpadP stage addr d cmd ++ ms))
    (hp : b.presence = true :: present) (hb : b.bytes = [c0, c1] ++ rest)
    (hc : scratchpadCrcOk s.params cmd addr d c0 c1 = false) :
    ExecFails i s .integrity stage
      (busAfter b (scratchpadWritten s.operands.rom cmd addr d c0 c1) present rest) :=
  h.fail fun _ => run_writeScratchpadP_badCrc (s := s.start i) hp hb hc

end

/-! ### ReadScratchpad -/

section
variable {ta : Half} {es c0 c1 : Byte} {d : Vector Byte 8}

theorem Reaches.readScratchpad (h : Reaches i s b p (readScratchpadP s.params stage ++ ms))
    (hp : b.presence = true :: present) (hb : b.bytes = [lo ta, hi ta, es] ++ d.toList ++ [c0, c1] ++ rest)
    (hc : readbackCrcOk s.params ta es d c0 c1 = true) :
    ∃ p', Reaches i s (busAfter b (scratchpadRead s.operands.rom ta es d c0 c1) present rest) p' ms
      ∧ p'.ta = ta ∧ p'.es = es ∧ p'.rdata = d := by
  obtain ⟨k, h⟩ := h
  obtain ⟨p', k', hrun, hkept⟩ := run_readScratchpadP_pass (s := s.start i) (stage := stage) (ms := ms) (op := i) (p := p)
    (k := k) hp hb hc
  exact ⟨p', ⟨k', h.trans (congrArg _ hrun)⟩, hkept⟩

theorem Reaches.readScratchpad_badCrc (h : Reaches i s b p (readScratchpadP s.params stage ++ ms))
    (hp : b.presence = true :: present) (hb : b.bytes = [lo ta, hi ta, es] ++ d.toList ++ [c0, c1] ++ rest)
    (hc : readbackCrcOk s.params ta es d c0 c1 = false) :
    ExecFails i s .integrity stage (busAfter b (scratchpadRead s.operands.rom ta es d c0 c1) present rest) :=
  h.fail fun _ => run_readScratchpadP_badCrc (s := s.start i) hp hb hc

end

/-! ### CopyScratchpad, LoadFirstSecret -/

/-- The sources of a command's address and ES give these values. -/
def SourcesGive (p : Pending) (addr : AddrSrc) (es : ByteSrc) (ta : Half) (e : Byte) : Prop :=
  ∀ cmd, commandEsBytes cmd addr es p = [cmd, lo ta, hi ta, e]

theorem sourcesGive_given (p : Pending) (addr : Half) (es : Byte) :
    SourcesGive p (givenAddr addr) (.byte es) addr es := fun _ => rfl

theorem sourcesGive_returned (p : Pending) : SourcesGive p returnedAddr .pendingEs p.ta p.es := fun _ => rfl

theorem sourcesGive_returnedEs (p : Pending) (addr : Half) : SourcesGive p (givenAddr addr) .pendingEs addr p.es :=
  fun _ => rfl

section
variable {addr : AddrSrc} {es : ByteSrc} {ta : Half} {e status : Byte} {mac : Vector Byte 20}

theorem Reaches.copyScratchpad (h : Reaches i s b p (copyScratchpadP s.params stage addr es mac ++ ms))
    (hsrc : SourcesGive p addr es ta e) (hp : b.presence = true :: present) (hb : b.bytes = 0xAA :: rest) :
    Reaches i s (busAfter b (scratchpadCopied s.params s.operands.rom ta e mac 0xAA) present rest)
      { p with rx := [0xAA] } ms := by
  obtain ⟨k, h⟩ := h
  obtain ⟨k', hrun⟩ := run_copyScratchpadP_pass (s := s.start i) (stage := stage) (ms := ms) (op := i) (p := p) (k := k)
    (addr := addr) (es := es) (mac := mac) hp hb
  rw [hsrc] at hrun
  exact ⟨k', h.trans (congrArg _ hrun)⟩

theorem Reaches.copyScratchpad_rejected (h : Reaches i s b p (copyScratchpadP s.params stage addr es mac ++ ms))
    (hsrc : SourcesGive p addr es ta e) (hp : b.presence = true :: present) (hb : b.bytes = status :: rest)
    (hs : status ≠ 0xAA) :
    ExecFails i s .authFailed stage
      (busAfter b (scratchpadCopied s.params s.operands.rom ta e mac status) present rest) :=
  h.fail fun k => by
    obtain ⟨k', hrun⟩ := run_copyScratchpadP_rejected (s := s.start i) (stage := stage) (ms := ms) (op := i) (p := p)
      (k := k) (addr := addr) (es := es) (mac := mac) hp hb hs
    rw [hsrc] at hrun
    exact ⟨_, k', hrun⟩

theorem Reaches.loadFirstSecret (h : Reaches i s b p (loadFirstSecretP s.params stage addr es ++ ms))
    (hsrc : SourcesGive p addr es ta e) (hp : b.presence = true :: present) (hb : b.bytes = 0xAA :: rest) :
    Reaches i s (busAfter b (secretLoaded s.params s.operands.rom ta e 0xAA) present rest)
      { p with rx := [0xAA] } ms := by
  obtain ⟨k, h⟩ := h
  obtain ⟨k', hrun⟩ := run_loadFirstSecretP_pass (s := s.start i) (stage := stage) (ms := ms) (op := i) (p := p) (k := k)
    (addr := addr) (es := es) hp hb
  rw [hsrc] at hrun
  exact ⟨k', h.trans (congrArg _ hrun)⟩

theorem Reaches.loadFirstSecret_rejected (h : Reaches i s b p (loadFirstSecretP s.params stage addr es ++ ms))
    (hsrc : SourcesGive p addr es ta e) (hp : b.presence = true :: present) (hb : b.bytes = status :: rest)
    (hs : status ≠ 0xAA) :
    ExecFails i s .authFailed stage (busAfter b (secretLoaded s.params s.operands.rom ta e status) present rest) :=
  h.fail fun k => by
    obtain ⟨k', hrun⟩ := run_loadFirstSecretP_rejected (s := s.start i) (stage := stage) (ms := ms) (op := i) (p := p)
      (k := k) (addr := addr) (es := es) hp hb hs
    rw [hsrc] at hrun
    exact ⟨_, k', hrun⟩

end

/-! ### ReadAuthenticatedPage -/

section
variable {addr : Half} {page : Vector Byte 32} {mac : Vector Byte 20} {trailer c0 c1 c2 c3 status : Byte}

theorem Reaches.readPage (h : Reaches i s b p (readAuthenticatedPageP s.params stage addr ++ ms))
    (hp : b.presence = true :: present)
    (hb : b.bytes = page.toList ++ [0xFF, c0, c1] ++ mac.toList ++ [c2, c3, 0xAA] ++ rest)
    (hc : pageCrcOk s.params addr page 0xFF c0 c1 = true) (hm : crcOk s.params mac.toList c2 c3 = true) :
    ∃ p', Reaches i s
        (busAfter b
          (pageRead s.operands.rom addr page 0xFF c0 c1 ++ pageMacRead s.params mac c2 c3 ++ readings [0xAA]) present rest)
        p' ms
      ∧ p'.page = page ∧ p'.mac = mac := by
  obtain ⟨k, h⟩ := h
  obtain ⟨p', k', hpage, hmac, hrun⟩ := run_readAuthenticatedPageP_status (s := s.start i) (stage := stage) (ms := ms)
    (op := i) (p := p) (k := k) (status := 0xAA) hp (by simpa [trailerRequired] using hb) hc hm
  exact ⟨p', ⟨k', h.trans (congrArg _ (hrun.trans (if_pos rfl)))⟩, hpage, hmac⟩

theorem Reaches.readPage_badTrailer (h : Reaches i s b p (readAuthenticatedPageP s.params stage addr ++ ms))
    (hp : b.presence = true :: present) (hb : b.bytes = page.toList ++ [trailer, c0, c1] ++ rest)
    (ht : trailer ≠ 0xFF) :
    ExecFails i s .protocol stage (busAfter b (pageRead s.operands.rom addr page trailer c0 c1) present rest) :=
  h.fail fun _ => run_readAuthenticatedPageP_badTrailer (s := s.start i) hp (by simpa using hb) ht

theorem Reaches.readPage_badCrc (h : Reaches i s b p (readAuthenticatedPageP s.params stage addr ++ ms))
    (hp : b.presence = true :: present) (hb : b.bytes = page.toList ++ [0xFF, c0, c1] ++ rest)
    (hc : pageCrcOk s.params addr page 0xFF c0 c1 = false) :
    ExecFails i s .integrity stage (busAfter b (pageRead s.operands.rom addr page 0xFF c0 c1) present rest) :=
  h.fail fun _ => run_readAuthenticatedPageP_badCrc (s := s.start i) hp (by simpa [trailerRequired] using hb) hc

theorem Reaches.readPage_badMacCrc (h : Reaches i s b p (readAuthenticatedPageP s.params stage addr ++ ms))
    (hp : b.presence = true :: present)
    (hb : b.bytes = page.toList ++ [0xFF, c0, c1] ++ mac.toList ++ [c2, c3] ++ rest)
    (hc : pageCrcOk s.params addr page 0xFF c0 c1 = true) (hm : crcOk s.params mac.toList c2 c3 = false) :
    ExecFails i s .integrity stage
      (busAfter b (pageRead s.operands.rom addr page 0xFF c0 c1 ++ pageMacRead s.params mac c2 c3) present rest) :=
  h.fail fun _ => run_readAuthenticatedPageP_badMacCrc (s := s.start i) hp (by simpa [trailerRequired] using hb) hc hm

theorem Reaches.readPage_rejected (h : Reaches i s b p (readAuthenticatedPageP s.params stage addr ++ ms))
    (hp : b.presence = true :: present)
    (hb : b.bytes = page.toList ++ [0xFF, c0, c1] ++ mac.toList ++ [c2, c3] ++ status :: rest)
    (hc : pageCrcOk s.params addr page 0xFF c0 c1 = true) (hm : crcOk s.params mac.toList c2 c3 = true)
    (hs : status ≠ 0xAA) :
    ExecFails i s .authFailed stage
      (busAfter b
        (pageRead s.operands.rom addr page 0xFF c0 c1 ++ pageMacRead s.params mac c2 c3 ++ readings [status]) present
        rest) :=
  h.fail fun k => by
    obtain ⟨p', k', -, -, hrun⟩ := run_readAuthenticatedPageP_status (s := s.start i) (stage := stage) (ms := ms)
      (op := i) (p := p) (k := k) (status := status) hp (by simpa [trailerRequired] using hb) hc hm
    exact ⟨_, _, hrun.trans (if_neg hs)⟩

end

/-! ### ReadMemory -/

theorem Reaches.readMemory {addr : Half} {vs : List Byte}
    (h : Reaches i s b p (readMemoryP s.params stage addr vs.length ++ ms)) (hp : b.presence = true :: present)
    (hb : b.bytes = vs ++ rest) :
    ∃ p', Reaches i s (busAfter b (memoryRead s.operands.rom addr vs) present rest) p' ms ∧ p'.mem = vs := by
  obtain ⟨k, h⟩ := h
  obtain ⟨p', k', hmem, hrun⟩ := run_readMemoryP (s := s.start i) (stage := stage) (ms := ms) (op := i) (p := p) (k := k)
    (addr := addr) hp hb
  exact ⟨p', ⟨k', h.trans (congrArg _ hrun)⟩, hmem⟩

end

/-! ### The primitives succeed -/

/-- Settles O15: the procedure, then `succeed`. -/
theorem wspadSucceeds : Obligations.WspadSucceeds := fun _ _ _ _ _ hb hp hbytes hc =>
  ((reaches_start hb rfl).writeScratchpad hp hbytes hc).succeed rfl

/-- Settles O16: the procedure, then `succeed`. -/
theorem rfspadSucceeds : Obligations.RfspadSucceeds := fun _ _ _ _ _ hb hp hbytes hc =>
  ((reaches_start hb rfl).writeScratchpad hp hbytes hc).succeed rfl

/-- What ReadScratchpad kept is what RSPAD, PROVSEC and WRAUTH commit. -/
theorem commit_scratchpad {n : Nat} {p : Pending} {res : Results} :
    commit n p [.rta, .res, .rdata] res = { res with rta := p.ta, res := p.es, rdata := p.rdata } := rfl

/-- What ReadAuthenticatedPage kept is what RDAUTH and RDCHAL commit. -/
theorem commit_page {n : Nat} {p : Pending} {res : Results} :
    commit n p [.page, .macrd] res = { res with page := p.page, macrd := p.mac } := rfl

/-- Settles O17: the registers committed are the values the procedure kept. -/
theorem rspadSucceeds : Obligations.RspadSucceeds := by
  intro s present rest ta es d c0 c1 hb hp hbytes hc
  obtain ⟨p', h, rfl, rfl, rfl⟩ := Reaches.readScratchpad (reaches_start (i := .rspad) hb rfl) hp hbytes hc
  exact h.succeed commit_scratchpad

/-- Settles O18: the procedure with the latched ADDR and ESIN, then `succeed`. -/
theorem cpspadSucceeds : Obligations.CpspadSucceeds := fun s _ _ hb hp hbytes =>
  (Reaches.copyScratchpad (reaches_start hb rfl) (sourcesGive_given _ s.operands.addr s.operands.esin) hp hbytes).succeed
    rfl

/-- Settles O19: the procedure with the latched ADDR and ESIN, then `succeed`. -/
theorem ldsecSucceeds : Obligations.LdsecSucceeds := fun s _ _ hb hp hbytes =>
  (Reaches.loadFirstSecret (reaches_start hb rfl) (sourcesGive_given _ s.operands.addr s.operands.esin) hp hbytes).succeed
    rfl

/-- Settles O20: the registers committed are the values the procedure kept. -/
theorem rdauthSucceeds : Obligations.RdauthSucceeds := by
  intro s present rest page mac c0 c1 c2 c3 hb hp hbytes hc hm
  obtain ⟨p', h, rfl, rfl⟩ := Reaches.readPage (reaches_start (i := .rdauth) hb rfl) hp hbytes hc hm
  exact h.succeed commit_page

/-- Settles O21: LEN is within P_MEMBUF, so every byte received is written to MEM, from index 0 on. -/
theorem rdmemSucceeds : Obligations.RdmemSucceeds := by
  intro s present rest bytes hb hmem hlen hp hbytes hn
  have hr : s.startRefused .rdmem = false := by
    rw [Bool.eq_false_iff, ne_eq, startRefused_rdmem_iff]
    omega
  have hstart : Reaches .rdmem s s.bus .empty (readMemoryP s.params 0 s.operands.addr bytes.length ++ [.succeed [.mem]]) :=
    hn ▸ reaches_start hb hr
  obtain ⟨p', h, rfl⟩ := hstart.readMemory hp hbytes
  have hcommit : commit s.params.membuf p' [.mem] s.results
      = { s.results with mem := memWriteBytes s.results.mem 0 p'.mem } := by
    show { s.results with mem := memWriteBytes s.results.mem 0 (p'.mem.take s.params.membuf) } = _
    rw [List.take_of_length_le (hn ▸ hlen)]
  obtain ⟨t, ht, hsucceeded⟩ := h.succeed hcommit
  refine ⟨t, _, ht, hsucceeded, fun a ha => ?_, fun a ha => ?_⟩
  · simpa using memRead_memWriteBytes_same hmem (a := 0) ha
  · exact memRead_memWriteBytes_other (.inr (by simpa using ha))

/-! ### The primitives fail -/

/-- Settles O23: every operation that uses the bus begins with the prologue of its first stage. -/
theorem noDeviceEndsEveryBusOperation : Obligations.NoDeviceEndsEveryBusOperation := by
  intro s i present hbus hb hr hp
  refine (reaches_start hb hr).noDevice ?_ hp
  cases i with
  | digest | sermac => cases hbus
  | wspad | rfspad => exact (beginsStep_writeScratchpadP ..).append _
  | rspad => exact (beginsStep_readScratchpadP ..).append _
  | cpspad => exact (beginsStep_copyScratchpadP ..).append _
  | rdauth => exact (beginsStep_readAuthenticatedPageP ..).append _
  | ldsec => exact (beginsStep_loadFirstSecretP ..).append _
  | rdmem => exact (beginsStep_readMemoryP ..).append _
  | rdchal => exact ((beginsStep_writeScratchpadP ..).append _).append _
  | provsec => exact (((beginsStep_writeScratchpadP ..).append _).append _).append _
  | wrauth => exact (((((beginsStep_writeScratchpadP ..).append _).append _).append _).append _).append _

/-- Settles O24: one clause for each procedure's check. -/
theorem badCrcFailsScratchpadCommands : Obligations.BadCrcFailsScratchpadCommands := fun _ _ _ _ _ _ _ _ hb hp =>
  ⟨fun hbytes hc => Reaches.writeScratchpad_badCrc (reaches_start hb rfl) hp hbytes hc,
    fun hbytes hc => Reaches.writeScratchpad_badCrc (reaches_start hb rfl) hp hbytes hc,
    fun hbytes hc => Reaches.readScratchpad_badCrc (reaches_start hb rfl) hp hbytes hc⟩

/-- Settles O25: the status check is the last position before `succeed`. -/
theorem cpspadRejected : Obligations.CpspadRejected := fun s _ _ _ hb hp hbytes hs =>
  Reaches.copyScratchpad_rejected (reaches_start hb rfl) (sourcesGive_given _ s.operands.addr s.operands.esin) hp hbytes hs

/-- Settles O26: the status check is the last position before `succeed`. -/
theorem ldsecRejected : Obligations.LdsecRejected := fun s _ _ _ hb hp hbytes hs =>
  Reaches.loadFirstSecret_rejected (reaches_start hb rfl) (sourcesGive_given _ s.operands.addr s.operands.esin) hp hbytes hs

/-- Settles O27: the trailer is checked before the first CRC. -/
theorem rdauthFirstPartFailures : Obligations.RdauthFirstPartFailures := by
  intro s present rest page trailer c0 c1 hb hp hbytes
  refine ⟨fun ht => Reaches.readPage_badTrailer (reaches_start hb rfl) hp hbytes ht, fun ht hc => ?_⟩
  subst ht
  exact Reaches.readPage_badCrc (reaches_start hb rfl) hp hbytes hc

/-- Settles O28: the second CRC is checked before the status is read. -/
theorem rdauthSecondPartFailures : Obligations.RdauthSecondPartFailures := fun _ _ _ _ _ _ _ _ _ _ hb hp hc =>
  ⟨fun hbytes hm => Reaches.readPage_badMacCrc (reaches_start hb rfl) hp hbytes hc hm,
    fun hbytes hm hs => Reaches.readPage_rejected (reaches_start hb rfl) hp hbytes hc hm hs⟩

end Sys2Proof.Machine
end

section
/-!
PROOFS. The composites (43_composite.md R200 to R206). For each, one lemma for each step says where the operation stands
when that step and those before it were answered well; a failure is the next step's failure from there.
-/

namespace Sys2Proof.Machine

open Sys2Proof.Safety

section
variable {s : State} {present : List Bool} {rest : List Byte}

/-! ### RDCHAL -/

theorem challengeBuffer_eq {chal : Vector Byte 3} {buffer : Vector Byte 8}
    (h : buffer.toList = [0x00, 0x00, 0x00, 0x00] ++ chal.toList ++ [0x00]) : challengeBuffer chal = buffer := by
  apply Vector.toList_inj.1
  rw [h]
  have hchal : chal.toList = [chal[0], chal[1], chal[2]] := by
    apply List.ext_getElem (by simp)
    intro j hj _
    have hj : j < 3 := by simpa using hj
    interval_cases j <;> simp
  rw [hchal]
  rfl

theorem rdchal_start (hb : busy s.status = false) :
    Reaches .rdchal s s.bus .empty
      (writeScratchpadP 1 s.operands.addr (challengeBuffer s.operands.chal) 0x0F
        ++ (readAuthenticatedPageP s.params 2 s.operands.addr ++ [.succeed [.page, .macrd]])) := by
  rw [← List.append_assoc]
  exact reaches_start hb rfl

/-- RDCHAL after its first step. -/
theorem rdchal_after1 {buffer : Vector Byte 8} {w0 w1 : Byte}
    (hbuffer : buffer.toList = [0x00, 0x00, 0x00, 0x00] ++ s.operands.chal.toList ++ [0x00])
    (hb : busy s.status = false) (hp : s.bus.presence = true :: present) (hbytes : s.bus.bytes = [w0, w1] ++ rest)
    (hw : scratchpadCrcOk s.params 0x0F s.operands.addr buffer w0 w1 = true) :
    Reaches .rdchal s
      (busAfter s.bus (scratchpadWritten s.operands.rom 0x0F s.operands.addr buffer w0 w1) present rest)
      { Pending.empty with rx := [w0, w1] }
      (readAuthenticatedPageP s.params 2 s.operands.addr ++ [.succeed [.page, .macrd]]) := by
  have h := rdchal_start hb
  rw [challengeBuffer_eq hbuffer] at h
  exact h.writeScratchpad hp hbytes hw

/-- Settles O29: both steps, then `succeed` with the values the second one kept. -/
theorem rdchalSucceeds : Obligations.RdchalSucceeds := by
  intro s present rest page mac w0 w1 c0 c1 c2 c3 buffer hbuffer hb hp hbytes hw hc hm
  have hbytes : s.bus.bytes
      = [w0, w1] ++ (page.toList ++ [0xFF, c0, c1] ++ mac.toList ++ [c2, c3, 0xAA] ++ rest) := by simpa using hbytes
  obtain ⟨p', h, rfl, rfl⟩ := (rdchal_after1 hbuffer hb hp hbytes hw).readPage rfl rfl hc hm
  have hend := h.succeed commit_page
  rwa [busAfter_busAfter, ← List.append_assoc, ← List.append_assoc] at hend

/-- Settles O30: the first step's failure, then the five of the second, from where the first step left the operation. -/
theorem rdchalFailsAtItsStage : Obligations.RdchalFailsAtItsStage := by
  intro s present rest page mac w0 w1 trailer c0 c1 c2 c3 status buffer hbuffer hb
  refine ⟨fun hp hbytes hw => ?_, fun hp hbytes hw => ?_, fun hp hbytes hw => ⟨fun ht => ?_, fun ht hc => ?_⟩,
    fun hp hw hc => ⟨fun hbytes hm => ?_, fun hbytes hm hs => ?_⟩⟩
  · have h := rdchal_start hb
    rw [challengeBuffer_eq hbuffer] at h
    exact h.writeScratchpad_badCrc hp hbytes hw
  · exact (rdchal_after1 hbuffer hb hp hbytes hw).noDevice_after ((beginsStep_readAuthenticatedPageP ..).append _)
  · have hbytes : s.bus.bytes = [w0, w1] ++ (page.toList ++ [trailer, c0, c1] ++ rest) := by simpa using hbytes
    have h := (rdchal_after1 hbuffer hb hp hbytes hw).readPage_badTrailer rfl rfl ht
    rwa [busAfter_busAfter] at h
  · have hbytes : s.bus.bytes = [w0, w1] ++ (page.toList ++ [0xFF, c0, c1] ++ rest) := by simpa [ht] using hbytes
    have h := (rdchal_after1 hbuffer hb hp hbytes hw).readPage_badCrc rfl rfl hc
    rwa [busAfter_busAfter] at h
  · have hbytes : s.bus.bytes = [w0, w1] ++ (page.toList ++ [0xFF, c0, c1] ++ mac.toList ++ [c2, c3] ++ rest) := by
      simpa using hbytes
    have h := (rdchal_after1 hbuffer hb hp hbytes hw).readPage_badMacCrc rfl rfl hc hm
    rwa [busAfter_busAfter, ← List.append_assoc] at h
  · have hbytes : s.bus.bytes
        = [w0, w1] ++ (page.toList ++ [0xFF, c0, c1] ++ mac.toList ++ [c2, c3] ++ status :: rest) := by simpa using hbytes
    have h := (rdchal_after1 hbuffer hb hp hbytes hw).readPage_rejected rfl rfl hc hm hs
    rwa [busAfter_busAfter, ← List.append_assoc, ← List.append_assoc] at h

/-! ### PROVSEC -/

section
variable {ta : Half} {es : Byte} {d : Vector Byte 8} {w0 w1 c0 c1 : Byte}

theorem provsec_start (hb : busy s.status = false) :
    Reaches .provsec s s.bus .empty
      (writeScratchpadP 1 0x0080 s.operands.secret 0x0F
        ++ (readScratchpadP s.params 2
          ++ (loadFirstSecretP s.params 3 returnedAddr .pendingEs ++ [.succeed [.rta, .res, .rdata]]))) := by
  simp only [← List.append_assoc]
  exact reaches_start hb rfl

/-- PROVSEC after its first step. -/
theorem provsec_after1 (hb : busy s.status = false) (hp : s.bus.presence = true :: present)
    (hbytes : s.bus.bytes = [w0, w1] ++ rest) (hw : scratchpadCrcOk s.params 0x0F 0x0080 s.operands.secret w0 w1 = true) :
    Reaches .provsec s
      (busAfter s.bus (scratchpadWritten s.operands.rom 0x0F 0x0080 s.operands.secret w0 w1) present rest)
      { Pending.empty with rx := [w0, w1] }
      (readScratchpadP s.params 2
        ++ (loadFirstSecretP s.params 3 returnedAddr .pendingEs ++ [.succeed [.rta, .res, .rdata]])) :=
  (provsec_start hb).writeScratchpad hp hbytes hw

/-- PROVSEC after its second step, which kept TA, ES and the data. -/
theorem provsec_after2 (hb : busy s.status = false) (hp : s.bus.presence = true :: true :: present)
    (hbytes : s.bus.bytes = [w0, w1] ++ ([lo ta, hi ta, es] ++ d.toList ++ [c0, c1] ++ rest))
    (hw : scratchpadCrcOk s.params 0x0F 0x0080 s.operands.secret w0 w1 = true)
    (hc : readbackCrcOk s.params ta es d c0 c1 = true) :
    ∃ p, Reaches .provsec s
        (busAfter s.bus
          (scratchpadWritten s.operands.rom 0x0F 0x0080 s.operands.secret w0 w1
            ++ scratchpadRead s.operands.rom ta es d c0 c1) present rest) p
        (loadFirstSecretP s.params 3 returnedAddr .pendingEs ++ [.succeed [.rta, .res, .rdata]])
      ∧ p.ta = ta ∧ p.es = es ∧ p.rdata = d := by
  obtain ⟨p, h, hkept⟩ := (provsec_after1 hb hp hbytes hw).readScratchpad rfl rfl hc
  rw [busAfter_busAfter] at h
  exact ⟨p, h, hkept⟩

end

/-- Settles O31: three steps, then `succeed` with the values the second one kept. -/
theorem provsecSucceeds : Obligations.ProvsecSucceeds := by
  intro s present rest ta es d w0 w1 c0 c1 hb hp hbytes hw hc
  obtain ⟨p, h, rfl, rfl, rfl⟩ := provsec_after2 hb hp (by simpa using hbytes) hw hc
  have hend := (h.loadFirstSecret (sourcesGive_returned p) rfl rfl).succeed commit_scratchpad
  rwa [busAfter_busAfter] at hend

/-- Settles O32: the two failures of the third step, from where the second left the operation. -/
theorem provsecFailsAtStage3 : Obligations.ProvsecFailsAtStage3 := by
  intro s present rest ta es d w0 w1 c0 c1 status hb hw hc
  refine ⟨fun hp hbytes => ?_, fun hp hbytes hs => ?_⟩
  · obtain ⟨p, h, -⟩ := provsec_after2 hb hp (by simpa using hbytes) hw hc
    exact h.noDevice_after ((beginsStep_loadFirstSecretP ..).append _)
  · obtain ⟨p, h, rfl, rfl, rfl⟩ := provsec_after2 hb hp (by simpa using hbytes) hw hc
    have hend := h.loadFirstSecret_rejected (sourcesGive_returned p) rfl rfl hs
    rwa [busAfter_busAfter] at hend

/-- Settles O33: the failure of the first step, and the two of the second from where the first left the operation. -/
theorem provsecFailsAtStages1And2 : Obligations.ProvsecFailsAtStages1And2 := by
  intro s present rest ta es d w0 w1 c0 c1 hb
  refine ⟨fun hp hbytes hw => ?_, fun hp hbytes hw => ?_, fun hp hbytes hw hc => ?_⟩
  · exact (provsec_start hb).writeScratchpad_badCrc hp hbytes hw
  · exact (provsec_after1 hb hp hbytes hw).noDevice_after ((beginsStep_readScratchpadP ..).append _)
  · have hbytes : s.bus.bytes = [w0, w1] ++ ([lo ta, hi ta, es] ++ d.toList ++ [c0, c1] ++ rest) := by simpa using hbytes
    have h := (provsec_after1 hb hp hbytes hw).readScratchpad_badCrc rfl rfl hc
    rwa [busAfter_busAfter] at h

/-! ### WRAUTH -/

/-- WRAUTH's positions after its fourth step. -/
def wrauthFrom5 (s : State) : List Micro :=
  loadFirstSecretP s.params 5 (givenAddr s.operands.addr) .pendingEs ++ [.succeed [.rta, .res, .rdata]]

/-- WRAUTH's positions after its third step. -/
def wrauthFrom4 (s : State) : List Micro :=
  writeScratchpadP 4 s.operands.addr s.operands.data 0xA3 ++ wrauthFrom5 s

/-- WRAUTH's positions after its second step. -/
def wrauthFrom3 (s : State) : List Micro :=
  copyScratchpadP s.params 3 returnedAddr .pendingEs s.operands.macin ++ wrauthFrom4 s

/-- WRAUTH's positions after its first step. -/
def wrauthFrom2 (s : State) : List Micro := readScratchpadP s.params 2 ++ wrauthFrom3 s

section
variable {ta : Half} {es : Byte} {d : Vector Byte 8} {w0 w1 c0 c1 f0 f1 : Byte}

theorem wrauth_start (hb : busy s.status = false) :
    Reaches .wrauth s s.bus .empty (writeScratchpadP 1 s.operands.addr s.operands.data 0x0F ++ wrauthFrom2 s) := by
  simp only [wrauthFrom2, wrauthFrom3, wrauthFrom4, wrauthFrom5, ← List.append_assoc]
  exact reaches_start hb rfl

/-- WRAUTH after its first step. -/
theorem wrauth_after1 (hb : busy s.status = false) (hp : s.bus.presence = true :: present)
    (hbytes : s.bus.bytes = [w0, w1] ++ rest)
    (hw : scratchpadCrcOk s.params 0x0F s.operands.addr s.operands.data w0 w1 = true) :
    Reaches .wrauth s
      (busAfter s.bus (scratchpadWritten s.operands.rom 0x0F s.operands.addr s.operands.data w0 w1) present rest)
      { Pending.empty with rx := [w0, w1] } (wrauthFrom2 s) :=
  (wrauth_start hb).writeScratchpad hp hbytes hw

/-- WRAUTH after its second step, which kept TA, ES and the data. -/
theorem wrauth_after2 (hb : busy s.status = false) (hp : s.bus.presence = true :: true :: present)
    (hbytes : s.bus.bytes = [w0, w1] ++ ([lo ta, hi ta, es] ++ d.toList ++ [c0, c1] ++ rest))
    (hw : scratchpadCrcOk s.params 0x0F s.operands.addr s.operands.data w0 w1 = true)
    (hc : readbackCrcOk s.params ta es d c0 c1 = true) :
    ∃ p, Reaches .wrauth s
        (busAfter s.bus
          (scratchpadWritten s.operands.rom 0x0F s.operands.addr s.operands.data w0 w1
            ++ scratchpadRead s.operands.rom ta es d c0 c1) present rest) p (wrauthFrom3 s)
      ∧ p.ta = ta ∧ p.es = es ∧ p.rdata = d := by
  obtain ⟨p, h, hkept⟩ := (wrauth_after1 hb hp hbytes hw).readScratchpad rfl rfl hc
  rw [busAfter_busAfter] at h
  exact ⟨p, h, hkept⟩

/-- WRAUTH after its third step, a copy with the returned TA and ES. -/
theorem wrauth_after3 (hb : busy s.status = false) (hp : s.bus.presence = true :: true :: true :: present)
    (hbytes : s.bus.bytes = [w0, w1] ++ ([lo ta, hi ta, es] ++ d.toList ++ [c0, c1] ++ 0xAA :: rest))
    (hw : scratchpadCrcOk s.params 0x0F s.operands.addr s.operands.data w0 w1 = true)
    (hc : readbackCrcOk s.params ta es d c0 c1 = true) :
    ∃ p, Reaches .wrauth s
        (busAfter s.bus
          (scratchpadWritten s.operands.rom 0x0F s.operands.addr s.operands.data w0 w1
            ++ scratchpadRead s.operands.rom ta es d c0 c1
            ++ scratchpadCopied s.params s.operands.rom ta es s.operands.macin 0xAA) present rest) p (wrauthFrom4 s)
      ∧ p.ta = ta ∧ p.es = es ∧ p.rdata = d := by
  obtain ⟨p, h, rfl, rfl, rfl⟩ := wrauth_after2 hb hp hbytes hw hc
  have h := h.copyScratchpad (sourcesGive_returned p) rfl rfl
  rw [busAfter_busAfter] at h
  exact ⟨_, h, rfl, rfl, rfl⟩

/-- WRAUTH after its fourth step. -/
theorem wrauth_after4 (hb : busy s.status = false) (hp : s.bus.presence = true :: true :: true :: true :: present)
    (hbytes : s.bus.bytes
      = [w0, w1] ++ ([lo ta, hi ta, es] ++ d.toList ++ [c0, c1] ++ 0xAA :: ([f0, f1] ++ rest)))
    (hw : scratchpadCrcOk s.params 0x0F s.operands.addr s.operands.data w0 w1 = true)
    (hc : readbackCrcOk s.params ta es d c0 c1 = true)
    (hf : scratchpadCrcOk s.params 0xA3 s.operands.addr s.operands.data f0 f1 = true) :
    ∃ p, Reaches .wrauth s
        (busAfter s.bus
          (scratchpadWritten s.operands.rom 0x0F s.operands.addr s.operands.data w0 w1
            ++ scratchpadRead s.operands.rom ta es d c0 c1
            ++ scratchpadCopied s.params s.operands.rom ta es s.operands.macin 0xAA
            ++ scratchpadWritten s.operands.rom 0xA3 s.operands.addr s.operands.data f0 f1) present rest) p (wrauthFrom5 s)
      ∧ p.ta = ta ∧ p.es = es ∧ p.rdata = d := by
  obtain ⟨p, h, hkept⟩ := wrauth_after3 hb hp hbytes hw hc
  have h := h.writeScratchpad rfl rfl hf
  rw [busAfter_busAfter] at h
  exact ⟨_, h, hkept⟩

end

/-- Settles O34: five steps, then `succeed` with the values the second one kept. -/
theorem wrauthSucceeds : Obligations.WrauthSucceeds := by
  intro s present rest ta es d w0 w1 c0 c1 f0 f1 hb hp hbytes hw hc hf
  obtain ⟨p, h, rfl, rfl, rfl⟩ := wrauth_after4 (rest := 0xAA :: rest) hb hp (by simpa using hbytes) hw hc hf
  have hend := (h.loadFirstSecret (sourcesGive_returnedEs p s.operands.addr) rfl rfl).succeed commit_scratchpad
  rwa [busAfter_busAfter] at hend

/-- Settles O35: each failure from where the steps before it left the operation. -/
theorem wrauthFailsAtStages1To3 : Obligations.WrauthFailsAtStages1To3 := by
  intro s present rest ta es d w0 w1 c0 c1 status hb
  refine ⟨fun hp hbytes hw => ?_, fun hp hbytes hw => ?_, fun hp hbytes hw hc => ?_, fun hp hbytes hw hc => ?_,
    fun hp hbytes hw hc hs => ?_⟩
  · exact (wrauth_start hb).writeScratchpad_badCrc hp hbytes hw
  · exact (wrauth_after1 hb hp hbytes hw).noDevice_after ((beginsStep_readScratchpadP ..).append _)
  · have hbytes : s.bus.bytes = [w0, w1] ++ ([lo ta, hi ta, es] ++ d.toList ++ [c0, c1] ++ rest) := by simpa using hbytes
    have h := (wrauth_after1 hb hp hbytes hw).readScratchpad_badCrc rfl rfl hc
    rwa [busAfter_busAfter] at h
  · obtain ⟨p, h, -⟩ := wrauth_after2 hb hp (by simpa using hbytes) hw hc
    exact h.noDevice_after ((beginsStep_copyScratchpadP ..).append _)
  · obtain ⟨p, h, rfl, rfl, rfl⟩ := wrauth_after2 hb hp (by simpa using hbytes) hw hc
    have hend := h.copyScratchpad_rejected (sourcesGive_returned p) rfl rfl hs
    rwa [busAfter_busAfter] at hend

/-- Settles O36: each failure from where the steps before it left the operation. -/
theorem wrauthFailsAtStages4And5 : Obligations.WrauthFailsAtStages4And5 := by
  intro s present rest ta es d w0 w1 c0 c1 f0 f1 status hb hw hc
  refine ⟨fun hp hbytes => ?_, fun hp hbytes hf => ?_, fun hp hbytes hf => ?_, fun hp hbytes hf hs => ?_⟩
  · obtain ⟨p, h, -⟩ := wrauth_after3 hb hp (by simpa using hbytes) hw hc
    exact h.noDevice_after ((beginsStep_writeScratchpadP ..).append _)
  · obtain ⟨p, h, -⟩ := wrauth_after3 (rest := [f0, f1] ++ rest) hb hp (by simpa using hbytes) hw hc
    have hend := h.writeScratchpad_badCrc rfl rfl hf
    rwa [busAfter_busAfter] at hend
  · obtain ⟨p, h, -⟩ := wrauth_after4 hb hp (by simpa using hbytes) hw hc hf
    exact h.noDevice_after ((beginsStep_loadFirstSecretP ..).append _)
  · obtain ⟨p, h, rfl, rfl, rfl⟩ := wrauth_after4 (rest := status :: rest) hb hp (by simpa using hbytes) hw hc hf
    have hend := h.loadFirstSecret_rejected (sourcesGive_returnedEs p s.operands.addr) rfl rfl hs
    rwa [busAfter_busAfter] at hend

end

end Sys2Proof.Machine
end
